-- ==== Sys2Proof/Word.lean ====
section
/-! DEFINITION. The plain types of PSC52: bytes, sample pairs, directions, wheels (spec/00_scope.md R10, R11;
spec/10_state.md R21, R26). The spec's `num` is an exact rational, Lean's `Rat` (R11). -/

namespace Sys2Proof

/-- One wire byte, bit 7 the most significant (R10, R62). -/
abbrev Byte := BitVec 8

/-- An entry of `b_work` and `b_pub`: the pair `(angle_x100 : u16, distance : u16)` (20_memory.md R60). -/
abbrev SamplePair := BitVec 16 × BitVec 16

/-- The six directions, in the order of their 3-bit codes 0 to 5 (10_state.md R21). Codes 6 and 7 are reserved and no
register ever holds them, so they are not values of this type. -/
inductive Direction where
  | stop | forward | backward | left | right | uturn
deriving DecidableEq, Repr

/-- The turn direction of the ANGLE_TURN tracker: `at_dir`, 0 = LEFT, 1 = RIGHT (10_state.md R26). -/
inductive TurnDir where
  | left | right
deriving DecidableEq, Repr

/-- The two wheels (00_scope.md R14). -/
inductive Wheel where
  | l | r
deriving DecidableEq, Repr

/-- A register file of two identical rows, one per wheel (10_state.md R24, R25). -/
structure PerWheel (α : Type) where
  /-- the left wheel's row -/
  l : α
  /-- the right wheel's row -/
  r : α
deriving DecidableEq, Repr

/-- Row `w` of a per-wheel register file. -/
def PerWheel.get {α : Type} (p : PerWheel α) : Wheel → α
  | .l => p.l
  | .r => p.r

/-- The register file with row `w` replaced. -/
def PerWheel.set {α : Type} (p : PerWheel α) (w : Wheel) (v : α) : PerWheel α :=
  match w with
  | .l => { p with l := v }
  | .r => { p with r := v }

/-- The two interrupt channels that ARM names: `ch` 0 and 1 (30_encoding.md R82). -/
inductive Channel where
  | command | protocolB
deriving DecidableEq, Repr

/-- The fields of a Protocol-A packet (30_encoding.md R87, R88): start flag, quality, angle in 1/64 degree, check bit,
distance in 0.25 mm. -/
structure APacket where
  start : BitVec 1
  quality : BitVec 7
  angleQ6 : BitVec 15
  check : BitVec 1
  distQ2 : BitVec 16
deriving DecidableEq, Repr

end Sys2Proof
end

