-- ==== Sys2Proof/Config.lean ====
section
/-! DEFINITION. The configuration record of PSC52 (spec/00_scope.md R7, R8, R9) and the free values the spec leaves open.

Every parameter is a field with the spec's value as its default; a machine carries its record in `State.cfg` and no step
changes it (log entry 1), so that a statement over every state is a statement over every configuration. -/

namespace Sys2Proof

/-- The rounding hook `rnd` of R11, as plain data: the identity (the default of R9), or the uninterpreted rounding
number `k` (log entry 3). -/
inductive Rounding where
  | exact
  | free (k : Nat)
deriving DecidableEq, Repr

/-- FREE VALUE: what rounding number `k` makes of a number. The spec names no format (R11, D3), so nothing is known of
it (log entry 3). -/
opaque Config.freeRound : Nat → Rat → Rat

/-- FREE VALUE: what the `n`-th external read of a `b_pub` entry that was never published returns ("any value, a draw
per read, under no law": 93_implementation_defined.md U6; log entry 9). -/
opaque Config.freeSample : Nat → SamplePair

/-- The configuration record. -/
structure Config where
  /-- `MAX_SPEED` (R7) -/
  maxSpeed : Rat := 500
  /-- `SPEED_STEP` (R7) -/
  speedStep : Rat := 100
  /-- `SPEED_UPDATE_INTERVAL`, ms (R7) -/
  speedUpdateInterval : Nat := 50
  /-- `TURN_SPEED` (R7) -/
  turnSpeed : Rat := 300
  /-- `PPR`, pulses per revolution (R7) -/
  ppr : Nat := 360
  /-- `SAMPLE_TIME_MS` (R7) -/
  sampleTimeMs : Nat := 100
  /-- `MIN_VALID_DISTANCE`, mm (R7) -/
  minValidDistance : Rat := 50
  /-- `MAX_VALID_DISTANCE`, mm (R7) -/
  maxValidDistance : Rat := 12000
  /-- `LIDAR_TIMEOUT_THRESHOLD`, ms (R7) -/
  lidarTimeout : Nat := 500
  /-- `A_SYNC` (R8) -/
  aSync : Byte := 0xA5#8
  /-- `A_PKT_LEN`, bytes (R8) -/
  aPktLen : Nat := 5
  /-- `A_ANGLE_STEP`, degrees (R8) -/
  aAngleStep : Rat := 1
  /-- `B_SAMPLES_PER_FRAME` (R8) -/
  bSamplesPerFrame : Nat := 20
  /-- `B_PUBLISH_THRESHOLD` (R8) -/
  bPublishThreshold : Nat := 260
  /-- `B_PUBLISH_LEN` (R8) -/
  bPublishLen : Nat := 250
  /-- `B_ANGLE_BITS` (R8) -/
  bAngleBits : Nat := 14
  /-- `ANGLE_TURN_DEG` (R8) -/
  angleTurnDeg : Rat := 90
  /-- `U_TURN_DEG` (R8) -/
  uTurnDeg : Rat := 180
  /-- `CMD_BASE`, ASCII '0' (R8) -/
  cmdBase : Byte := 0x30#8
  /-- `KP[w]` (R9, OPEN; this default is the vectors' value, log entry 2) -/
  kp : PerWheel Rat := ⟨2, 2⟩
  /-- `KI[w]` (R9, OPEN; log entry 2) -/
  ki : PerWheel Rat := ⟨1/2, 1/2⟩
  /-- `KD[w]` (R9, OPEN; log entry 2) -/
  kd : PerWheel Rat := ⟨1, 1⟩
  /-- `A_BUF_SIZE`, written `N` (R9, OPEN; log entry 2) -/
  aBufSize : Nat := 16
  /-- `ENC_BITS`, written `W` (R9) -/
  encBits : Nat := 16
  /-- `TIME_BITS` (R9) -/
  timeBits : Nat := 32
  /-- `HDR1` (R9, OPEN; log entry 2) -/
  hdr1 : BitVec 4 := 0xA#4
  /-- `HDR2` (R9, OPEN; log entry 2) -/
  hdr2 : BitVec 4 := 0x5#4
  /-- `B_COLLECT_LEN` (R9) -/
  bCollectLen : Nat := 42
  /-- `B_PAYLOAD_OFFSET` (R9) -/
  bPayloadOffset : Nat := 0
  /-- `B_WORK_CAP` (R9) -/
  bWorkCap : Nat := 280
  /-- `A_SYNC_STORED` (R9) -/
  aSyncStored : Bool := false
  /-- `UTURN_SIGNED` (R9) -/
  uturnSigned : Bool := false
  /-- `rnd` (R9) -/
  rnd : Rounding := .exact
deriving DecidableEq, Repr

/-- The record with the spec's values and, for the OPEN parameters, the values of its test vectors (log entry 2). -/
def Config.default : Config := {}

/-- The constraints of R9 and what R28, R29 and R205 take for granted of the constants: the sizes of the buffers cover
the indices the rules use, and no divisor is 0 (log entry 21). -/
def Config.wf (c : Config) : Bool :=
  decide (0 ≤ c.maxSpeed) && decide (0 ≤ c.speedStep) && decide (0 ≤ c.turnSpeed)
    && decide (c.turnSpeed ≤ c.maxSpeed)
    && decide (0 < c.ppr) && decide (0 < c.sampleTimeMs)
    && decide (c.aPktLen = 5) && decide (2 ≤ c.aBufSize) && decide (2 ≤ c.encBits) && decide (1 ≤ c.timeBits)
    && decide (0 < c.bSamplesPerFrame)
    && decide (c.bPayloadOffset + 2 + 2 * c.bSamplesPerFrame ≤ c.bCollectLen)
    && decide (c.bPublishThreshold + c.bSamplesPerFrame ≤ c.bWorkCap)
    && decide (c.bPublishLen ≤ c.bPublishThreshold)
    && decide (c.cmdBase.toNat ≤ 250)

end Sys2Proof
end

