-- ==== Sys2Proof/Syntax.lean ====
section
/-! DEFINITION. What PSC52 is given: the operations and wire units (`Instr`, one constructor per row of
spec/opcode_table.json), the words that carry them (`PortWord`), and why a word can be rejected. -/

namespace Sys2Proof

/-- One operation of the event port or one wire-level unit (00_scope.md R5; 30_encoding.md R97). Operands are those of
R82 and of the wire formats R85 to R93. -/
inductive Instr where
  /-- RESET, op 0x0 (R230) -/
  | reset
  /-- MTICK `now`, op 0x1 (R112) -/
  | mtick (now : Nat)
  /-- EST `enc_l` `enc_r`, op 0x2 (R140) -/
  | est (encL encR : Nat)
  /-- DRIVE, op 0x3 (R115) -/
  | drive
  /-- GYRO `gz`, op 0x4 (R150) -/
  | gyro (gz : Rat)
  /-- APOLL `now`, op 0x5 (R181) -/
  | apoll (now : Nat)
  /-- NOTIFY, op 0x6 (R170) -/
  | notify
  /-- CMD_RX `byte`, op 0x7 (R161) -/
  | cmdRx (byte : Byte)
  /-- B_RX `byte`, op 0x8 (R201) -/
  | bRx (byte : Byte)
  /-- A_FILL `byte`, op 0x9 (R180) -/
  | aFill (byte : Byte)
  /-- SET_INTENT `dir` `speed`, op 0xA (R110) -/
  | setIntent (dir : Direction) (speed : Rat)
  /-- ESTOP, op 0xB (R119) -/
  | estop
  /-- ARM `ch`, op 0xC (R171) -/
  | arm (ch : Channel)
  /-- B_START, op 0xD with `sel = 0` (R210) -/
  | bStart
  /-- B_STOP, op 0xD with `sel = 1` (R211) -/
  | bStop
  /-- IMU_STATUS `ok`, op 0xE (R233) -/
  | imuStatus (ok : Bool)
  /-- FATAL, op 0xF (R232) -/
  | fatal
  /-- the command byte '0' (R162) -/
  | cmdStop
  /-- the command byte '1' (R163) -/
  | cmdForward
  /-- the command byte '2' (R164) -/
  | cmdBackward
  /-- the command byte '3' (R165) -/
  | cmdLeft
  /-- the command byte '4' (R166) -/
  | cmdRight
  /-- the command byte '5' (R167) -/
  | cmdUturn
  /-- any other byte on the command channel (R168) -/
  | cmdIgnored (byte : Byte)
  /-- the sync byte of Protocol A, consumed at time `now` (R184) -/
  | aSync (now : Nat)
  /-- the five packet bytes of Protocol A, consumed at time `now` (R185) -/
  | aPacket (now : Nat) (p : APacket)
  /-- the first header byte of Protocol B, with the checksum's low nibble (R202) -/
  | bHdr1 (c : BitVec 4)
  /-- the second header byte of Protocol B, with the checksum's high nibble (R202) -/
  | bHdr2 (c : BitVec 4)
  /-- a whole Protocol-B frame: the two checksum nibbles and the collected bytes (R203) -/
  | bFrame (cLow cHigh : BitVec 4) (body : List Byte)
  /-- the start command the block sends (R92, R210) -/
  | txBStart
  /-- the stop command the block sends (R93, R211) -/
  | txBStop
deriving DecidableEq, Repr

/-- One event word: the 4-bit operation code and the operand ports (R81, R82). A port an operation does not read is
ignored. A `num` port is typed, because how a `num` is carried on a port is not decided, and of a number on `now`,
`enc_l` or `enc_r` the port carries what its width holds (R82; log entry 14). -/
structure EventWord where
  op : BitVec 4
  now : Nat := 0
  byte : Byte := 0#8
  encL : Nat := 0
  encR : Nat := 0
  gz : Rat := 0
  dir : BitVec 3 := 0#3
  speed : Rat := 0
  ch : BitVec 1 := 0#1
  sel : BitVec 1 := 0#1
  ok : BitVec 1 := 0#1
deriving DecidableEq, Repr

/-- A word of one of the five encoding formats of R80, at the port or on the wire it belongs to. -/
inductive PortWord where
  /-- format EV, at the event port -/
  | ev (e : EventWord)
  /-- format CB, a byte on the command channel -/
  | cb (byte : Byte)
  /-- format PA, bytes at the Protocol-A decoder, with the poll's time (log entry 11) -/
  | pa (bytes : List Byte) (now : Nat)
  /-- format PB, bytes on Protocol B's channel -/
  | pb (bytes : List Byte)
  /-- format TX, bytes the block sends on Protocol B's channel -/
  | tx (bytes : List Byte)
deriving DecidableEq, Repr

/-- Why the decoder names no instruction for a word. Only the first kind stops a step; the bytes of a wire word that is
no unit are taken one at a time (`fetch`; R94, R95; log entry 31). -/
inductive DecodeError where
  /-- a SET_INTENT with `dir` 6 or 7: it spells no operation (R84) -/
  | reservedDirection (code : BitVec 3)
  /-- bytes that are neither a sync byte nor five packet bytes (R87) -/
  | notProtocolA
  /-- bytes that are neither a header byte nor a frame (R89) -/
  | notProtocolB
  /-- bytes that are not one of the two commands the block sends (R92, R93) -/
  | notTransmitted
deriving DecidableEq, Repr

end Sys2Proof
end

