-- ==== Sys2Proof/WellFormed.lean ====
section
/-! DEFINITION. Which instructions are well formed: every operand fits its port (spec/30_encoding.md R82), a
CMD_IGNORED byte is no command byte (R86), a frame has `B_COLLECT_LEN` collected bytes (R89). -/

namespace Sys2Proof

/-- The operands of `i` are values its encoding can carry, under configuration `c`. -/
def Instr.wf (c : Config) : Instr → Bool
  | .reset => true
  | .mtick now => decide (now < 2 ^ c.timeBits)
  | .est encL encR => decide (encL < 2 ^ c.encBits) && decide (encR < 2 ^ c.encBits)
  | .drive => true
  | .gyro _ => true
  | .apoll now => decide (now < 2 ^ c.timeBits)
  | .notify => true
  | .cmdRx _ => true
  | .bRx _ => true
  | .aFill _ => true
  | .setIntent _ _ => true
  | .estop => true
  | .arm _ => true
  | .bStart => true
  | .bStop => true
  | .imuStatus _ => true
  | .fatal => true
  | .cmdStop => true
  | .cmdForward => true
  | .cmdBackward => true
  | .cmdLeft => true
  | .cmdRight => true
  | .cmdUturn => true
  | .cmdIgnored b => decide (6 ≤ (b - c.cmdBase).toNat)
  | .aSync now => decide (now < 2 ^ c.timeBits)
  | .aPacket now _ => decide (now < 2 ^ c.timeBits)
  | .bHdr1 _ => true
  | .bHdr2 _ => true
  | .bFrame _ _ body => decide (body.length = c.bCollectLen)
  | .txBStart => true
  | .txBStop => true

end Sys2Proof
end

