-- ==== Sys2Proof/Decode.lean ====
section
/-! DEFINITION. The decoder and the encoder of PSC52's five formats (spec/30_encoding.md R80 to R97), the field assembly
they share with the machine (R88, R90, R91), and the layout of the opcode table's words. -/

namespace Sys2Proof

/-! ### Fields -/

/-- `u16le(lo, hi) = lo + 256*hi`, the byte received first in the low half (R10, R61). -/
def u16le (lo hi : Byte) : BitVec 16 := hi ++ lo

/-- The high nibble of a byte, `byte[7:4]`. -/
def highNibble (b : Byte) : BitVec 4 := b.extractLsb' 4 4

/-- The low nibble of a byte, `byte[3:0]`. -/
def lowNibble (b : Byte) : BitVec 4 := b.extractLsb' 0 4

/-- A Protocol-B header byte: the header constant in bits 7..4, a checksum nibble in bits 3..0 (R89). -/
def headerByte (hdr c : BitVec 4) : Byte := hdr ++ c

/-- The fields of a Protocol-A packet from its five bytes (R88). -/
def APacket.ofBytes (p0 p1 p2 p3 p4 : Byte) : APacket :=
  { start := p0.extractLsb' 7 1
    quality := p0.extractLsb' 0 7
    angleQ6 := (u16le p1 p2).extractLsb' 1 15
    check := (u16le p1 p2).extractLsb' 0 1
    distQ2 := u16le p3 p4 }

/-- The five bytes of a Protocol-A packet, first on the wire first: `Sqqqqqqq aaaaaaaC AAAAAAAA dddddddd DDDDDDDD`
(R87). -/
def APacket.toBytes (p : APacket) : List Byte :=
  let af : BitVec 16 := p.angleQ6 ++ p.check
  [p.start ++ p.quality, af.extractLsb' 0 8, af.extractLsb' 8 8, p.distQ2.extractLsb' 0 8, p.distQ2.extractLsb' 8 8]

/-- The direction a 3-bit code names; 6 and 7 name none (10_state.md R21). -/
def Direction.ofCode (code : BitVec 3) : Option Direction :=
  match code.toNat with
  | 0 => some .stop
  | 1 => some .forward
  | 2 => some .backward
  | 3 => some .left
  | 4 => some .right
  | 5 => some .uturn
  | _ => none

/-- The 3-bit code of a direction (10_state.md R21). -/
def Direction.code : Direction → BitVec 3
  | .stop => 0#3
  | .forward => 1#3
  | .backward => 2#3
  | .left => 3#3
  | .right => 4#3
  | .uturn => 5#3

/-- The 1-bit code of a channel on the port `ch` (R82). -/
def Channel.code : Channel → BitVec 1
  | .command => 0#1
  | .protocolB => 1#1

/-- The direction a byte of the command channel selects: `CMD_BASE + code`, compared whole (R85); none for the other 250
values (R86). -/
def commandDirection (c : Config) (b : Byte) : Option Direction :=
  match (b - c.cmdBase).toNat with
  | 0 => some .stop
  | 1 => some .forward
  | 2 => some .backward
  | 3 => some .left
  | 4 => some .right
  | 5 => some .uturn
  | _ => none

/-- The command byte of a direction (R85). -/
def commandByte (c : Config) (d : Direction) : Byte := c.cmdBase + d.code.setWidth 8

/-- The nine bytes of the Protocol-B start command, as printed, 0x22 included (R92). -/
def txStartBytes : List Byte := [0xA5#8, 0x82#8, 0x00#8, 0x00#8, 0x00#8, 0x00#8, 0x00#8, 0x00#8, 0x22#8]

/-- The three bytes of the Protocol-B stop command (R93). -/
def txStopBytes : List Byte := [0xA5#8, 0x25#8, 0xCA#8]

/-! ### The decoder -/

/-- What the port `now` of `TIME_BITS` bits carries of a number: the clock "wraps modulo 2^32" (R82; log entry 14). -/
def portTime (c : Config) (now : Nat) : Nat := now % 2 ^ c.timeBits

/-- What a counter port of `ENC_BITS` bits carries of a number: the raw value of a "free-running (possibly wrapping)
hardware pulse counter" (R82; log entry 14). -/
def portCount (c : Config) (enc : Nat) : Nat := enc % 2 ^ c.encBits

/-- Format EV: the sixteen codes of R81; 0xD is split by `sel`. -/
def decodeEvent (c : Config) (e : EventWord) : Except DecodeError Instr :=
  match e.op.toNat with
  | 0x0 => .ok .reset
  | 0x1 => .ok (.mtick (portTime c e.now))
  | 0x2 => .ok (.est (portCount c e.encL) (portCount c e.encR))
  | 0x3 => .ok .drive
  | 0x4 => .ok (.gyro e.gz)
  | 0x5 => .ok (.apoll (portTime c e.now))
  | 0x6 => .ok .notify
  | 0x7 => .ok (.cmdRx e.byte)
  | 0x8 => .ok (.bRx e.byte)
  | 0x9 => .ok (.aFill e.byte)
  | 0xA =>
    match Direction.ofCode e.dir with
    | some d => .ok (.setIntent d e.speed)
    | none => .error (.reservedDirection e.dir)
  | 0xB => .ok .estop
  | 0xC => .ok (.arm (if e.ch = 0#1 then .command else .protocolB))
  | 0xD => if e.sel = 0#1 then .ok .bStart else .ok .bStop
  | 0xE => .ok (.imuStatus (decide (e.ok = 1#1)))
  | _ => .ok .fatal

/-- Format CB: every byte is a unit (R85, R86). -/
def decodeCommand (c : Config) (b : Byte) : Instr :=
  match commandDirection c b with
  | some .stop => .cmdStop
  | some .forward => .cmdForward
  | some .backward => .cmdBackward
  | some .left => .cmdLeft
  | some .right => .cmdRight
  | some .uturn => .cmdUturn
  | none => .cmdIgnored b

/-- Format PA: the sync byte, or the five packet bytes behind it (R87, R88). -/
def decodeProtocolA (c : Config) (bytes : List Byte) (now : Nat) : Except DecodeError Instr :=
  match bytes with
  | [b] => if b = c.aSync then .ok (.aSync (portTime c now)) else .error .notProtocolA
  | [b0, b1, b2, b3, b4] => .ok (.aPacket (portTime c now) (APacket.ofBytes b0 b1 b2 b3 b4))
  | _ => .error .notProtocolA

/-- Format PB: a header byte, or a whole frame (R89, R94). A lone byte that would do for both headers (`HDR1 = HDR2`)
is read as the first (log entry 20). -/
def decodeProtocolB (c : Config) (bytes : List Byte) : Except DecodeError Instr :=
  match bytes with
  | [] => .error .notProtocolB
  | [b] =>
    if highNibble b = c.hdr1 then .ok (.bHdr1 (lowNibble b))
    else if highNibble b = c.hdr2 then .ok (.bHdr2 (lowNibble b))
    else .error .notProtocolB
  | b1 :: b2 :: body =>
    if highNibble b1 = c.hdr1 ∧ highNibble b2 = c.hdr2 ∧ body.length = c.bCollectLen then
      .ok (.bFrame (lowNibble b1) (lowNibble b2) body)
    else .error .notProtocolB

/-- Format TX: the two commands the block sends (R92, R93). -/
def decodeTransmitted (bytes : List Byte) : Except DecodeError Instr :=
  if bytes = txStartBytes then .ok .txBStart
  else if bytes = txStopBytes then .ok .txBStop
  else .error .notTransmitted

/-- The instruction a word spells, or why it is not one whole unit. Total on every word; what becomes of a wire word that
is no unit is `fetch`'s to say. -/
def decode (c : Config) : PortWord → Except DecodeError Instr
  | .ev e => decodeEvent c e
  | .cb b => .ok (decodeCommand c b)
  | .pa bytes now => decodeProtocolA c bytes now
  | .pb bytes => decodeProtocolB c bytes
  | .tx bytes => decodeTransmitted bytes

/-! ### The encoder -/

/-- The word of an instruction, from the encodings of R81 and R85 to R93; ports the operation does not read are 0. -/
def encode (c : Config) : Instr → PortWord
  | .reset => .ev { op := 0x0#4 }
  | .mtick now => .ev { op := 0x1#4, now := now }
  | .est encL encR => .ev { op := 0x2#4, encL := encL, encR := encR }
  | .drive => .ev { op := 0x3#4 }
  | .gyro gz => .ev { op := 0x4#4, gz := gz }
  | .apoll now => .ev { op := 0x5#4, now := now }
  | .notify => .ev { op := 0x6#4 }
  | .cmdRx b => .ev { op := 0x7#4, byte := b }
  | .bRx b => .ev { op := 0x8#4, byte := b }
  | .aFill b => .ev { op := 0x9#4, byte := b }
  | .setIntent d speed => .ev { op := 0xA#4, dir := d.code, speed := speed }
  | .estop => .ev { op := 0xB#4 }
  | .arm ch => .ev { op := 0xC#4, ch := ch.code }
  | .bStart => .ev { op := 0xD#4, sel := 0#1 }
  | .bStop => .ev { op := 0xD#4, sel := 1#1 }
  | .imuStatus ok => .ev { op := 0xE#4, ok := BitVec.ofBool ok }
  | .fatal => .ev { op := 0xF#4 }
  | .cmdStop => .cb (commandByte c .stop)
  | .cmdForward => .cb (commandByte c .forward)
  | .cmdBackward => .cb (commandByte c .backward)
  | .cmdLeft => .cb (commandByte c .left)
  | .cmdRight => .cb (commandByte c .right)
  | .cmdUturn => .cb (commandByte c .uturn)
  | .cmdIgnored b => .cb b
  | .aSync now => .pa [c.aSync] now
  | .aPacket now p => .pa p.toBytes now
  | .bHdr1 n => .pb [headerByte c.hdr1 n]
  | .bHdr2 n => .pb [headerByte c.hdr2 n]
  | .bFrame lo hi body => .pb (headerByte c.hdr1 lo :: headerByte c.hdr2 hi :: body)
  | .txBStart => .tx txStartBytes
  | .txBStop => .tx txStopBytes

/-! ### The opcode table's words

The table prints a unit of several bytes with its first byte first and numbers the whole pattern as one number, bit 0
its least significant bit (30_encoding.md R80; the reader's note in spec/98_reader.md). Its words carry no format and no
operand ports; log entry 15 says how the format is found. -/

/-- The `n` bytes of `w`, most significant byte first. -/
def bytesOf : Nat → Nat → List Byte
  | 0, _ => []
  | n + 1, w => BitVec.ofNat 8 (w >>> (8 * n)) :: bytesOf n w

/-- The event word whose operation code is bits 3..0 of `w`, with every operand port 0 but `sel`, which is bit 4. The table
has no bits for the ports, so their values here are a DESIGN CHOICE (log entry 15): 0xE, for one, is IMU_STATUS with `ok`
0, a failed initialisation. -/
def tableEvent (w : Nat) : PortWord := .ev { op := BitVec.ofNat 4 w, sel := BitVec.ofNat 1 (w >>> 4) }

/-- A table word of one byte, at the port or wire of the row it matches: an event code, the stop event of code 0xD, a
command byte, the sync byte, a header byte, or else a byte of the command channel (log entry 15). -/
def tableByte (c : Config) (w : Nat) : PortWord :=
  let b := BitVec.ofNat 8 w
  if w < 16 ∨ w = 0x1D then tableEvent w
  else if (commandDirection c b).isSome then .cb b
  else if b = c.aSync then .pa [b] 0
  else if highNibble b = c.hdr1 ∨ highNibble b = c.hdr2 then .pb [b]
  else .cb b

/-- The word that a row of the opcode table with `nbits` bits and the bits `w` stands for. -/
def tableWord (c : Config) (nbits w : Nat) : PortWord :=
  if nbits ≤ 8 then tableByte c w
  else if nbits = 40 then .pa (bytesOf 5 w) 0
  else if nbits = 72 then .tx (bytesOf 9 w)
  else if nbits = 24 then .tx (bytesOf 3 w)
  else .pb (bytesOf (nbits / 8) w)

/-- The instruction the decoder reads from a word of the opcode table, under the default configuration. -/
def decodeTableWord (nbits w : Nat) : Option Instr :=
  match decode Config.default (tableWord Config.default nbits w) with
  | .ok i => some i
  | .error _ => none

end Sys2Proof
end

