-- ==== Sys2Proof/Machine/State.lean ====
section
/-! DEFINITION. The state of PSC52 as plain data: every register and buffer of spec/10_state.md R23 to R31, each field's
default being its reset value (R37), and what the step function is handed and hands back beside it: the configuration,
the events not taken yet and the records emitted so far (log entries 1, 5, 17). -/

namespace Sys2Proof.Machine

/-- A buffer: the entries that hold a value, by strictly rising index, none equal to what an unlisted entry reads as
(20_memory.md R60, R66). -/
abbrev Memory (α : Type) := List (Nat × α)

/-- MotionState (R23). -/
structure Motion where
  /-- `m_tdir` -/
  tdir : Direction := .stop
  /-- `m_cdir` -/
  cdir : Direction := .stop
  /-- `m_tspeed` -/
  tspeed : Rat := 0
  /-- `m_cspeed` -/
  cspeed : Rat := 0
  /-- `m_last`, ms -/
  last : Nat := 0
deriving DecidableEq, Repr

/-- PIDState, one per wheel (R24). -/
structure PidState where
  setpoint : Rat := 0
  integral : Rat := 0
  /-- `last_error` -/
  lastError : Rat := 0
  output : Rat := 0
deriving DecidableEq, Repr

/-- The wheel-speed registers of one wheel (R25). -/
structure WheelSpeed where
  /-- `w_prev` -/
  prev : Nat := 0
  /-- `w_rpm` -/
  rpm : Rat := 0
deriving DecidableEq, Repr

/-- The two turn trackers (R26). -/
structure Turn where
  /-- `at_active` -/
  atActive : Bool := false
  /-- `at_acc`, degrees -/
  atAcc : Rat := 0
  /-- `at_dir` -/
  atDir : TurnDir := .left
  /-- `ut_active` -/
  utActive : Bool := false
  /-- `ut_acc`, degrees -/
  utAcc : Rat := 0
deriving DecidableEq, Repr

/-- The command interpreter's registers (R27). -/
structure CommandRegs where
  /-- `c_connected` -/
  connected : Bool := false
  /-- `c_announced` -/
  announced : Bool := false
  /-- `c_armed` -/
  armed : Bool := false
deriving DecidableEq, Repr

/-- The Protocol-A registers and the ring (R28). -/
structure ProtocolA where
  /-- `a_buf`: no entry has a value at reset (R37, U4; log entry 8) -/
  buf : List Host.Cell := []
  /-- `a_wr` -/
  wr : Nat := 0
  /-- `a_rd` -/
  rd : Nat := 0
  /-- `a_cycle` -/
  cycle : Bool := false
  /-- `a_inpkt` -/
  inpkt : Bool := false
  /-- `a_idx` -/
  idx : Nat := 0
  /-- `a_pkt` -/
  pkt : Vector Byte 5 := #v[0#8, 0#8, 0#8, 0#8, 0#8]
  /-- `a_last_time`, ms -/
  lastTime : Nat := 0
  /-- `a_last_angle`, degrees -/
  lastAngle : Rat := 0
deriving DecidableEq, Repr

/-- The three values `b_state` takes; the 2-bit code 3 is never held (R29, U2). -/
inductive FramePhase where
  | waitHeader1 | waitHeader2 | collect
deriving DecidableEq, Repr

/-- The Protocol-B registers and buffers (R29). -/
structure ProtocolB where
  /-- `b_armed` -/
  armed : Bool := false
  /-- `b_state` -/
  phase : FramePhase := .waitHeader1
  /-- `b_h1` -/
  h1 : Byte := 0#8
  /-- `b_h2` -/
  h2 : Byte := 0#8
  /-- `b_xor` -/
  xor : Byte := 0#8
  /-- `b_cnt` -/
  cnt : Nat := 0
  /-- `b_buf`: every byte is 0 at reset, so an unlisted entry reads 0 -/
  buf : List Host.Cell := []
  /-- `b_prev_start`, degrees -/
  prevStart : Rat := 0
  /-- `b_samples` -/
  samples : Nat := 0
  /-- `b_work`: no entry has a value at reset (R37, U5; log entry 8) -/
  work : Memory SamplePair := []
  /-- `b_pub`: no entry has a value at reset (R37, U6; log entry 8) -/
  pub : Memory SamplePair := []
deriving DecidableEq, Repr

/-- The four actuator channels (R30). -/
structure Actuators where
  /-- `act.LA` -/
  la : Rat := 0
  /-- `act.LB` -/
  lb : Rat := 0
  /-- `act.RA` -/
  ra : Rat := 0
  /-- `act.RB` -/
  rb : Rat := 0
deriving DecidableEq, Repr

/-- The system status registers (R31). -/
structure SystemRegs where
  halted : Bool := false
  /-- `imu_fault` -/
  imuFault : Bool := false
deriving DecidableEq, Repr

/-- A record of the port `range` (R32). -/
structure RangeReading where
  quality : BitVec 7
  /-- degrees -/
  angle : Rat
  /-- mm -/
  distance : Rat
  start : Bool
  check : Bool
  valid : Bool
deriving DecidableEq, Repr

/-- The strobe of the port `pub`: a new published scan is in `b_pub` (R32). -/
inductive ScanStrobe where
  | newScan
deriving DecidableEq, Repr

/-- A record of the port `tlm` (R32, R269). -/
inductive Telemetry where
  | rate (rpmL rpmR : Rat)
  | angle (acc : Rat)
  | uturn (acc : Rat)
deriving DecidableEq, Repr

/-- A record of the port `note` (R32). -/
inductive Notice where
  | connected
deriving DecidableEq, Repr

/-- The six error paths of 60_exceptions.md R250, in the order of their codes 1 to 6. -/
inductive Condition where
  | bChecksumMismatch | aSyncLoss | aOverrun | aStallTimeout | imuInitFail | fatalConfig
deriving DecidableEq, Repr

/-- The six output streams, each oldest record first (R32; kept in the state, log entry 17). -/
structure Outputs where
  range : List RangeReading := []
  pub : List ScanStrobe := []
  tlm : List Telemetry := []
  note : List Notice := []
  /-- `status`: the record carries the condition's code alone -/
  status : List Condition := []
  /-- `b_tx` -/
  bTx : List Byte := []
deriving DecidableEq, Repr

/-- The whole state (R20), with the configuration, the event stream and the output streams carried beside the
registers. -/
structure State where
  /-- the configuration record, fixed for the life of the block (R7 to R9, U9; log entry 1) -/
  cfg : Config
  motion : Motion := {}
  pid : PerWheel PidState := ⟨{}, {}⟩
  wheel : PerWheel WheelSpeed := ⟨{}, {}⟩
  turn : Turn := {}
  cmd : CommandRegs := {}
  protoA : ProtocolA := {}
  protoB : ProtocolB := {}
  act : Actuators := {}
  sys : SystemRegs := {}
  out : Outputs := {}
  /-- the events and bytes not taken yet, oldest first: one interleaving of the agents (R70; log entry 5) -/
  inbox : List PortWord := []
deriving DecidableEq, Repr

/-- The four buffers and the packet register file, as a fault names them. -/
inductive Buffer where
  | aBuf | aPkt | bBuf | bWork | bPub
deriving DecidableEq, Repr

/-- Why the machine stops with a fault. Both are the model's, both safe: the hardware has no access fault, and neither
can happen from reset (R257, U4, U5). -/
inductive Fault where
  /-- APOLL or the publication read an entry that nothing has written since reset; safe: U4 and U5 ask a model for this
  fault so that the property is proved and not assumed -/
  | unwrittenEntry (buf : Buffer) (index : Nat)
  /-- an operation used an index outside a buffer; safe: no rule does so from a state in the ranges of R28 and R29 (log
  entry 19) -/
  | noSuchEntry (buf : Buffer) (index : Nat)
deriving DecidableEq, Repr

/-- Why a step is refused. -/
inductive Refusal where
  /-- an instruction whose arm gives it no meaning yet; safe; no arm uses it -/
  | notModelled (mnemonic : String)
  /-- the oldest word is a SET_INTENT with the reserved `dir` 6 or 7, which is "refused: it spells no operation" (R84,
  R13, U2); raised by the step, for no other word; safe: the spec gives it no effect -/
  | undecodable (why : DecodeError)
deriving DecidableEq, Repr

/-- The machine with configuration `c` right after reset (R37), with nothing waiting and nothing emitted. -/
def State.initial (c : Config) : State := { cfg := c }

/-- The machine right after reset, under the default configuration (log entry 2). -/
def State.reset : State := State.initial Config.default

end Sys2Proof.Machine
end

