-- ==== Sys2Proof/Machine/Operands.lean ====
section
/-! DEFINITION. The arithmetic every rule uses: `num` operations with the rounding hook, modular and signed counts,
clamping (spec/00_scope.md R10 to R12), and the fields the decoders read. -/

namespace Sys2Proof.Machine

/-- `rnd` (R11): the identity, or the uninterpreted rounding the configuration names. -/
def applyRnd (c : Config) (x : Rat) : Rat :=
  match c.rnd with
  | .exact => x
  | .free k => Config.freeRound k x

/-- `num` addition (R11). -/
def numAdd (c : Config) (x y : Rat) : Rat := applyRnd c (x + y)

/-- `num` subtraction (R11). -/
def numSub (c : Config) (x y : Rat) : Rat := applyRnd c (x - y)

/-- `num` multiplication (R11). -/
def numMul (c : Config) (x y : Rat) : Rat := applyRnd c (x * y)

/-- `num` division (R11). -/
def numDiv (c : Config) (x y : Rat) : Rat := applyRnd c (x / y)

/-- `clamp(v, lo, hi)` (R12). -/
def clamp (v lo hi : Rat) : Rat := if v < lo then lo else if hi < v then hi else v

/-- `mod360(v) = v - 360*floor(v/360)`, in `[0, 360)`; a primitive, so nothing in it is rounded (R12; log entry 4). -/
def mod360 (v : Rat) : Rat := v - 360 * (⌊v / 360⌋ : Rat)

/-- `sub_mod(a, b, M) = (a - b) mod M`, in `0..M-1` (R12). -/
def subMod (a b M : Nat) : Nat := (((a : Int) - (b : Int)) % (M : Int)).toNat

/-- `signed_W(v)`: a W-bit value read as two's complement (R12). -/
def signedW (W v : Nat) : Int := if v < 2 ^ (W - 1) then (v : Int) else (v : Int) - 2 ^ W

/-- The milliseconds from `t` to `now` on a clock of `TIME_BITS` bits (R83). -/
def elapsed (c : Config) (now t : Nat) : Nat := subMod now t (2 ^ c.timeBits)

/-- The signed movement of a pulse counter of `ENC_BITS` bits (R140, R141). -/
def encoderDelta (c : Config) (enc prev : Nat) : Int := signedW c.encBits (subMod enc prev (2 ^ c.encBits))

/-- `delta / PPR * (60 / (SAMPLE_TIME_MS / 1000))` (R140). -/
def rpmOf (c : Config) (delta : Int) : Rat :=
  numMul c (numDiv c (delta : Rat) (c.ppr : Rat)) (numDiv c 60 (numDiv c (c.sampleTimeMs : Rat) 1000))

/-- `dt = SAMPLE_TIME_MS / 1000`, seconds (R150). -/
def sampleSeconds (c : Config) : Rat := numDiv c (c.sampleTimeMs : Rat) 1000

/-- The angle of a Protocol-A packet, degrees (R88). -/
def packetAngle (c : Config) (p : APacket) : Rat := numDiv c (p.angleQ6.toNat : Rat) 64

/-- The distance of a Protocol-A packet, mm (R88). -/
def packetDistance (c : Config) (p : APacket) : Rat := numDiv c (p.distQ2.toNat : Rat) 4

/-- The packet in `a_pkt` (R88). -/
def packetOf (p : Vector Byte 5) : APacket := APacket.ofBytes p[0] p[1] p[2] p[3] p[4]

/-- The start angle of a Protocol-B frame from its start-angle word: the low `B_ANGLE_BITS` bits in 1/64 degree (R91). -/
def startAngle (c : Config) (word : BitVec 16) : Rat := numDiv c ((word.toNat % 2 ^ c.bAngleBits : Nat) : Rat) 64

/-- The angular gap from the previous start angle `old` to `new` (R204). -/
def angleGap (c : Config) (old new : Rat) : Rat :=
  if old < new then numSub c new old else numSub c (numAdd c new 360) old

/-- `angle_x100` of sample `i`: `floor(mod360(old + i*gap/20) * 100)`, kept as u16 (R204; log entry 22). -/
def sampleAngle (c : Config) (old gap : Rat) (i : Nat) : BitVec 16 :=
  let angle := mod360 (numAdd c old (numDiv c (numMul c (i : Rat) gap) (c.bSamplesPerFrame : Rat)))
  BitVec.ofInt 16 ⌊numMul c angle 100⌋

end Sys2Proof.Machine
end

