-- ==== Sys2Proof/Machine/Flags.lean ====
section
/-! DEFINITION. The tests the rules make: the driven states, the gates and time-outs, the completion of a maneuver, the
checks of a packet and of a frame. PSC52 has no condition codes (spec/10_state.md R33); its one-bit registers are written
by the operations, and these are the conditions they write them on. -/

namespace Sys2Proof.Machine

/-- A driven state: FORWARD or BACKWARD (R14, R111). -/
def driven : Direction → Bool
  | .forward | .backward => true
  | .stop | .left | .right | .uturn => false

/-- The gate of MTICK: at least `SPEED_UPDATE_INTERVAL` since `m_last` (R112). -/
def gateOpen (c : Config) (now last : Nat) : Bool := decide (c.speedUpdateInterval ≤ elapsed c now last)

/-- The stall test: more than `LIDAR_TIMEOUT_THRESHOLD` since `a_last_time` (R183). -/
def stalled (c : Config) (now lastTime : Nat) : Bool := decide (c.lidarTimeout < elapsed c now lastTime)

/-- The completion of an ANGLE_TURN, both bounds inclusive (R150, R151). -/
def angleTurnDone (c : Config) (dir : TurnDir) (acc : Rat) : Bool :=
  match dir with
  | .left => decide (c.angleTurnDeg ≤ acc)
  | .right => decide (acc ≤ -c.angleTurnDeg)

/-- `UTURN_DONE` (R152): by magnitude, or signed with the switch `UTURN_SIGNED`. -/
def uturnDone (c : Config) (acc : Rat) : Bool :=
  if c.uturnSigned then decide (c.uTurnDeg ≤ acc) else decide (c.uTurnDeg ≤ |acc|)

/-- The validation of a Protocol-A packet: check bit set, quality above 0, distance in range, both bounds inclusive
(R185). -/
def packetValid (c : Config) (p : APacket) : Bool :=
  decide (p.check = 1#1) && decide (0 < p.quality.toNat)
    && decide (c.minValidDistance ≤ packetDistance c p) && decide (packetDistance c p ≤ c.maxValidDistance)

/-- A reading is emitted when its angle is a step away from the last emitted one, or smaller (R185). -/
def angleMoved (c : Config) (angle lastAngle : Rat) : Bool :=
  decide (c.aAngleStep ≤ |numSub c angle lastAngle|) || decide (angle < lastAngle)

/-- The checksum the two header bytes carry: `((b_h2 << 4) | (b_h1 & 0x0F)) mod 256` (R90). -/
def expectedChecksum (h1 h2 : Byte) : Byte := (h2 <<< 4) ||| (h1 &&& 0x0F#8)

/-- The code of a condition (R250). -/
def Condition.code : Condition → Nat
  | .bChecksumMismatch => 1
  | .aSyncLoss => 2
  | .aOverrun => 3
  | .aStallTimeout => 4
  | .imuInitFail => 5
  | .fatalConfig => 6

/-- Whether a condition appends a record to `status` (R250). -/
def Condition.reported : Condition → Bool
  | .aOverrun | .imuInitFail | .fatalConfig => true
  | .bChecksumMismatch | .aSyncLoss | .aStallTimeout => false

end Sys2Proof.Machine
end

