-- ==== Sys2Proof/Machine/Ops.lean ====
section
/-! DEFINITION. The named operations every family shares: the buffers' reads and writes, the output ports, the error
paths (`raiseCondition`) and the re-arm that ends a handler, and the helpers of spec/40_motion.md and
spec/44_command.md. -/

namespace Sys2Proof.Machine

/-! ### Buffers -/

/-- The value listed for entry `i`, if any. -/
def memFind {α : Type} : Memory α → Nat → Option α
  | [], _ => none
  | (j, v) :: rest, i => if j = i then some v else memFind rest i

/-- The buffer with entry `i` listed as `v`, kept in rising order. -/
def memInsert {α : Type} (i : Nat) (v : α) : Memory α → Memory α
  | [] => [(i, v)]
  | (j, u) :: rest =>
    if i < j then (i, v) :: (j, u) :: rest
    else if i = j then (i, v) :: rest
    else (j, u) :: memInsert i v rest

/-- The buffer with entry `i` not listed. -/
def memErase {α : Type} (i : Nat) : Memory α → Memory α
  | [] => []
  | (j, u) :: rest => if i = j then rest else (j, u) :: memErase i rest

/-- What an unlisted byte of a buffer reads as: 0 in `b_buf`, whose bytes are 0 at reset (R29); no value in `a_buf`,
whose contents are unspecified after reset (R37, U4). -/
def unlistedByte : Buffer → Option Byte
  | .bBuf => some 0#8
  | .aBuf | .aPkt | .bWork | .bPub => none

/-- What an unlisted sample pair reads as: no value (R37, U5, U6). -/
def unlistedPair : Option SamplePair := none

/-- Entry `i` of a buffer: the listed value, or what an unlisted entry reads as. -/
def memGet {α : Type} (unlisted : Option α) (m : Memory α) (i : Nat) : Option α :=
  match memFind m i with
  | some v => some v
  | none => unlisted

/-- The buffer with entry `i` holding `v`, in canonical form. -/
def memSet {α : Type} [DecidableEq α] (unlisted : Option α) (m : Memory α) (i : Nat) (v : α) : Memory α :=
  if unlisted = some v then memErase i m else memInsert i v m

/-- The canonical form of a buffer of `size` entries: indices inside the buffer and strictly rising, no entry listed
with the value an unlisted one reads as. -/
def Memory.wf {α : Type} [DecidableEq α] (unlisted : Option α) (size : Nat) (m : Memory α) : Bool :=
  decide ((m.map Prod.fst).Pairwise (· < ·)) && m.all (fun e => decide (e.1 < size) && decide (unlisted ≠ some e.2))

/-- `MemRead(buf, i)` (R12) on a buffer of `size` entries. -/
def readEntry {α : Type} (buf : Buffer) (size : Nat) (unlisted : Option α) (m : Memory α) (i : Nat) : Except Fault α :=
  if i < size then
    match memGet unlisted m i with
    | some v => .ok v
    | none => .error (.unwrittenEntry buf i)
  else .error (.noSuchEntry buf i)

/-- `MemWrite(buf, i, v)` (R12) on a buffer of `size` entries. -/
def writeEntry {α : Type} [DecidableEq α] (buf : Buffer) (size : Nat) (unlisted : Option α) (m : Memory α) (i : Nat)
    (v : α) : Except Fault (Memory α) :=
  if i < size then .ok (memSet unlisted m i v) else .error (.noSuchEntry buf i)

/-- `MemRead(a_buf, i)`. -/
def readRing (s : State) (i : Nat) : Except Fault Byte :=
  readEntry .aBuf s.cfg.aBufSize (unlistedByte .aBuf) s.protoA.buf i

/-- `MemWrite(a_buf, i, v)`. -/
def writeRing (i : Nat) (v : Byte) (s : State) : Except Fault State :=
  match writeEntry .aBuf s.cfg.aBufSize (unlistedByte .aBuf) s.protoA.buf i v with
  | .ok m => .ok { s with protoA := { s.protoA with buf := m } }
  | .error f => .error f

/-- `a_pkt[i] <- v`, on a file of five bytes (R28). -/
def writePacketByte (i : Nat) (v : Byte) (s : State) : Except Fault State :=
  if h : i < 5 then .ok { s with protoA := { s.protoA with pkt := s.protoA.pkt.set i v h } }
  else .error (.noSuchEntry .aPkt i)

/-- `MemRead(b_buf, i)`. -/
def readFrameByte (s : State) (i : Nat) : Except Fault Byte :=
  readEntry .bBuf s.cfg.bCollectLen (unlistedByte .bBuf) s.protoB.buf i

/-- `MemWrite(b_buf, i, v)`. -/
def writeFrameByte (i : Nat) (v : Byte) (s : State) : Except Fault State :=
  match writeEntry .bBuf s.cfg.bCollectLen (unlistedByte .bBuf) s.protoB.buf i v with
  | .ok m => .ok { s with protoB := { s.protoB with buf := m } }
  | .error f => .error f

/-- `MemRead(b_work, i)`. -/
def readWork (s : State) (i : Nat) : Except Fault SamplePair :=
  readEntry .bWork s.cfg.bWorkCap unlistedPair s.protoB.work i

/-- `MemWrite(b_work, i, v)`. -/
def writeWork (i : Nat) (v : SamplePair) (s : State) : Except Fault State :=
  match writeEntry .bWork s.cfg.bWorkCap unlistedPair s.protoB.work i v with
  | .ok m => .ok { s with protoB := { s.protoB with work := m } }
  | .error f => .error f

/-! ### Output ports: `emit` appends one record (R12, R32) -/

def emitRange (r : RangeReading) (s : State) : State := { s with out := { s.out with range := s.out.range ++ [r] } }

def emitScan (s : State) : State := { s with out := { s.out with pub := s.out.pub ++ [.newScan] } }

def emitTelemetry (r : Telemetry) (s : State) : State := { s with out := { s.out with tlm := s.out.tlm ++ [r] } }

def emitNotice (r : Notice) (s : State) : State := { s with out := { s.out with note := s.out.note ++ [r] } }

def emitStatus (k : Condition) (s : State) : State := { s with out := { s.out with status := s.out.status ++ [k] } }

def emitBytes (bs : List Byte) (s : State) : State := { s with out := { s.out with bTx := s.out.bTx ++ bs } }

/-! ### Error paths -/

/-- The recovery action of a condition (the table of R250; R251 to R256). -/
def recover (k : Condition) (s : State) : State :=
  match k with
  | .bChecksumMismatch => { s with protoB := { s.protoB with phase := .waitHeader1, cnt := 0, xor := 0#8 } }
  | .aSyncLoss => s
  | .aOverrun => { s with protoA := { s.protoA with wr := 0 } }
  | .aStallTimeout => { s with protoA := { s.protoA with inpkt := false, idx := 0 } }
  | .imuInitFail => { s with sys := { s.sys with imuFault := true } }
  | .fatalConfig => { s with sys := { s.sys with halted := true } }

/-- `raise <Condition>` (R12): the condition's recovery action and, where it is reported, its record on `status`. It
saves nothing and transfers control nowhere; there is no return from it (R250, R263). -/
def raiseCondition (k : Condition) (s : State) : State :=
  if k.reported then emitStatus k (recover k s) else recover k s

/-- The armed bit of a channel set: by ARM (R171), and as the last write of every handler, which is all its return is
(R172, R264). -/
def rearm (ch : Channel) (s : State) : State :=
  match ch with
  | .command => { s with cmd := { s.cmd with armed := true } }
  | .protocolB => { s with protoB := { s.protoB with armed := true } }

/-! ### Motion, trackers, actuators -/

/-- `SET_CDIR(d)`: the only way `m_cdir` is written (R111). -/
def setCdir (d : Direction) (s : State) : State :=
  let s := { s with motion := { s.motion with cdir := d } }
  if driven d then s
  else { s with pid := ⟨{ s.pid.l with integral := 0 }, { s.pid.r with integral := 0 }⟩ }

/-- `ACT(w, v)`: one wheel's signed duty on its channel pair (R117). -/
def actuate (w : Wheel) (v : Rat) (s : State) : State :=
  let forward := if 0 < v then v else 0
  let reverse := if v < 0 then -v else 0
  match w with
  | .l => { s with act := { s.act with la := forward, lb := reverse } }
  | .r => { s with act := { s.act with ra := forward, rb := reverse } }

/-- `STOP_ACT` (R117). -/
def stopAct (s : State) : State := { s with act := ⟨0, 0, 0, 0⟩ }

/-- `TURN_ACT(d)`: RIGHT drives the left wheel forward and the right one back, LEFT and UTURN the reverse (R116). It is
called for those three directions only. -/
def turnAct (d : Direction) (s : State) : State :=
  match d with
  | .right => actuate .r (-s.cfg.turnSpeed) (actuate .l s.cfg.turnSpeed s)
  | .left | .uturn => actuate .r s.cfg.turnSpeed (actuate .l (-s.cfg.turnSpeed) s)
  | .stop | .forward | .backward => s

/-- `CLEAR_TRACKERS` (R169). -/
def clearTrackers (s : State) : State :=
  { s with turn := { s.turn with atActive := false, atAcc := 0, utActive := false, utAcc := 0 } }

/-- `FORCE_STOP` (R118). -/
def forceStop (s : State) : State :=
  let s := setCdir .stop { s with motion := { s.motion with tdir := .stop } }
  stopAct { s with motion := { s.motion with tspeed := 0, cspeed := 0 } }

/-- `TURN_SWITCH(d)`: the eager form of the turn row (R169). -/
def turnSwitch (d : Direction) (s : State) : State :=
  let s := setCdir d { s with motion := { s.motion with tdir := d, tspeed := s.cfg.turnSpeed } }
  turnAct d { s with motion := { s.motion with cspeed := s.cfg.turnSpeed } }

/-! ### Outcomes -/

/-- An operation that cannot stop, guarded by `if halted: return` (R234). -/
def runs (op : State → State) (s : State) : Host.Outcome State Fault Refusal :=
  .next (if s.sys.halted then s else op s)

/-- An operation that uses a buffer, guarded by `if halted: return` (R234); a fault stops the machine. -/
def attempts (op : State → Except Fault State) (s : State) : Host.Outcome State Fault Refusal :=
  if s.sys.halted then .next s
  else
    match op s with
    | .ok t => .next t
    | .error f => .fault f

end Sys2Proof.Machine
end

