-- ==== Sys2Proof/Machine/Command.lean ====
section
/-! DEFINITION. The command interpreter: CMD_RX and its seven decoded forms, NOTIFY, ARM (spec/44_command.md).

A row of format CB is run as the arrival of its byte on the command channel, that is as the CMD_RX of that byte (R96:
`CMD c` expands to `CMD_RX byte=0x30+code(c)`; log entry 10). -/

namespace Sys2Proof.Machine

/-- CMD_STOP's own writes (R162). -/
def commandStop (s : State) : State :=
  let s := clearTrackers s
  { s with motion := { s.motion with tdir := .stop, tspeed := 0 } }

/-- CMD_FORWARD's own writes (R163). -/
def commandForward (s : State) : State :=
  let s := clearTrackers s
  { s with motion := { s.motion with tdir := .forward, tspeed := s.cfg.maxSpeed } }

/-- CMD_BACKWARD's own writes (R164). -/
def commandBackward (s : State) : State :=
  let s := clearTrackers s
  { s with motion := { s.motion with tdir := .backward, tspeed := s.cfg.maxSpeed } }

/-- CMD_LEFT's own writes: the ANGLE_TURN tracker restarted, then the eager switch (R165). -/
def commandLeft (s : State) : State :=
  turnSwitch .left { s with turn := { s.turn with atActive := true, atAcc := 0, atDir := .left } }

/-- CMD_RIGHT's own writes (R166). -/
def commandRight (s : State) : State :=
  turnSwitch .right { s with turn := { s.turn with atActive := true, atAcc := 0, atDir := .right } }

/-- CMD_UTURN's own writes; the ANGLE_TURN tracker is not touched (R167). -/
def commandUturn (s : State) : State :=
  turnSwitch .uturn { s with turn := { s.turn with utActive := true, utAcc := 0 } }

/-- What a byte of the command channel does (R161; the decoding of format CB, R85, R86; an ignored byte does nothing,
R168). -/
def commandBody (byte : Byte) (s : State) : State :=
  match commandDirection s.cfg byte with
  | some .stop => commandStop s
  | some .forward => commandForward s
  | some .backward => commandBackward s
  | some .left => commandLeft s
  | some .right => commandRight s
  | some .uturn => commandUturn s
  | none => s

/-- The handler around a command's own writes, past its `halted` test: a byte at an unarmed channel is dropped; an
accepted one disarms, latches the connected flag, acts and re-arms (R161, R172). -/
def acceptCommand (body : State → State) (s : State) : State :=
  if s.cmd.armed then
    rearm .command (body { s with cmd := { s.cmd with armed := false, connected := true } })
  else s

/-- The one notification of a connection (R170). -/
def announce (s : State) : State :=
  if s.cmd.connected && !s.cmd.announced then
    emitNotice .connected { s with cmd := { s.cmd with announced := true } }
  else s

/-- CMD_RX `byte` (R161). -/
def execCmdRx (byte : Byte) (s : State) : Host.Outcome State Fault Refusal := runs (acceptCommand (commandBody byte)) s

/-- NOTIFY (R170). -/
def execNotify (s : State) : Host.Outcome State Fault Refusal := runs announce s

/-- ARM `ch` (R171). -/
def execArm (ch : Channel) (s : State) : Host.Outcome State Fault Refusal := runs (rearm ch) s

/-- The byte CMD_STOP on the command channel (R162). -/
def execCmdStop (s : State) : Host.Outcome State Fault Refusal := runs (acceptCommand commandStop) s

/-- The byte CMD_FORWARD on the command channel (R163). -/
def execCmdForward (s : State) : Host.Outcome State Fault Refusal := runs (acceptCommand commandForward) s

/-- The byte CMD_BACKWARD on the command channel (R164). -/
def execCmdBackward (s : State) : Host.Outcome State Fault Refusal := runs (acceptCommand commandBackward) s

/-- The byte CMD_LEFT on the command channel (R165). -/
def execCmdLeft (s : State) : Host.Outcome State Fault Refusal := runs (acceptCommand commandLeft) s

/-- The byte CMD_RIGHT on the command channel (R166). -/
def execCmdRight (s : State) : Host.Outcome State Fault Refusal := runs (acceptCommand commandRight) s

/-- The byte CMD_UTURN on the command channel (R167). -/
def execCmdUturn (s : State) : Host.Outcome State Fault Refusal := runs (acceptCommand commandUturn) s

/-- Any other byte on the command channel: received and ignored, yet it latches the connected flag and re-arms (R168). -/
def execCmdIgnored (_byte : Byte) (s : State) : Host.Outcome State Fault Refusal := runs (acceptCommand id) s

end Sys2Proof.Machine
end

