-- ==== Sys2Proof/Machine/Motion.lean ====
section
/-! DEFINITION. The motion state machine, the ramp generator, the PID controller and actuator emission: SET_INTENT,
MTICK, DRIVE, ESTOP (spec/40_motion.md, spec/41_pid.md). -/

namespace Sys2Proof.Machine

/-- `RAMP_STEP`: one step toward `m_tspeed`, never past it (R114). -/
def rampStep (s : State) : State :=
  let m := s.motion
  if m.cspeed < m.tspeed then
    { s with motion := { m with cspeed := min m.tspeed (numAdd s.cfg m.cspeed s.cfg.speedStep) } }
  else if m.tspeed < m.cspeed then
    { s with motion := { m with cspeed := max m.tspeed (numSub s.cfg m.cspeed s.cfg.speedStep) } }
  else s

/-- The row LEFT/RIGHT/UTURN of the direction step: an immediate switch at `TURN_SPEED` (R113). -/
def switchToTurn (d : Direction) (s : State) : State :=
  let s := setCdir d s
  { s with motion := { s.motion with tspeed := s.cfg.turnSpeed, cspeed := s.cfg.turnSpeed } }

/-- The row FORWARD/BACKWARD of the direction step: from STOP or a driven direction only; during a turn nothing happens
(R113, R296). -/
def switchToDriven (d : Direction) (s : State) : State :=
  match s.motion.cdir with
  | .stop | .forward | .backward =>
    let s := setCdir d s
    rampStep { s with motion := { s.motion with tspeed := s.cfg.maxSpeed } }
  | .left | .right | .uturn => s

/-- The row STOP of the direction step: ramp down and commit STOP when the speed is 0 (R113). -/
def rampToStop (s : State) : State :=
  let v := max 0 (numSub s.cfg s.motion.cspeed s.cfg.speedStep)
  let s := { s with motion := { s.motion with cspeed := v } }
  if v = 0 then setCdir .stop s else s

/-- `DIRECTION_STEP`, taken when `m_tdir != m_cdir` (R113). -/
def directionStep (s : State) : State :=
  match s.motion.tdir with
  | .forward => switchToDriven .forward s
  | .backward => switchToDriven .backward s
  | .left => switchToTurn .left s
  | .right => switchToTurn .right s
  | .uturn => switchToTurn .uturn s
  | .stop => rampToStop s

/-- MTICK past its `halted` test: the gate, then one of three branches chosen on the entry values (R112). -/
def motionTick (now : Nat) (s : State) : State :=
  if gateOpen s.cfg now s.motion.last then
    let t := { s with motion := { s.motion with last := now } }
    if s.motion.tdir ≠ s.motion.cdir then directionStep t
    else if s.motion.cdir ≠ .stop then rampStep t
    else t
  else s

/-- `PID_COMPUTE(w, measured)` (R130): the three registers it writes; its result is the new `output`. -/
def pidCompute (w : Wheel) (measured : Rat) (s : State) : State :=
  let c := s.cfg
  let p := s.pid.get w
  let error := numSub c p.setpoint measured
  let integral := numAdd c p.integral error
  let derivative := numSub c error p.lastError
  let raw :=
    numAdd c (numAdd c (numMul c (c.kp.get w) error) (numMul c (c.ki.get w) integral)) (numMul c (c.kd.get w) derivative)
  { s with
    pid := s.pid.set w { p with integral := integral, lastError := error, output := clamp raw 0 c.maxSpeed } }

/-- One wheel of DRIVE in a driven state: the setpoint is the ramped speed, the measurement the magnitude of the wheel's
rate, and the direction's sign is applied to the result (R115, R131). -/
def driveWheel (sign : Rat) (w : Wheel) (s : State) : State :=
  let s := { s with pid := s.pid.set w { s.pid.get w with setpoint := s.motion.cspeed } }
  let s := pidCompute w |(s.wheel.get w).rpm| s
  actuate w (numMul s.cfg sign (s.pid.get w).output) s

/-- Both integrals zeroed, as DRIVE does in a state that is not driven (R115). -/
def zeroIntegrals (s : State) : State :=
  { s with pid := ⟨{ s.pid.l with integral := 0 }, { s.pid.r with integral := 0 }⟩ }

/-- DRIVE past its `halted` test (R115). -/
def driveActuators (s : State) : State :=
  match s.motion.cdir with
  | .forward => driveWheel 1 .r (driveWheel 1 .l s)
  | .backward => driveWheel (-1) .r (driveWheel (-1) .l s)
  | .left => turnAct .left (zeroIntegrals s)
  | .right => turnAct .right (zeroIntegrals s)
  | .uturn => turnAct .uturn (zeroIntegrals s)
  | .stop => stopAct (zeroIntegrals s)

/-- The intent SET_INTENT records: target direction and clamped target speed, nothing else (R110). -/
def recordIntent (dir : Direction) (speed : Rat) (s : State) : State :=
  { s with motion := { s.motion with tdir := dir, tspeed := clamp speed 0 s.cfg.maxSpeed } }

/-- SET_INTENT `dir`, `speed` (R110). -/
def execSetIntent (dir : Direction) (speed : Rat) (s : State) : Host.Outcome State Fault Refusal :=
  runs (recordIntent dir speed) s

/-- MTICK `now` (R112 to R114, R120). -/
def execMtick (now : Nat) (s : State) : Host.Outcome State Fault Refusal := runs (motionTick now) s

/-- DRIVE (R115). -/
def execDrive (s : State) : Host.Outcome State Fault Refusal := runs driveActuators s

/-- ESTOP past its `halted` test: both trackers cleared, then FORCE_STOP (R119). -/
def emergencyStop (s : State) : State := forceStop (clearTrackers s)

/-- ESTOP (R119). -/
def execEstop (s : State) : Host.Outcome State Fault Refusal := runs emergencyStop s

end Sys2Proof.Machine
end

