-- ==== Sys2Proof/Machine/ProtocolA.lean ====
section
/-! DEFINITION. Protocol A: the filler (A_FILL), the poll (APOLL) and the byte assembly with its wire units A_SYNC and
A_PACKET (spec/45_protocol_a.md).

A wire unit is run as its bytes handed, in order, to the byte assembly at one poll time, with no stall check before them:
that check is APOLL's alone (R181, R183, R254), and that these units make none is a DESIGN CHOICE (log entry 11). -/

namespace Sys2Proof.Machine

/-- A_FILL past its `halted` test: the byte first, the cursor second, the cycle flag on a wrap (R180). -/
def fillByte (byte : Byte) (s : State) : Except Fault State := do
  let s ← writeRing s.protoA.wr byte s
  let wr := (s.protoA.wr + 1) % s.cfg.aBufSize
  .ok { s with protoA := { s.protoA with wr := wr, cycle := s.protoA.cycle || decide (wr = 0) } }

/-- `OVERRUN_CHECK`: each completed fill cycle is examined once (R186, R253). -/
def overrunCheck (s : State) : Except Fault State :=
  if s.protoA.cycle then do
    let s := { s with protoA := { s.protoA with cycle := false } }
    let b ← readRing s 0
    if b = s.cfg.aSync then .ok (raiseCondition .aOverrun s) else .ok s
  else .ok s

/-- `STALL_CHECK(now)` (R183, R254). -/
def stallCheck (now : Nat) (s : State) : State :=
  if s.protoA.inpkt && stalled s.cfg now s.protoA.lastTime then raiseCondition .aStallTimeout s else s

/-- `A_DECODE`: validation, then emission unless the reading is a near-duplicate of the last emitted one (R185). -/
def decodePacket (p : APacket) (s : State) : State :=
  let angle := packetAngle s.cfg p
  if packetValid s.cfg p && angleMoved s.cfg angle s.protoA.lastAngle then
    let s := emitRange { quality := p.quality, angle := angle, distance := packetDistance s.cfg p,
                         start := decide (p.start = 1#1), check := decide (p.check = 1#1), valid := true } s
    { s with protoA := { s.protoA with lastAngle := angle } }
  else s

/-- The branch of `A_BYTE` that hunts for a sync byte; any other byte is a silent sync loss (R184, R188). -/
def huntSync (b : Byte) (now : Nat) (s : State) : Except Fault State :=
  if b = s.cfg.aSync then
    let s := { s with protoA := { s.protoA with inpkt := true, lastTime := now } }
    if s.cfg.aSyncStored then do
      let s ← writePacketByte 0 b s
      .ok { s with protoA := { s.protoA with idx := 1 } }
    else .ok { s with protoA := { s.protoA with idx := 0 } }
  else .ok (raiseCondition .aSyncLoss s)

/-- The branch of `A_BYTE` that takes a packet byte, whatever its value; the last one decodes the packet (R184). -/
def takePacketByte (b : Byte) (now : Nat) (s : State) : Except Fault State := do
  let s ← writePacketByte s.protoA.idx b s
  let s := { s with protoA := { s.protoA with idx := s.protoA.idx + 1, lastTime := now } }
  if s.protoA.idx = s.cfg.aPktLen then
    .ok (decodePacket (packetOf s.protoA.pkt) { s with protoA := { s.protoA with inpkt := false, idx := 0 } })
  else .ok s

/-- `A_BYTE(b, now)` (R184). -/
def assembleByte (b : Byte) (now : Nat) (s : State) : Except Fault State :=
  if s.protoA.inpkt then takePacketByte b now s else huntSync b now s

/-- The walk of APOLL over `n` new bytes: read, advance the cursor modulo `N`, assemble (R181, R182). -/
def walkRing (now : Nat) : Nat → State → Except Fault State
  | 0, s => .ok s
  | n + 1, s => do
    let b ← readRing s s.protoA.rd
    let s ← assembleByte b now { s with protoA := { s.protoA with rd := (s.protoA.rd + 1) % s.cfg.aBufSize } }
    walkRing now n s

/-- APOLL past its `halted` test: overrun check, stall check, then the walk up to the cursor value read once (R181). -/
def pollRing (now : Nat) (s : State) : Except Fault State := do
  let s ← overrunCheck s
  let s := stallCheck now s
  walkRing now (subMod s.protoA.wr s.protoA.rd s.cfg.aBufSize) s

/-- Bytes handed to the assembly one after another, at one poll time. -/
def assembleBytes (now : Nat) : List Byte → State → Except Fault State
  | [], s => .ok s
  | b :: bs, s => do
    let s ← assembleByte b now s
    assembleBytes now bs s

/-- A byte at the assembly that is no unit by itself: outside a packet it is discarded, inside one it is data (R94, R95,
R184; log entry 31). No stall check comes before it (DESIGN CHOICE, log entry 31). -/
def receiveStrayByte (b : Byte) (now : Nat) (s : State) : Host.Outcome State Fault Refusal :=
  attempts (assembleByte b now) s

/-- A_FILL `byte` (R180). -/
def execAFill (byte : Byte) (s : State) : Host.Outcome State Fault Refusal := attempts (fillByte byte) s

/-- APOLL `now` (R181). -/
def execApoll (now : Nat) (s : State) : Host.Outcome State Fault Refusal := attempts (pollRing now) s

/-- A_SYNC: the sync byte at the assembly; while a packet is being assembled it is data (R184), however old the packet is:
no stall check comes before it (DESIGN CHOICE, log entry 11). -/
def execASync (now : Nat) (s : State) : Host.Outcome State Fault Refusal :=
  attempts (assembleByte s.cfg.aSync now) s

/-- A_PACKET: the five packet bytes at the assembly (R184, R185), with no stall check before them (DESIGN CHOICE, log
entry 11). -/
def execAPacket (now : Nat) (p : APacket) (s : State) : Host.Outcome State Fault Refusal :=
  attempts (assembleBytes now p.toBytes) s

end Sys2Proof.Machine
end

