-- ==== Sys2Proof/Machine/ProtocolB.lean ====
section
/-! DEFINITION. Protocol B: the frame state machine (B_RX and its wire units B_HDR1, B_HDR2, B_FRAME), extraction and
publication, the commands the block sends (B_START, B_STOP, TX_B_START, TX_B_STOP) and the external read of the published
scan (spec/46_protocol_b.md).

A wire unit of format PB is run as its bytes received in order by B_RX, one after another (R96: `BFRAME`; log entry 12).
A wire unit of format TX is run as its emission (log entry 13). -/

namespace Sys2Proof.Machine

/-- Sample `i` of a frame into the working buffer: its angle on the arc from the previous start angle, its distance as
received (R204, R91). -/
def writeSample (old gap : Rat) (i : Nat) (s : State) : Except Fault State := do
  let o := s.cfg.bPayloadOffset
  let lo ← readFrameByte s (o + 2 + 2 * i)
  let hi ← readFrameByte s (o + 3 + 2 * i)
  writeWork (s.protoB.samples + i) (sampleAngle s.cfg old gap i, u16le lo hi) s

/-- The samples from number `i` on, `n` of them. -/
def writeSamples (old gap : Rat) : Nat → Nat → State → Except Fault State
  | 0, _, s => .ok s
  | n + 1, i, s => do
    let s ← writeSample old gap i s
    writeSamples old gap n (i + 1) s

/-- Entries `k`, `k+1`, … of the working buffer, `n` of them, as the published buffer lists them. -/
def scanEntries (s : State) : Nat → Nat → Except Fault (Memory SamplePair)
  | 0, _ => .ok []
  | n + 1, k => do
    let v ← readWork s k
    let rest ← scanEntries s n (k + 1)
    .ok ((k, v) :: rest)

/-- `B_PUBLISH_CHECK`: past the threshold, the whole published buffer is replaced in one copy (R206, R64). -/
def publishCheck (s : State) : Except Fault State :=
  if s.cfg.bPublishThreshold < s.protoB.samples then do
    let scan ← scanEntries s s.cfg.bPublishLen 0
    .ok (emitScan { s with protoB := { s.protoB with pub := scan, samples := 0 } })
  else .ok s

/-- `B_EXTRACT` (R204). -/
def extractFrame (s : State) : Except Fault State := do
  let o := s.cfg.bPayloadOffset
  let lo ← readFrameByte s o
  let hi ← readFrameByte s (o + 1)
  let old := s.protoB.prevStart
  let new := startAngle s.cfg (u16le lo hi)
  let s ← writeSamples old (angleGap s.cfg old new) s.cfg.bSamplesPerFrame 0 s
  publishCheck
    { s with protoB := { s.protoB with prevStart := new, samples := s.protoB.samples + s.cfg.bSamplesPerFrame } }

/-- What the checksum of a whole frame decides: extraction, or the silent drop (R203, R251). -/
def checkFrame (s : State) : Except Fault State :=
  if s.protoB.xor = expectedChecksum s.protoB.h1 s.protoB.h2 then extractFrame s
  else .ok (raiseCondition .bChecksumMismatch s)

/-- `B_COMPLETE`: the frame is extracted or dropped; the frame state resets either way (R203). -/
def completeFrame (s : State) : Except Fault State := do
  let s ← checkFrame s
  .ok { s with protoB := { s.protoB with phase := .waitHeader1, cnt := 0, xor := 0#8 } }

/-- A byte in COLLECT: the first seeds the checksum, every later one is XORed into it; the last one completes the frame
(R202). -/
def collectByte (byte : Byte) (s : State) : Except Fault State := do
  let sum := if s.protoB.cnt = 0 then byte else s.protoB.xor ^^^ byte
  let s ← writeFrameByte s.protoB.cnt byte s
  let s := { s with protoB := { s.protoB with xor := sum, cnt := s.protoB.cnt + 1 } }
  if s.protoB.cnt = s.cfg.bCollectLen then completeFrame s else .ok s

/-- `B_STEP(byte)` (R202). -/
def frameStep (byte : Byte) (s : State) : Except Fault State :=
  match s.protoB.phase with
  | .waitHeader1 =>
    if highNibble byte = s.cfg.hdr1 then
      .ok { s with protoB := { s.protoB with h1 := byte, phase := .waitHeader2 } }
    else .ok s
  | .waitHeader2 =>
    if highNibble byte = s.cfg.hdr2 then
      .ok { s with protoB := { s.protoB with h2 := byte, phase := .collect, cnt := 0, xor := 0#8 } }
    else .ok { s with protoB := { s.protoB with phase := .waitHeader1 } }
  | .collect => collectByte byte s

/-- B_RX past its `halted` test: a byte at an unarmed channel is dropped; an accepted one disarms, steps the frame state
machine and re-arms (R201, R172). -/
def receiveFrameByte (byte : Byte) (s : State) : Except Fault State :=
  if s.protoB.armed then do
    let s ← frameStep byte { s with protoB := { s.protoB with armed := false } }
    .ok (rearm .protocolB s)
  else .ok s

/-- Bytes received one after another on Protocol B's channel. -/
def receiveFrameBytes : List Byte → State → Except Fault State
  | [], s => .ok s
  | b :: bs, s => do
    let s ← receiveFrameByte b s
    receiveFrameBytes bs s

/-- A read of entry `k` of the published scan by the external consumer (R209); it changes nothing (R65). Before the first
publication the entry has no value and the `draw`-th such read returns any value (U6; log entry 9). -/
def readPub (s : State) (draw k : Nat) : Except Fault SamplePair :=
  if k < s.cfg.bPublishLen then
    match memGet unlistedPair s.protoB.pub k with
    | some v => .ok v
    | none => .ok (Config.freeSample draw)
  else .error (.noSuchEntry .bPub k)

/-- B_RX `byte` (R201). -/
def execBRx (byte : Byte) (s : State) : Host.Outcome State Fault Refusal := attempts (receiveFrameByte byte) s

/-- B_START: nine bytes on `b_tx`, no other change (R210). -/
def execBStart (s : State) : Host.Outcome State Fault Refusal := runs (emitBytes txStartBytes) s

/-- B_STOP: three bytes on `b_tx`, no other change (R211). -/
def execBStop (s : State) : Host.Outcome State Fault Refusal := runs (emitBytes txStopBytes) s

/-- B_HDR1: a byte with high nibble `HDR1` on Protocol B's channel (R202). -/
def execBHdr1 (c : BitVec 4) (s : State) : Host.Outcome State Fault Refusal :=
  attempts (receiveFrameByte (headerByte s.cfg.hdr1 c)) s

/-- B_HDR2: a byte with high nibble `HDR2` on Protocol B's channel (R202). -/
def execBHdr2 (c : BitVec 4) (s : State) : Host.Outcome State Fault Refusal :=
  attempts (receiveFrameByte (headerByte s.cfg.hdr2 c)) s

/-- B_FRAME: the two header bytes and the collected bytes on Protocol B's channel (R202 to R206). -/
def execBFrame (cLow cHigh : BitVec 4) (body : List Byte) (s : State) : Host.Outcome State Fault Refusal :=
  attempts (receiveFrameBytes (headerByte s.cfg.hdr1 cLow :: headerByte s.cfg.hdr2 cHigh :: body)) s

/-- TX_B_START: the start command leaves the block (R92, R210). -/
def execTxBStart (s : State) : Host.Outcome State Fault Refusal := runs (emitBytes txStartBytes) s

/-- TX_B_STOP: the stop command leaves the block (R93, R211). -/
def execTxBStop (s : State) : Host.Outcome State Fault Refusal := runs (emitBytes txStopBytes) s

end Sys2Proof.Machine
end

