-- ==== Sys2Proof/Machine/System.lean ====
section
/-! DEFINITION. The system operations: RESET, FATAL, IMU_STATUS (spec/47_system.md). -/

namespace Sys2Proof.Machine

/-- Every register and buffer at its reset value (R230, R37); the configuration, what was emitted and what is still to
come are not registers and stay (log entries 1, 5, 17). -/
def resetRegisters (s : State) : State := { State.initial s.cfg with out := s.out, inbox := s.inbox }

/-- The report of the inertial sensor's initialisation: a failure is reported once (R233, R255). -/
def reportImu (ok : Bool) (s : State) : State :=
  if !ok && !s.sys.imuFault then raiseCondition .imuInitFail s else s

/-- RESET: the one operation that acts when halted (R230). -/
def execReset (s : State) : Host.Outcome State Fault Refusal := .next (resetRegisters s)

/-- FATAL (R232, R256). -/
def execFatal (s : State) : Host.Outcome State Fault Refusal := runs (raiseCondition .fatalConfig) s

/-- IMU_STATUS `ok` (R233). -/
def execImuStatus (ok : Bool) (s : State) : Host.Outcome State Fault Refusal := runs (reportImu ok) s

end Sys2Proof.Machine
end

