-- ==== Sys2Proof/Machine/TurnTracker.lean ====
section
/-! DEFINITION. The gyroscope integrator: GYRO over the two independent trackers (spec/43_turn_tracker.md). -/

namespace Sys2Proof.Machine

/-- The ANGLE_TURN tracker's update: only while it is active; the record carries the new accumulator (R150, R157). -/
def integrateAngleTurn (gz : Rat) (s : State) : State :=
  if s.turn.atActive then
    let acc := numAdd s.cfg s.turn.atAcc (numMul s.cfg gz (sampleSeconds s.cfg))
    emitTelemetry (.angle acc) { s with turn := { s.turn with atAcc := acc } }
  else s

/-- The U_TURN tracker's update: only while it is active, whatever the other tracker does (R150, R154). -/
def integrateUturn (gz : Rat) (s : State) : State :=
  if s.turn.utActive then
    let acc := numAdd s.cfg s.turn.utAcc (numMul s.cfg gz (sampleSeconds s.cfg))
    emitTelemetry (.uturn acc) { s with turn := { s.turn with utAcc := acc } }
  else s

/-- An active tracker has reached its bound (R151, R152). -/
def maneuverDone (s : State) : Bool :=
  (s.turn.atActive && angleTurnDone s.cfg s.turn.atDir s.turn.atAcc)
    || (s.turn.utActive && uturnDone s.cfg s.turn.utAcc)

/-- GYRO past its `halted` test: both updates, then one stop sequence if either tracker is done, which clears both
(R150, R155). -/
def trackTurns (gz : Rat) (s : State) : State :=
  let t := integrateUturn gz (integrateAngleTurn gz s)
  if maneuverDone t then forceStop (clearTrackers t) else t

/-- GYRO `gz` (R150). -/
def execGyro (gz : Rat) (s : State) : Host.Outcome State Fault Refusal := runs (trackTurns gz) s

end Sys2Proof.Machine
end

