-- ==== Sys2Proof/Machine/WheelSpeed.lean ====
section
/-! DEFINITION. The wheel-speed estimator: EST (spec/42_wheel_speed.md). -/

namespace Sys2Proof.Machine

/-- One wheel's sample: the signed movement since the last one, as a rate; the counter is remembered (R140). -/
def wheelSample (c : Config) (enc : Nat) (old : WheelSpeed) : WheelSpeed :=
  { prev := enc, rpm := rpmOf c (encoderDelta c enc old.prev) }

/-- EST past its `halted` test: both wheels, then the telemetry record with both rates (R140). -/
def estimateSpeeds (encL encR : Nat) (s : State) : State :=
  let l := wheelSample s.cfg encL s.wheel.l
  let r := wheelSample s.cfg encR s.wheel.r
  emitTelemetry (.rate l.rpm r.rpm) { s with wheel := ⟨l, r⟩ }

/-- EST `enc_l`, `enc_r` (R140). -/
def execEst (encL encR : Nat) (s : State) : Host.Outcome State Fault Refusal := runs (estimateSpeeds encL encR) s

end Sys2Proof.Machine
end

