-- ==== Sys2Proof/Machine/Dispatch.lean ====
section
/-! DEFINITION. What an instruction does: one arm per constructor of `Instr`, one direct call of its meaning. -/

namespace Sys2Proof.Machine

def exec (i : Instr) (s : State) : Host.Outcome State Fault Refusal :=
  match i with
  | .reset => Sys2Proof.Machine.execReset s
  | .mtick now => Sys2Proof.Machine.execMtick now s
  | .est encL encR => Sys2Proof.Machine.execEst encL encR s
  | .drive => Sys2Proof.Machine.execDrive s
  | .gyro gz => Sys2Proof.Machine.execGyro gz s
  | .apoll now => Sys2Proof.Machine.execApoll now s
  | .notify => Sys2Proof.Machine.execNotify s
  | .cmdRx byte => Sys2Proof.Machine.execCmdRx byte s
  | .bRx byte => Sys2Proof.Machine.execBRx byte s
  | .aFill byte => Sys2Proof.Machine.execAFill byte s
  | .setIntent dir speed => Sys2Proof.Machine.execSetIntent dir speed s
  | .estop => Sys2Proof.Machine.execEstop s
  | .arm ch => Sys2Proof.Machine.execArm ch s
  | .bStart => Sys2Proof.Machine.execBStart s
  | .bStop => Sys2Proof.Machine.execBStop s
  | .imuStatus ok => Sys2Proof.Machine.execImuStatus ok s
  | .fatal => Sys2Proof.Machine.execFatal s
  | .cmdStop => Sys2Proof.Machine.execCmdStop s
  | .cmdForward => Sys2Proof.Machine.execCmdForward s
  | .cmdBackward => Sys2Proof.Machine.execCmdBackward s
  | .cmdLeft => Sys2Proof.Machine.execCmdLeft s
  | .cmdRight => Sys2Proof.Machine.execCmdRight s
  | .cmdUturn => Sys2Proof.Machine.execCmdUturn s
  | .cmdIgnored byte => Sys2Proof.Machine.execCmdIgnored byte s
  | .aSync now => Sys2Proof.Machine.execASync now s
  | .aPacket now p => Sys2Proof.Machine.execAPacket now p s
  | .bHdr1 c => Sys2Proof.Machine.execBHdr1 c s
  | .bHdr2 c => Sys2Proof.Machine.execBHdr2 c s
  | .bFrame cLow cHigh body => Sys2Proof.Machine.execBFrame cLow cHigh body s
  | .txBStart => Sys2Proof.Machine.execTxBStart s
  | .txBStop => Sys2Proof.Machine.execTxBStop s

end Sys2Proof.Machine
end

