-- ==== Sys2Proof/Machine/Fetch.lean ====
section
/-! DEFINITION. How the block takes its next event: the oldest word of `inbox` is taken off and decoded
(spec/30_encoding.md R81; spec/20_memory.md R70; log entry 5). No word of a wire format is refused (R95): the bytes of one
that is no unit are taken one at a time, each as the byte it is, and the rest of them wait (R94; log entry 31). -/

namespace Sys2Proof.Machine

/-- What is there to do. -/
inductive Fetched where
  /-- nothing is waiting -/
  | idle
  /-- an instruction, and the state with its word taken off -/
  | unit (i : Instr) (s : State)
  /-- a byte for the Protocol-A assembly that starts no packet, and the state with it taken off -/
  | stray (b : Byte) (now : Nat) (s : State)
  /-- a word with nothing in it for the block, and the state with it taken off -/
  | nothing (s : State)
  /-- an event word with a reserved field value (R84) -/
  | rejected (why : DecodeError)
deriving DecidableEq, Repr

/-- The words still waiting when the bytes `bs` of a word remain: those bytes as a word of the same wire, if there are any. -/
def putBack (word : List Byte → PortWord) (bs : List Byte) (rest : List PortWord) : List PortWord :=
  if bs.isEmpty then rest else word bs :: rest

/-- The first byte of a Protocol-A word that is no unit: a sync byte is A_SYNC, any other byte is a stray byte at the
assembly (R94, R184). -/
def fetchProtocolA (bytes : List Byte) (now : Nat) (rest : List PortWord) (s : State) : Fetched :=
  match bytes with
  | [] => .nothing { s with inbox := rest }
  | b :: bs =>
    if b = s.cfg.aSync then .unit (.aSync (portTime s.cfg now)) { s with inbox := putBack (.pa · now) bs rest }
    else .stray b (portTime s.cfg now) { s with inbox := putBack (.pa · now) bs rest }

/-- The first byte of a Protocol-B word that is no unit: a byte received on the channel is a B_RX (R94, R200). -/
def fetchProtocolB (bytes : List Byte) (rest : List PortWord) (s : State) : Fetched :=
  match bytes with
  | [] => .nothing { s with inbox := rest }
  | b :: bs => .unit (.bRx b) { s with inbox := putBack .pb bs rest }

/-- A word that spells no single instruction: an event word with a reserved field is rejected (R84); a wire word gives its
first byte; bytes that the block does not send are nothing to it (R95; log entry 31). -/
def fetchPiece (why : DecodeError) (w : PortWord) (rest : List PortWord) (s : State) : Fetched :=
  match w with
  | .ev _ => .rejected why
  | .cb _ | .tx _ => .nothing { s with inbox := rest }
  | .pa bytes now => fetchProtocolA bytes now rest s
  | .pb bytes => fetchProtocolB bytes rest s

/-- The oldest waiting word, decoded. -/
def fetch (s : State) : Fetched :=
  match s.inbox with
  | [] => .idle
  | w :: rest =>
    match decode s.cfg w with
    | .ok i => .unit i { s with inbox := rest }
    | .error why => fetchPiece why w rest s

/-- The state with `w` waiting in front of everything else. -/
def placeNext (w : PortWord) (s : State) : State := { s with inbox := w :: s.inbox }

end Sys2Proof.Machine
end

