-- ==== Sys2Proof/Machine/Step.lean ====
section
/-! DEFINITION. One step: take the oldest waiting word and do what it spells; with nothing waiting, nothing changes
(spec/70_reset_and_hazards.md R281; log entry 5). -/

namespace Sys2Proof.Machine

/-- One step of the machine. -/
def step (s : State) : Host.Outcome State Fault Refusal :=
  match fetch s with
  | .idle => .next s
  | .unit i t => exec i t
  | .stray b now t => receiveStrayByte b now t
  | .nothing t => .next t
  | .rejected why => .refused (.undecodable why)

/-- `s` with the instruction of an opcode-table word of `nbits` bits waiting in front of everything else, so that the
next step takes exactly it (log entries 5, 15). -/
def State.withFetchWord (s : State) (nbits w : Nat) : State := placeNext (tableWord s.cfg nbits w) s

end Sys2Proof.Machine
end

