-- ==== Sys2Proof/Machine/Trace.lean ====
section
/-! DEFINITION. The pseudo-operations of spec/30_encoding.md R96 and spec/47_system.md R235 as the events they expand to:
SAMPLE, CMD, FILL, BFRAME; and who issues which operation (spec/00_scope.md R6). -/

namespace Sys2Proof.Machine

/-- `SAMPLE now enc_l enc_r gz`: one control-loop pass, six events that others may fall between (R235). -/
def sampleEvents (c : Config) (now encL encR : Nat) (gz : Rat) : List PortWord :=
  [.est encL encR, .mtick now, .drive, .gyro gz, .apoll now, .notify].map (encode c)

/-- `CMD d`: the CMD_RX of the direction's byte (R96). -/
def commandEvents (c : Config) (d : Direction) : List PortWord := [encode c (.cmdRx (commandByte c d))]

/-- `FILL b0 … bk`: one A_FILL a byte (R96). -/
def fillEvents (c : Config) (bytes : List Byte) : List PortWord := bytes.map (fun b => encode c (.aFill b))

/-- `BFRAME b0 … bk`: one B_RX a byte (R96). -/
def frameEvents (c : Config) (bytes : List Byte) : List PortWord := bytes.map (fun b => encode c (.bRx b))

/-- The agents that issue operations, and the wires that carry units (R6). -/
inductive Agent where
  | host | mainLoop | commandReceiver | protocolBReceiver | filler
deriving DecidableEq, Repr

/-- Who issues an instruction (R6, the agent column of R81). A wire unit belongs to the agent whose operation reads or
sends it: a command byte to the command receiver, a Protocol-B unit to its receiver, a Protocol-A unit to the main loop's
poll, a sent command to the main loop. -/
def agentOf : Instr → Agent
  | .reset | .fatal => .host
  | .mtick _ | .est _ _ | .drive | .gyro _ | .apoll _ | .notify | .setIntent _ _ | .estop | .arm _ | .bStart | .bStop
  | .imuStatus _ => .mainLoop
  | .cmdRx _ | .cmdStop | .cmdForward | .cmdBackward | .cmdLeft | .cmdRight | .cmdUturn | .cmdIgnored _ =>
    .commandReceiver
  | .bRx _ | .bHdr1 _ | .bHdr2 _ | .bFrame _ _ _ => .protocolBReceiver
  | .aFill _ => .filler
  | .aSync _ | .aPacket _ _ => .mainLoop
  | .txBStart | .txBStop => .mainLoop

end Sys2Proof.Machine
end

