-- ==== Sys2Proof/Safety.lean ====
section
/-! DEFINITION. What a sound state of PSC52 is, in the terms the statements use: the invariants of spec/10_state.md R35,
the ranges of R23 to R30, the canonical form of the buffers, what a rounding must do for the ranges to hold; and, apart from
the machine's own functions, what a byte at the assembly (R184, R185) and an accepted frame (R203 to R206) leave. -/

namespace Sys2Proof.Machine

/-- A value lies in `[0, MAX_SPEED]`. -/
abbrev inSpeedRange (c : Config) (v : Rat) : Prop := 0 ≤ v ∧ v ≤ c.maxSpeed

/-- What the ranges need of `rnd`: it is monotone and leaves 0 and both ends of the speed range where they are (R11, D3:
a claim names the property of `rnd` it needs). The identity has it. -/
def roundsMonotonically (c : Config) : Prop :=
  (∀ x y : Rat, x ≤ y → applyRnd c x ≤ applyRnd c y) ∧
    applyRnd c 0 = 0 ∧ applyRnd c c.maxSpeed = c.maxSpeed ∧ applyRnd c (-c.maxSpeed) = -c.maxSpeed

/-- The motion half: R35 items 2, 3 and 4. -/
abbrev motionInv (s : State) : Prop :=
  inSpeedRange s.cfg s.motion.tspeed ∧ inSpeedRange s.cfg s.motion.cspeed ∧
    (s.motion.cdir = .stop → s.motion.cspeed = 0) ∧
    (driven s.motion.cdir = false → s.pid.l.integral = 0 ∧ s.pid.r.integral = 0)

/-- The PID outputs and setpoints: R35 item 1, R24. -/
abbrev pidInv (s : State) : Prop :=
  inSpeedRange s.cfg s.pid.l.output ∧ inSpeedRange s.cfg s.pid.r.output ∧
    inSpeedRange s.cfg s.pid.l.setpoint ∧ inSpeedRange s.cfg s.pid.r.setpoint

/-- The actuator channels: R35 item 9. -/
abbrev actuatorInv (s : State) : Prop :=
  inSpeedRange s.cfg s.act.la ∧ inSpeedRange s.cfg s.act.lb ∧ inSpeedRange s.cfg s.act.ra ∧
    inSpeedRange s.cfg s.act.rb ∧ (s.act.la = 0 ∨ s.act.lb = 0) ∧ (s.act.ra = 0 ∨ s.act.rb = 0)

/-- The registers of fixed width: R23, R25, R28. -/
abbrev widthInv (s : State) : Prop :=
  s.motion.last < 2 ^ s.cfg.timeBits ∧ s.protoA.lastTime < 2 ^ s.cfg.timeBits ∧
    s.wheel.l.prev < 2 ^ s.cfg.encBits ∧ s.wheel.r.prev < 2 ^ s.cfg.encBits

/-- Entry `i` of `a_buf` holds a value: the filler has written it since reset. -/
abbrev ringWritten (s : State) (i : Nat) : Prop := (memFind s.protoA.buf i).isSome

/-- The ring and the assembly: cursors in the buffer, R35 items 5 and 8. Until the first wrap the entries below `a_wr`
are written and `a_rd` has not passed it; after it every entry is written (93_implementation_defined.md U4). -/
abbrev ringInv (s : State) : Prop :=
  s.protoA.wr < s.cfg.aBufSize ∧ s.protoA.rd < s.cfg.aBufSize ∧
    s.protoA.idx < s.cfg.aPktLen ∧ (s.protoA.inpkt = false → s.protoA.idx = 0) ∧
    Memory.wf (unlistedByte .aBuf) s.cfg.aBufSize s.protoA.buf = true ∧
    ((∀ i, i < s.cfg.aBufSize → ringWritten s i) ∨
      (s.protoA.cycle = false ∧ s.protoA.rd ≤ s.protoA.wr ∧ ∀ i, i < s.protoA.wr → ringWritten s i))

/-- The frame state machine and the scan: R35 items 6 and 7, U5; a published buffer is whole or was never published
(R64). -/
abbrev frameInv (s : State) : Prop :=
  (s.protoB.phase = .collect → s.protoB.cnt < s.cfg.bCollectLen) ∧
    (s.protoB.phase ≠ .collect → s.protoB.cnt = 0 ∧ s.protoB.xor = 0#8) ∧
    s.cfg.bSamplesPerFrame ∣ s.protoB.samples ∧ s.protoB.samples ≤ s.cfg.bPublishThreshold ∧
    Memory.wf (unlistedByte .bBuf) s.cfg.bCollectLen s.protoB.buf = true ∧
    Memory.wf unlistedPair s.cfg.bWorkCap s.protoB.work = true ∧
    Memory.wf unlistedPair s.cfg.bPublishLen s.protoB.pub = true ∧
    (∀ i, i < s.protoB.samples → (memFind s.protoB.work i).isSome) ∧
    (s.protoB.pub = [] ∨ ∀ i, i < s.cfg.bPublishLen → (memFind s.protoB.pub i).isSome)

/-- The XOR of the first `n` bytes of `b_buf`. -/
def xorOfFirst (m : Memory Byte) : Nat → Byte
  | 0 => 0#8
  | n + 1 => xorOfFirst m n ^^^ (memGet (unlistedByte .bBuf) m n).getD 0#8

/-- `b_xor` is the XOR of the bytes collected so far (R202). -/
abbrev checksumInv (s : State) : Prop := s.protoB.xor = xorOfFirst s.protoB.buf s.protoB.cnt

/-- A sound state: a configuration within its constraints and every invariant. -/
abbrev sound (s : State) : Prop :=
  s.cfg.wf = true ∧ motionInv s ∧ pidInv s ∧ actuatorInv s ∧ widthInv s ∧ ringInv s ∧ frameInv s ∧ checksumInv s

/-- What the decoders leave alone and the motion half works on: every component but the two decoders' and the outputs,
taken from `m` (47_system.md R237). -/
def withMotionHalf (s m : State) : State :=
  { s with motion := m.motion, pid := m.pid, wheel := m.wheel, turn := m.turn, cmd := m.cmd, act := m.act }

/-- The machine may act: the fatal path has not been taken. -/
abbrev running (s : State) : Prop := s.sys.halted = false

/-- Instructions run one after another, up to the first that answers no next state. -/
def execAll : List Instr → State → Host.Outcome State Fault Refusal
  | [], s => .next s
  | i :: is, s =>
    match exec i s with
    | .next t => execAll is t
    | .fault f => .fault f
    | .refused why => .refused why

/-! ### The rules of Protocol A in the statements' own words, without rounding -/

/-- What the five bytes of packet `p` leave of `s`: the reading is emitted exactly when the check bit is set, the quality
is above 0, the distance lies in the valid range with both bounds included, and the angle has moved by a step or is
smaller than the last emitted one; only then does `a_last_angle` change (R185, R88). -/
def afterPacket (s : State) (p : APacket) : State :=
  let angle : Rat := (p.angleQ6.toNat : Rat) / 64
  let distance : Rat := (p.distQ2.toNat : Rat) / 4
  if p.check = 1#1 ∧ 0 < p.quality.toNat ∧ s.cfg.minValidDistance ≤ distance ∧ distance ≤ s.cfg.maxValidDistance ∧
      (s.cfg.aAngleStep ≤ |angle - s.protoA.lastAngle| ∨ angle < s.protoA.lastAngle) then
    { s with
      protoA := { s.protoA with lastAngle := angle }
      out := { s.out with
        range := s.out.range ++ [{ quality := p.quality, angle := angle, distance := distance,
                                   start := decide (p.start = 1#1), check := true, valid := true }] } }
  else s

/-- `t` is what byte `b`, taken at time `now`, leaves of `s`: the transition table of the assembly (R184). Outside a packet
a byte other than the sync byte is discarded, and the sync byte starts a packet, stored only with A_SYNC_STORED; inside
one any byte is the next packet byte, and the last one ends the packet. -/
def afterByte (s : State) (b : Byte) (now : Nat) (t : State) : Prop :=
  (s.protoA.inpkt = false ∧ b ≠ s.cfg.aSync ∧ t = s) ∨
    (s.protoA.inpkt = false ∧ b = s.cfg.aSync ∧
      t = { s with
        protoA := { s.protoA with
          inpkt := true
          lastTime := now
          idx := if s.cfg.aSyncStored then 1 else 0
          pkt := if s.cfg.aSyncStored then s.protoA.pkt.set 0 b else s.protoA.pkt } }) ∨
    (s.protoA.inpkt = true ∧ s.protoA.idx + 1 ≠ s.cfg.aPktLen ∧ ∃ h : s.protoA.idx < 5,
      t = { s with
        protoA := { s.protoA with
          idx := s.protoA.idx + 1
          lastTime := now
          pkt := s.protoA.pkt.set s.protoA.idx b h } }) ∨
    (s.protoA.inpkt = true ∧ s.protoA.idx + 1 = s.cfg.aPktLen ∧ ∃ (h : s.protoA.idx < 5) (p : APacket),
      p.toBytes = (s.protoA.pkt.set s.protoA.idx b h).toList ∧
      t = afterPacket
        { s with
          protoA := { s.protoA with
            inpkt := false
            idx := 0
            lastTime := now
            pkt := s.protoA.pkt.set s.protoA.idx b h } } p)

/-- `t` is what bytes taken one after another at one time leave of `s`. -/
def afterBytes (now : Nat) : List Byte → State → State → Prop
  | [], s, t => t = s
  | b :: bs, s, t => ∃ u, afterByte s b now u ∧ afterBytes now bs u t

/-! ### The rules of Protocol B in the statements' own words, without rounding -/

/-- `t` is what an accepted frame with the collected bytes `body` leaves of `s`: the frame state reset and its bytes kept;
each sample written at the arc position between the previous start angle and this frame's, with its own distance, and no
other entry of the working buffer; the previous start angle become this frame's. While the sample counter does not pass
the threshold it advances and nothing is published; when it passes it, the published buffer becomes the working buffer's
first entries, all of them, the counter returns to 0 and the strobe is emitted (R203 to R206). -/
def afterFrame (s : State) (body : List Byte) (t : State) : Prop :=
  let byte (k : Nat) : Byte := body.getD k 0#8
  let old : Rat := s.protoB.prevStart
  let new : Rat :=
    (((u16le (byte s.cfg.bPayloadOffset) (byte (s.cfg.bPayloadOffset + 1))).toNat % 2 ^ s.cfg.bAngleBits : Nat) : Rat) / 64
  let gap : Rat := if new > old then new - old else new + 360 - old
  (∀ k b, body[k]? = some b → memGet (unlistedByte .bBuf) t.protoB.buf k = some b) ∧
    (∀ i, i < s.cfg.bSamplesPerFrame →
      memFind t.protoB.work (s.protoB.samples + i) = some
        (BitVec.ofInt 16 ⌊mod360 (old + (i : Rat) * gap / (s.cfg.bSamplesPerFrame : Rat)) * 100⌋,
          u16le (byte (s.cfg.bPayloadOffset + 2 + 2 * i)) (byte (s.cfg.bPayloadOffset + 3 + 2 * i)))) ∧
    (∀ j, (j < s.protoB.samples ∨ s.protoB.samples + s.cfg.bSamplesPerFrame ≤ j) →
      memFind t.protoB.work j = memFind s.protoB.work j) ∧
    t.protoB.prevStart = new ∧ t.protoB.phase = .waitHeader1 ∧ t.protoB.cnt = 0 ∧ t.protoB.xor = 0#8 ∧
    t.protoB.armed = true ∧
    (s.protoB.samples + s.cfg.bSamplesPerFrame ≤ s.cfg.bPublishThreshold →
      t.protoB.samples = s.protoB.samples + s.cfg.bSamplesPerFrame ∧ t.protoB.pub = s.protoB.pub ∧
      t = { s with protoB := t.protoB }) ∧
    (s.cfg.bPublishThreshold < s.protoB.samples + s.cfg.bSamplesPerFrame →
      t.protoB.samples = 0 ∧
      (∀ k, k < s.cfg.bPublishLen → (memFind t.protoB.pub k).isSome ∧
        memFind t.protoB.pub k = memFind t.protoB.work k) ∧
      t = { s with protoB := t.protoB, out := { s.out with pub := s.out.pub ++ [.newScan] } })

end Sys2Proof.Machine
end

