-- ==== Sys2Proof/Certificates/Slice0/Obligations.lean ====
section
/-! DEFINITION. The statements for the provers. Each docstring says what is stated and which rule of spec/ it rests on.
A result is stated as an equation with the next state wherever it can be, so that it says the result, the frame (every
component not named is as before) and that the operation completes. -/

open Sys2Proof Sys2Proof.Machine

/-! ### System operations -/

/-- RESET puts every register at its reset value, in every state, halted or not; the three buffers the spec leaves
unspecified hold no value; nothing is emitted (R230, R37). -/
def Obligations.ResetRestoresEveryRegister : Prop :=
  ∀ s : State, exec .reset s = .next
    { cfg := s.cfg
      motion := { tdir := .stop, cdir := .stop, tspeed := 0, cspeed := 0, last := 0 }
      pid := ⟨⟨0, 0, 0, 0⟩, ⟨0, 0, 0, 0⟩⟩
      wheel := ⟨⟨0, 0⟩, ⟨0, 0⟩⟩
      turn := { atActive := false, atAcc := 0, atDir := .left, utActive := false, utAcc := 0 }
      cmd := { connected := false, announced := false, armed := false }
      protoA := { buf := [], wr := 0, rd := 0, cycle := false, inpkt := false, idx := 0,
                  pkt := #v[0#8, 0#8, 0#8, 0#8, 0#8], lastTime := 0, lastAngle := 0 }
      protoB := { armed := false, phase := .waitHeader1, h1 := 0#8, h2 := 0#8, xor := 0#8, cnt := 0, buf := [],
                  prevStart := 0, samples := 0, work := [], pub := [] }
      act := ⟨0, 0, 0, 0⟩
      sys := { halted := false, imuFault := false }
      out := s.out
      inbox := s.inbox }

/-- With `halted = 1` every instruction but RESET is the identity and emits nothing, and RESET clears `halted` (R234). R234
says so of the operations and of the bytes received; that the wire units are frozen too, A_SYNC, A_PACKET, TX_B_START and
TX_B_STOP among them, is the model's reading (log entry 24). -/
def Obligations.HaltedMachineIsFrozen : Prop :=
  (∀ (i : Instr) (s : State), s.sys.halted = true → i ≠ .reset → exec i s = .next s) ∧
    ∀ s : State, ∃ t, exec .reset s = .next t ∧ t.sys.halted = false

/-- FATAL sets `halted`, reports FATAL_CONFIG and keeps every other register, the actuators among them; nothing else ever
sets `halted` (R232, R256). -/
def Obligations.FatalAloneHalts : Prop :=
  (∀ s : State, running s → exec .fatal s = .next
    { s with
      sys := { s.sys with halted := true }
      out := { s.out with status := s.out.status ++ [.fatalConfig] } }) ∧
    ∀ (i : Instr) (s t : State), running s → exec i s = .next t → t.sys.halted = true → i = .fatal

/-- IMU_STATUS: a failed sensor initialisation sets `imu_fault` and is reported, once; a second failure, a success and a
report to a halted machine change nothing; no operation but RESET clears `imu_fault`. Operation code 0xE of format EV, with
the outcome on the `ok` port (R233). -/
def Obligations.ImuFailureIsReportedOnce : Prop :=
  (∀ (s : State) (ok : Bool), exec (.imuStatus ok) s =
    if s.sys.halted = false ∧ ok = false ∧ s.sys.imuFault = false then
      .next { s with
        sys := { s.sys with imuFault := true }
        out := { s.out with status := s.out.status ++ [.imuInitFail] } }
    else .next s) ∧
    (∀ (i : Instr) (s t : State), i ≠ .reset → exec i s = .next t → s.sys.imuFault = true → t.sys.imuFault = true) ∧
    ∀ (c : Config) (e : EventWord), e.op = 0xE#4 → decode c (.ev e) = .ok (.imuStatus (decide (e.ok = 1#1)))

/-! ### Motion -/

/-- SET_INTENT records the target direction and the target speed clamped into `[0, MAX_SPEED]`, and nothing else; halted,
it does nothing. Operation code 0xA of format EV: the direction is the one with the code on the `dir` port, 6 and 7 are
refused (R110). -/
def Obligations.SetIntentRecordsClampedIntent : Prop :=
  (∀ (s : State) (d : Direction) (v : Rat), 0 ≤ s.cfg.maxSpeed →
    exec (.setIntent d v) s =
      if s.sys.halted = false then
        .next { s with motion := { s.motion with tdir := d, tspeed := max 0 (min v s.cfg.maxSpeed) } }
      else .next s) ∧
    ∀ (c : Config) (e : EventWord), e.op = 0xA#4 →
      (∀ d : Direction, d.code = e.dir → decode c (.ev e) = .ok (.setIntent d e.speed)) ∧
        (e.dir = 6#3 ∨ e.dir = 7#3 → decode c (.ev e) = .error (.reservedDirection e.dir))

/-- ESTOP stops at once and clears both maneuvers: directions STOP, speeds 0, channels 0, integrals 0, trackers inactive
with accumulators 0; `m_last`, the receive channels and both decoders stay; halted, it does nothing. Operation code 0xB of
format EV, no operand (R119, R118). -/
def Obligations.EmergencyStopIsTotal : Prop :=
  (∀ s : State, exec .estop s =
    if s.sys.halted = false then
      .next { s with
        motion := { tdir := .stop, cdir := .stop, tspeed := 0, cspeed := 0, last := s.motion.last }
        turn := { atActive := false, atAcc := 0, atDir := s.turn.atDir, utActive := false, utAcc := 0 }
        pid := ⟨{ s.pid.l with integral := 0 }, { s.pid.r with integral := 0 }⟩
        act := ⟨0, 0, 0, 0⟩ }
    else .next s) ∧
    ∀ (c : Config) (e : EventWord), e.op = 0xB#4 → decode c (.ev e) = .ok .estop

/-- Before `SPEED_UPDATE_INTERVAL` has passed since `m_last`, modulo the clock's width, MTICK is a no-op (R112). -/
def Obligations.MtickBeforeIntervalIsNoOp : Prop :=
  ∀ (s : State) (now : Nat), running s →
    ((now : Int) - (s.motion.last : Int)) % (2 ^ s.cfg.timeBits : Int) < (s.cfg.speedUpdateInterval : Int) →
    exec (.mtick now) s = .next s

/-- An effective MTICK with the target equal to the current direction: at STOP only `m_last` changes; otherwise the speed
moves one step toward the target speed and never past it (R112, R114). -/
def Obligations.MtickRampsTowardTarget : Prop :=
  ∀ (s : State) (now : Nat), running s → s.cfg.rnd = .exact → 0 ≤ s.cfg.speedStep →
    (s.cfg.speedUpdateInterval : Int) ≤ ((now : Int) - (s.motion.last : Int)) % (2 ^ s.cfg.timeBits : Int) →
    s.motion.tdir = s.motion.cdir →
    exec (.mtick now) s = .next
      { s with
        motion :=
          { s.motion with
            last := now
            cspeed :=
              if s.motion.cdir = .stop then s.motion.cspeed
              else if s.motion.cspeed ≤ s.motion.tspeed then
                min s.motion.tspeed (s.motion.cspeed + s.cfg.speedStep)
              else max s.motion.tspeed (s.motion.cspeed - s.cfg.speedStep) } }

/-- An effective MTICK toward FORWARD or BACKWARD: from STOP or the other driven direction it switches at once, aims at
`MAX_SPEED` and takes the first ramp step in the same tick, keeping the PID registers; during a turn it only writes
`m_last` (R113, R296, R120). -/
def Obligations.MtickSwitchesToDrivenDirection : Prop :=
  ∀ (s : State) (now : Nat), running s → s.cfg.rnd = .exact → 0 ≤ s.cfg.speedStep →
    (s.cfg.speedUpdateInterval : Int) ≤ ((now : Int) - (s.motion.last : Int)) % (2 ^ s.cfg.timeBits : Int) →
    (s.motion.tdir = .forward ∨ s.motion.tdir = .backward) → s.motion.tdir ≠ s.motion.cdir →
    exec (.mtick now) s =
      if s.motion.cdir = .left ∨ s.motion.cdir = .right ∨ s.motion.cdir = .uturn then
        .next { s with motion := { s.motion with last := now } }
      else
        .next { s with
          motion :=
            { tdir := s.motion.tdir
              cdir := s.motion.tdir
              tspeed := s.cfg.maxSpeed
              cspeed :=
                if s.motion.cspeed ≤ s.cfg.maxSpeed then min s.cfg.maxSpeed (s.motion.cspeed + s.cfg.speedStep)
                else max s.cfg.maxSpeed (s.motion.cspeed - s.cfg.speedStep)
              last := now } }

/-- An effective MTICK toward a turn that is not the current direction switches at once to `TURN_SPEED`, without a ramp,
whatever the current direction, and zeroes both integrals (R113, R111, R120). -/
def Obligations.MtickSwitchesToTurn : Prop :=
  ∀ (s : State) (now : Nat), running s →
    (s.cfg.speedUpdateInterval : Int) ≤ ((now : Int) - (s.motion.last : Int)) % (2 ^ s.cfg.timeBits : Int) →
    (s.motion.tdir = .left ∨ s.motion.tdir = .right ∨ s.motion.tdir = .uturn) → s.motion.tdir ≠ s.motion.cdir →
    exec (.mtick now) s = .next
      { s with
        motion :=
          { tdir := s.motion.tdir, cdir := s.motion.tdir, tspeed := s.cfg.turnSpeed, cspeed := s.cfg.turnSpeed
            last := now }
        pid := ⟨{ s.pid.l with integral := 0 }, { s.pid.r with integral := 0 }⟩ }

/-- An effective MTICK toward STOP takes one step off the speed, not below 0, and commits STOP, zeroing the integrals, in
the tick in which the speed is 0 (R113, R111, R120). -/
def Obligations.MtickRampsDownToStop : Prop :=
  ∀ (s : State) (now : Nat), running s → s.cfg.rnd = .exact →
    (s.cfg.speedUpdateInterval : Int) ≤ ((now : Int) - (s.motion.last : Int)) % (2 ^ s.cfg.timeBits : Int) →
    s.motion.tdir = .stop → s.motion.cdir ≠ .stop →
    exec (.mtick now) s =
      if s.motion.cspeed ≤ s.cfg.speedStep then
        .next { s with
          motion := { s.motion with last := now, cspeed := 0, cdir := .stop }
          pid := ⟨{ s.pid.l with integral := 0 }, { s.pid.r with integral := 0 }⟩ }
      else .next { s with motion := { s.motion with last := now, cspeed := s.motion.cspeed - s.cfg.speedStep } }

/-! ### PID and actuators -/

/-- DRIVE in a driven direction runs `error = setpoint - measured; integral += error; derivative = error - last_error;
output = clamp(Kp*error + Ki*integral + Kd*derivative)` for each wheel on the ramped speed and the magnitude of its rate,
and puts the outputs on the A channels for FORWARD, on the B channels for BACKWARD (R115, R117, R130). -/
def Obligations.DriveRunsBothPids : Prop :=
  ∀ s : State, running s → s.cfg.rnd = .exact → 0 ≤ s.cfg.maxSpeed →
    (s.motion.cdir = .forward ∨ s.motion.cdir = .backward) →
    ∀ (eL eR iL iR uL uR : Rat),
      eL = s.motion.cspeed - |s.wheel.l.rpm| → eR = s.motion.cspeed - |s.wheel.r.rpm| →
      iL = s.pid.l.integral + eL → iR = s.pid.r.integral + eR →
      uL = max 0 (min (s.cfg.kp.l * eL + s.cfg.ki.l * iL + s.cfg.kd.l * (eL - s.pid.l.lastError))
        s.cfg.maxSpeed) →
      uR = max 0 (min (s.cfg.kp.r * eR + s.cfg.ki.r * iR + s.cfg.kd.r * (eR - s.pid.r.lastError))
        s.cfg.maxSpeed) →
      exec .drive s = .next
        { s with
          pid := ⟨{ setpoint := s.motion.cspeed, integral := iL, lastError := eL, output := uL },
                  { setpoint := s.motion.cspeed, integral := iR, lastError := eR, output := uR }⟩
          act := if s.motion.cdir = .forward then ⟨uL, 0, uR, 0⟩ else ⟨0, uL, 0, uR⟩ }

/-- DRIVE outside the driven directions: a turn gets the full `TURN_SPEED` pattern of its direction whatever `m_cspeed`
is, STOP gets four zeros; both integrals are zeroed and no other PID register is touched (R115, R116, R117, R111). -/
def Obligations.DriveTurnsOpenLoopAndStops : Prop :=
  ∀ s : State, running s → 0 ≤ s.cfg.turnSpeed → s.motion.cdir ≠ .forward → s.motion.cdir ≠ .backward →
    exec .drive s = .next
      { s with
        pid := ⟨{ s.pid.l with integral := 0 }, { s.pid.r with integral := 0 }⟩
        act :=
          if s.motion.cdir = .stop then ⟨0, 0, 0, 0⟩
          else if s.motion.cdir = .right then ⟨s.cfg.turnSpeed, 0, 0, s.cfg.turnSpeed⟩
          else ⟨0, s.cfg.turnSpeed, s.cfg.turnSpeed, 0⟩ }

/-- Whatever the rounding, the gains, the registers and the measurements, a DRIVE in a driven direction leaves both PID
outputs in `[0, MAX_SPEED]` (R131, R35 item 1). -/
def Obligations.PidOutputIsAlwaysClamped : Prop :=
  ∀ s : State, running s → 0 ≤ s.cfg.maxSpeed → driven s.motion.cdir = true →
    ∃ t, exec .drive s = .next t ∧ inSpeedRange s.cfg t.pid.l.output ∧ inSpeedRange s.cfg t.pid.r.output

/-- The eager turn command and the slow path (an intent, the next effective MTICK, the next DRIVE) reach the same
actuators, directions, speeds and integrals ("both paths must converge to the same actuator state", R169, R113). -/
def Obligations.EagerAndTickPathsConverge : Prop :=
  ∀ (s : State) (d : Direction) (command : Instr) (v : Rat) (now : Nat), running s → s.cmd.armed = true →
    (d = .left ∧ command = .cmdLeft ∨ d = .right ∧ command = .cmdRight ∨ d = .uturn ∧ command = .cmdUturn) →
    (s.cfg.speedUpdateInterval : Int) ≤ ((now : Int) - (s.motion.last : Int)) % (2 ^ s.cfg.timeBits : Int) →
    s.motion.cdir ≠ d →
    ∃ a b c e : State,
      exec command s = .next a ∧
      exec (.setIntent d v) s = .next b ∧ exec (.mtick now) b = .next c ∧ exec .drive c = .next e ∧
      e.act = a.act ∧ e.motion = { a.motion with last := now } ∧ e.pid = a.pid

/-- The actuator channels are written by DRIVE, by the three turn commands, by CMD_RX of one of their three bytes, by GYRO,
by ESTOP and by RESET, and by nothing else ("MotionController is the only writer", R30). -/
def Obligations.OnlyMotionControllerWritesActuators : Prop :=
  ∀ (i : Instr) (s t : State), exec i s = .next t → t.act ≠ s.act →
    i = .drive ∨ i = .cmdLeft ∨ i = .cmdRight ∨ i = .cmdUturn ∨
      (∃ b d, i = .cmdRx b ∧ commandDirection s.cfg b = some d ∧ (d = .left ∨ d = .right ∨ d = .uturn)) ∨
      (∃ gz, i = .gyro gz) ∨ i = .estop ∨ i = .reset

/-! ### Wheel speed -/

/-- EST takes each counter's movement since the last sample, modulo the counter's width and read as two's complement,
remembers the counter, stores `delta / PPR * (60 / (SAMPLE_TIME_MS / 1000))` and emits one RATE record (R140). -/
def Obligations.EstReportsSignedRates : Prop :=
  ∀ (s : State) (encL encR : Nat), running s → s.cfg.rnd = .exact →
    ∀ (rate : Nat → Nat → Rat),
      (∀ enc prev : Nat, rate enc prev =
        (if ((enc : Int) - (prev : Int)) % (2 ^ s.cfg.encBits : Int) < 2 ^ (s.cfg.encBits - 1) then
            (((enc : Int) - (prev : Int)) % (2 ^ s.cfg.encBits : Int) : Int)
          else ((enc : Int) - (prev : Int)) % (2 ^ s.cfg.encBits : Int) - 2 ^ s.cfg.encBits : Int)
          / (s.cfg.ppr : Rat) * (60 / ((s.cfg.sampleTimeMs : Rat) / 1000))) →
      exec (.est encL encR) s = .next
        { s with
          wheel := ⟨{ prev := encL, rpm := rate encL s.wheel.l.prev }, { prev := encR, rpm := rate encR s.wheel.r.prev }⟩
          out := { s.out with
            tlm := s.out.tlm ++ [.rate (rate encL s.wheel.l.prev) (rate encR s.wheel.r.prev)] } }

/-- The movement EST takes lies in `-2^(W-1) .. 2^(W-1)-1` and equals the counters' difference modulo `2^W`, for every
counter width of at least 2 (R141). -/
def Obligations.EncoderDeltaIsWrappedDifference : Prop :=
  ∀ (c : Config) (enc prev : Nat), 2 ≤ c.encBits →
    -(2 ^ (c.encBits - 1) : Int) ≤ encoderDelta c enc prev ∧ encoderDelta c enc prev < 2 ^ (c.encBits - 1) ∧
      (2 ^ c.encBits : Int) ∣ encoderDelta c enc prev - ((enc : Int) - (prev : Int))

/-! ### Turn trackers -/

/-- GYRO adds `gz * dt` to each active tracker alone and emits each active tracker's new accumulator, ANGLE first; when
neither has reached its bound that is all; when one has (LEFT at `+90` or more, RIGHT at `-90` or less, the U-turn at a
magnitude of 180 or more, or at `+180` with UTURN_SIGNED), both trackers are cleared and the stop sequence runs in the
same operation (R150, R151, R152, R154, R155, R157, R118). -/
def Obligations.GyroIntegratesAndCompletes : Prop :=
  ∀ (s : State) (gz a u : Rat), running s → s.cfg.rnd = .exact →
    a = (if s.turn.atActive then s.turn.atAcc + gz * ((s.cfg.sampleTimeMs : Rat) / 1000) else s.turn.atAcc) →
    u = (if s.turn.utActive then s.turn.utAcc + gz * ((s.cfg.sampleTimeMs : Rat) / 1000) else s.turn.utAcc) →
    ∀ records : List Telemetry,
      records = (if s.turn.atActive then [.angle a] else []) ++ (if s.turn.utActive then [.uturn u] else []) →
      exec (.gyro gz) s =
        if (s.turn.atActive = true ∧
              (s.turn.atDir = .left ∧ s.cfg.angleTurnDeg ≤ a ∨ s.turn.atDir = .right ∧ a ≤ -s.cfg.angleTurnDeg)) ∨
            (s.turn.utActive = true ∧
              (s.cfg.uturnSigned = true ∧ s.cfg.uTurnDeg ≤ u ∨ s.cfg.uturnSigned = false ∧ s.cfg.uTurnDeg ≤ |u|)) then
          .next { s with
            turn := { atActive := false, atAcc := 0, atDir := s.turn.atDir, utActive := false, utAcc := 0 }
            motion := { tdir := .stop, cdir := .stop, tspeed := 0, cspeed := 0, last := s.motion.last }
            pid := ⟨{ s.pid.l with integral := 0 }, { s.pid.r with integral := 0 }⟩
            act := ⟨0, 0, 0, 0⟩
            out := { s.out with tlm := s.out.tlm ++ records } }
        else
          .next { s with
            turn := { s.turn with atAcc := a, utAcc := u }
            out := { s.out with tlm := s.out.tlm ++ records } }

/-! ### Commands, notification, arming -/

/-- The bytes STOP, FORWARD and BACKWARD at an armed channel clear both trackers and write the target direction and
speed; the current direction, the current speed and the actuators wait for MTICK and DRIVE (R162, R163, R164, R161). -/
def Obligations.DriveCommandsSetTheIntent : Prop :=
  ∀ (s : State) (command : Instr) (d : Direction) (v : Rat), running s → s.cmd.armed = true →
    (command = .cmdStop ∧ d = .stop ∧ v = 0 ∨ command = .cmdForward ∧ d = .forward ∧ v = s.cfg.maxSpeed ∨
      command = .cmdBackward ∧ d = .backward ∧ v = s.cfg.maxSpeed) →
    exec command s = .next
      { s with
        cmd := { connected := true, announced := s.cmd.announced, armed := true }
        turn := { atActive := false, atAcc := 0, atDir := s.turn.atDir, utActive := false, utAcc := 0 }
        motion := { s.motion with tdir := d, tspeed := v } }

/-- The bytes LEFT, RIGHT and UTURN at an armed channel restart their tracker from 0, leave the other one, switch
direction and speed at once, zero the integrals and drive the turn pattern (R165, R166, R167, R169, R116, R161). -/
def Obligations.TurnCommandsActuateAtOnce : Prop :=
  ∀ (s : State) (command : Instr) (d : Direction) (turn : Turn), running s → s.cmd.armed = true →
    0 ≤ s.cfg.turnSpeed →
    (command = .cmdLeft ∧ d = .left ∧ turn = { s.turn with atActive := true, atAcc := 0, atDir := .left } ∨
      command = .cmdRight ∧ d = .right ∧ turn = { s.turn with atActive := true, atAcc := 0, atDir := .right } ∨
      command = .cmdUturn ∧ d = .uturn ∧ turn = { s.turn with utActive := true, utAcc := 0 }) →
    exec command s = .next
      { s with
        cmd := { connected := true, announced := s.cmd.announced, armed := true }
        turn := turn
        motion := { tdir := d, cdir := d, tspeed := s.cfg.turnSpeed, cspeed := s.cfg.turnSpeed, last := s.motion.last }
        pid := ⟨{ s.pid.l with integral := 0 }, { s.pid.r with integral := 0 }⟩
        act := if d = .right then ⟨s.cfg.turnSpeed, 0, 0, s.cfg.turnSpeed⟩
               else ⟨0, s.cfg.turnSpeed, s.cfg.turnSpeed, 0⟩ }

/-- A byte that is no command, at an armed channel, latches the connected flag and changes nothing else; the channel is
armed again (R168, R86, R161). -/
def Obligations.IgnoredByteOnlyLatchesConnected : Prop :=
  ∀ (s : State) (b : Byte), running s → s.cmd.armed = true →
    b ≠ s.cfg.cmdBase → b ≠ s.cfg.cmdBase + 1#8 → b ≠ s.cfg.cmdBase + 2#8 → b ≠ s.cfg.cmdBase + 3#8 →
    b ≠ s.cfg.cmdBase + 4#8 → b ≠ s.cfg.cmdBase + 5#8 →
    exec (.cmdIgnored b) s = .next { s with cmd := { connected := true, announced := s.cmd.announced, armed := true } } ∧
      exec (.cmdRx b) s = .next { s with cmd := { connected := true, announced := s.cmd.announced, armed := true } }

/-- CMD_RX does what the command its byte spells does, for every byte and in every state, and it always completes
(R161, R85, R86). -/
def Obligations.CmdRxRunsTheDecodedCommand : Prop :=
  ∀ (s : State) (b : Byte), ∃ t, exec (.cmdRx b) s = .next t ∧ exec (decodeCommand s.cfg b) s = .next t

/-- A byte delivered to a channel that is not armed changes nothing at all (R13, R161, R201, R290). -/
def Obligations.UnarmedBytesAreLost : Prop :=
  ∀ (s : State) (b : Byte),
    (s.cmd.armed = false → exec (.cmdRx b) s = .next s ∧ exec (.cmdIgnored b) s = .next s ∧
      exec .cmdStop s = .next s ∧ exec .cmdForward s = .next s ∧ exec .cmdBackward s = .next s ∧
      exec .cmdLeft s = .next s ∧ exec .cmdRight s = .next s ∧ exec .cmdUturn s = .next s) ∧
    (s.protoB.armed = false → exec (.bRx b) s = .next s ∧
      (∀ n, exec (.bHdr1 n) s = .next s ∧ exec (.bHdr2 n) s = .next s) ∧
      ∀ lo hi body, exec (.bFrame lo hi body) s = .next s)

/-- The re-arm contract: no path through an accepted CMD_RX or B_RX leaves the armed bit 0, whatever the byte and
whatever the decoder state (R172). -/
def Obligations.AcceptedBytesRearmTheirChannel : Prop :=
  ∀ (s t : State) (b : Byte), running s →
    (s.cmd.armed = true → exec (.cmdRx b) s = .next t → t.cmd.armed = true) ∧
      (s.protoB.armed = true → exec (.bRx b) s = .next t → t.protoB.armed = true)

/-- NOTIFY emits CONNECTED and latches `c_announced` exactly when the connected flag is set and not yet announced;
otherwise, and when halted, it changes nothing. Operation code 0x6 of format EV, no operand (R170). No operation but RESET
clears `c_announced` or `c_connected`, so that once announced no step emits another notification, unless it is a RESET
(R33, R27). -/
def Obligations.NotifyAnnouncesOnce : Prop :=
  (∀ s : State, exec .notify s =
    if s.sys.halted = false ∧ s.cmd.connected = true ∧ s.cmd.announced = false then
      .next { s with
        cmd := { s.cmd with announced := true }
        out := { s.out with note := s.out.note ++ [.connected] } }
    else .next s) ∧
    (∀ (i : Instr) (s t : State), i ≠ .reset → exec i s = .next t →
      (s.cmd.announced = true → t.cmd.announced = true) ∧ (s.cmd.connected = true → t.cmd.connected = true) ∧
        (t.out.note ≠ s.out.note → i = .notify)) ∧
    (∀ s t : State, step s = .next t → s.cmd.announced = true →
      (t.cmd.announced = true ∧ t.out.note = s.out.note) ∨
        ∃ w rest, s.inbox = w :: rest ∧ decode s.cfg w = .ok .reset) ∧
    ∀ (c : Config) (e : EventWord), e.op = 0x6#4 → decode c (.ev e) = .ok .notify

/-- ARM sets the armed bit of the channel it names and nothing else; halted, it changes nothing. Operation code 0xC of
format EV: `ch` 0 is the command channel, 1 is Protocol B's (R171). -/
def Obligations.ArmSetsOneChannel : Prop :=
  (∀ s : State,
    exec (.arm .command) s =
      (if s.sys.halted = false then .next { s with cmd := { s.cmd with armed := true } } else .next s) ∧
    exec (.arm .protocolB) s =
      (if s.sys.halted = false then .next { s with protoB := { s.protoB with armed := true } } else .next s)) ∧
    ∀ (c : Config) (e : EventWord), e.op = 0xC#4 →
      (e.ch = 0#1 → decode c (.ev e) = .ok (.arm .command)) ∧
        (e.ch = 1#1 → decode c (.ev e) = .ok (.arm .protocolB))

/-! ### Protocol A -/

/-- A_FILL stores the byte at the write cursor, moves the cursor by one modulo `N` and sets the cycle flag on a wrap; no
other entry of the ring and no other register changes (R180, R68). -/
def Obligations.FillStoresThenAdvances : Prop :=
  ∀ (s : State) (b : Byte), running s → s.protoA.wr < s.cfg.aBufSize →
    ∃ m : Memory Byte,
      exec (.aFill b) s = .next
        { s with
          protoA := { s.protoA with
            buf := m
            wr := if s.protoA.wr + 1 = s.cfg.aBufSize then 0 else s.protoA.wr + 1
            cycle := if s.protoA.wr + 1 = s.cfg.aBufSize then true else s.protoA.cycle } } ∧
      memGet (unlistedByte .aBuf) m s.protoA.wr = some b ∧
      ∀ i, i ≠ s.protoA.wr → memGet (unlistedByte .aBuf) m i = memGet (unlistedByte .aBuf) s.protoA.buf i

/-- From every state of the ring that satisfies its invariant APOLL completes. The overrun check comes first: only it moves
the write cursor, to 0 and with a report, when a fill cycle has ended with a sync byte at index 0. The stall check comes
second: a packet whose last byte is more than `LIDAR_TIMEOUT_THRESHOLD` old is abandoned, before any new byte is looked
at. Then the unread bytes, those from the read cursor up to the write cursor, across the wrap, are handed to the byte
assembly in order at the poll's time, whatever they are, and the consumer has caught up. The ring's contents, every
register outside Protocol A and every other output are as before (R181, R182, R183, R184, R186, R253, R254, R67). -/
def Obligations.PollCatchesUpWithTheFiller : Prop :=
  ∀ (s : State) (now wr : Nat) (overrun stall : Bool), running s → s.cfg.wf = true → ringInv s →
    overrun = decide (s.protoA.cycle = true ∧ memGet (unlistedByte .aBuf) s.protoA.buf 0 = some s.cfg.aSync) →
    stall = decide (s.protoA.inpkt = true ∧
      (s.cfg.lidarTimeout : Int) < ((now : Int) - (s.protoA.lastTime : Int)) % (2 ^ s.cfg.timeBits : Int)) →
    wr = (if overrun then 0 else s.protoA.wr) →
    ∃ (t : State) (unread : List Byte), exec (.apoll now) s = .next t ∧
      t.protoA.rd = t.protoA.wr ∧ t.protoA.cycle = false ∧ t.protoA.buf = s.protoA.buf ∧ t.protoA.wr = wr ∧
      t.out.status = (if overrun then s.out.status ++ [.aOverrun] else s.out.status) ∧
      t = { s with protoA := t.protoA, out := { s.out with range := t.out.range, status := t.out.status } } ∧
      (unread.length : Int) = ((wr : Int) - (s.protoA.rd : Int)) % (s.cfg.aBufSize : Int) ∧
      (∀ k b, unread[k]? = some b →
        memGet (unlistedByte .aBuf) s.protoA.buf ((s.protoA.rd + k) % s.cfg.aBufSize) = some b) ∧
      (s.cfg.rnd = .exact → afterBytes now unread
        { s with
          protoA := { s.protoA with
            wr := wr
            rd := wr
            cycle := false
            inpkt := s.protoA.inpkt && !stall
            idx := if stall then 0 else s.protoA.idx }
          out := { s.out with status := t.out.status } } t)

/-- A whole reading in the ring, a sync byte and the five bytes of any valid packet behind it, wherever it lies across
the wrap and whatever bytes other than the sync byte stand unread before it, is decoded by one APOLL into exactly its
fields and emitted, when its angle has moved by a step or is smaller than the last emitted one: outside a packet or with a
packet that has stalled, no overrun, A_SYNC_STORED off (R181, R182, R183, R184, R185, R188, R87, R88). -/
def Obligations.PacketInTheRingIsEmitted : Prop :=
  ∀ (s : State) (now : Nat) (noise : List Byte) (p : APacket) (angle distance : Rat),
    running s → s.cfg.rnd = .exact → s.cfg.aPktLen = 5 → s.cfg.aSyncStored = false →
    noise.length + 7 ≤ s.cfg.aBufSize → s.protoA.rd < s.cfg.aBufSize →
    s.protoA.wr = (s.protoA.rd + noise.length + 6) % s.cfg.aBufSize →
    (s.protoA.cycle = true →
      ∃ b, memGet (unlistedByte .aBuf) s.protoA.buf 0 = some b ∧ b ≠ s.cfg.aSync) →
    (s.protoA.inpkt = false ∨
      (s.cfg.lidarTimeout : Int) < ((now : Int) - (s.protoA.lastTime : Int)) % (2 ^ s.cfg.timeBits : Int)) →
    (∀ b, b ∈ noise → b ≠ s.cfg.aSync) →
    (∀ k b, (noise ++ s.cfg.aSync :: p.toBytes)[k]? = some b →
      memGet (unlistedByte .aBuf) s.protoA.buf ((s.protoA.rd + k) % s.cfg.aBufSize) = some b) →
    angle = (p.angleQ6.toNat : Rat) / 64 → distance = (p.distQ2.toNat : Rat) / 4 →
    p.check = 1#1 → 0 < p.quality.toNat → s.cfg.minValidDistance ≤ distance → distance ≤ s.cfg.maxValidDistance →
    (s.cfg.aAngleStep ≤ |angle - s.protoA.lastAngle| ∨ angle < s.protoA.lastAngle) →
    ∃ pkt : Vector Byte 5, pkt.toList = p.toBytes ∧
      exec (.apoll now) s = .next
        { s with
          protoA := { s.protoA with
            rd := s.protoA.wr, cycle := false, inpkt := false, idx := 0, pkt := pkt, lastTime := now
            lastAngle := angle }
          out := { s.out with
            range := s.out.range ++ [{ quality := p.quality, angle := angle, distance := distance,
                                       start := decide (p.start = 1#1), check := true, valid := true }] } }

/-- A poll that finds a packet whose last byte is more than `LIDAR_TIMEOUT_THRESHOLD` old, whatever else it finds, is the
poll of a machine that is not mid-packet: the fragment is abandoned silently, and new bytes are not appended to it. With no
new bytes and no fill cycle to examine that is all APOLL does, and without such a packet it then changes nothing (R181,
R183, R254). -/
def Obligations.StallAbandonsThePacket : Prop :=
  ∀ (s : State) (now : Nat), running s →
    (s.protoA.inpkt = true →
      (s.cfg.lidarTimeout : Int) < ((now : Int) - (s.protoA.lastTime : Int)) % (2 ^ s.cfg.timeBits : Int) →
      exec (.apoll now) s = exec (.apoll now) { s with protoA := { s.protoA with inpkt := false, idx := 0 } }) ∧
    (s.protoA.cycle = false → s.protoA.rd = s.protoA.wr →
      exec (.apoll now) s =
        if s.protoA.inpkt = true ∧
            (s.cfg.lidarTimeout : Int) < ((now : Int) - (s.protoA.lastTime : Int)) % (2 ^ s.cfg.timeBits : Int) then
          .next { s with protoA := { s.protoA with inpkt := false, idx := 0 } }
        else .next s)

/-- A sync byte seen while not mid-packet starts a packet, and is stored only with A_SYNC_STORED; inside a packet it is
data: before the last byte it is stored and counted, as the last byte it ends the packet, which is validated and emitted
like any other. That the unit A_SYNC is a step of its own, at a time `now` and apart from the ring and its cursors, with no
stall check before it, is the model's choice (log entry 11); what the byte does is the rules' (R184, R185, R94). -/
def Obligations.SyncByteStartsAPacketOrIsData : Prop :=
  ∀ (s : State) (now : Nat), running s →
    (s.protoA.inpkt = false →
      exec (.aSync now) s = .next
        { s with
          protoA := { s.protoA with
            inpkt := true
            lastTime := now
            idx := if s.cfg.aSyncStored then 1 else 0
            pkt := if s.cfg.aSyncStored then s.protoA.pkt.set 0 s.cfg.aSync else s.protoA.pkt } }) ∧
    (s.protoA.inpkt = true → ∀ h : s.protoA.idx < 5, s.protoA.idx + 1 ≠ s.cfg.aPktLen →
      exec (.aSync now) s = .next
        { s with
          protoA := { s.protoA with
            idx := s.protoA.idx + 1
            lastTime := now
            pkt := s.protoA.pkt.set s.protoA.idx s.cfg.aSync h } }) ∧
    (s.protoA.inpkt = true → s.cfg.rnd = .exact → ∀ h : s.protoA.idx < 5, s.protoA.idx + 1 = s.cfg.aPktLen →
      ∃ p : APacket, p.toBytes = (s.protoA.pkt.set s.protoA.idx s.cfg.aSync h).toList ∧
        exec (.aSync now) s = .next (afterPacket
          { s with
            protoA := { s.protoA with
              inpkt := false
              idx := 0
              lastTime := now
              pkt := s.protoA.pkt.set s.protoA.idx s.cfg.aSync h } } p))

/-- A_PACKET hands its five bytes to the assembly in order, whatever the assembly is doing. At the start of a packet they
are the packet, and so are five bytes of which the first is the stored sync byte, outside a packet with A_SYNC_STORED; the
reading is then emitted exactly when the check bit is set, the quality is above 0, the distance is in range with both
bounds included, and the angle has moved by a step or is smaller than the last emitted one; only then does `a_last_angle`
change. That the unit A_PACKET is one step at one time `now`, apart from the ring and its cursors, with no stall check
before it, is the model's choice (log entry 11); what the bytes do is the rules' (R184, R185, R87, R88). -/
def Obligations.PacketIsValidatedAndEmitted : Prop :=
  ∀ (s : State) (now : Nat) (p : APacket) (angle distance : Rat),
    running s → s.cfg.rnd = .exact → s.cfg.aPktLen = 5 →
    ((s.protoA.inpkt = true → s.protoA.idx < 5) →
      ∃ t, exec (.aPacket now p) s = .next t ∧ afterBytes now p.toBytes s t) ∧
    (s.protoA.inpkt = true ∧ s.protoA.idx = 0 ∨
        s.protoA.inpkt = false ∧ s.cfg.aSyncStored = true ∧ p.toBytes.head? = some s.cfg.aSync →
      angle = (p.angleQ6.toNat : Rat) / 64 → distance = (p.distQ2.toNat : Rat) / 4 →
      ∃ pkt : Vector Byte 5, pkt.toList = p.toBytes ∧
        exec (.aPacket now p) s =
          if p.check = 1#1 ∧ 0 < p.quality.toNat ∧ s.cfg.minValidDistance ≤ distance ∧
              distance ≤ s.cfg.maxValidDistance ∧
              (s.cfg.aAngleStep ≤ |angle - s.protoA.lastAngle| ∨ angle < s.protoA.lastAngle) then
            .next { s with
              protoA := { s.protoA with pkt := pkt, inpkt := false, idx := 0, lastTime := now, lastAngle := angle }
              out := { s.out with
                range := s.out.range ++ [{ quality := p.quality, angle := angle, distance := distance,
                                           start := decide (p.start = 1#1), check := true, valid := true }] } }
          else
            .next { s with protoA := { s.protoA with pkt := pkt, inpkt := false, idx := 0, lastTime := now } })

/-- A poll that comes to read a ring entry nothing has written stops with the fault of that name and that entry: entry 0,
where the overrun check reads it after a fill cycle, or the first unwritten one of the unread entries, when the ones before
it have been taken by an assembly whose index is in its range. A fill outside the buffer stops with the other fault. No
state that satisfies the invariants meets either (93_implementation_defined.md U4; log entries 8 and 19: the stop outside
the buffer is the model's choice). -/
def Obligations.RingMisuseFaultsByName : Prop :=
  (∀ (s : State) (now : Nat), running s → s.protoA.cycle = true → 0 < s.cfg.aBufSize →
    memGet (unlistedByte .aBuf) s.protoA.buf 0 = none →
    exec (.apoll now) s = .fault (.unwrittenEntry .aBuf 0)) ∧
  (∀ (s : State) (now wr k : Nat), running s → s.protoA.rd < s.cfg.aBufSize →
    (s.protoA.cycle = true → memGet (unlistedByte .aBuf) s.protoA.buf 0 ≠ none) →
    wr = (if s.protoA.cycle = true ∧ memGet (unlistedByte .aBuf) s.protoA.buf 0 = some s.cfg.aSync then 0
      else s.protoA.wr) →
    (k : Int) < ((wr : Int) - (s.protoA.rd : Int)) % (s.cfg.aBufSize : Int) →
    (k = 0 ∨ s.cfg.aPktLen = 5 ∧ (s.protoA.inpkt = true → s.protoA.idx < 5)) →
    (∀ j, j < k →
      memGet (unlistedByte .aBuf) s.protoA.buf ((s.protoA.rd + j) % s.cfg.aBufSize) ≠ none) →
    memGet (unlistedByte .aBuf) s.protoA.buf ((s.protoA.rd + k) % s.cfg.aBufSize) = none →
    exec (.apoll now) s = .fault (.unwrittenEntry .aBuf ((s.protoA.rd + k) % s.cfg.aBufSize))) ∧
  ∀ (s : State) (b : Byte), running s → s.cfg.aBufSize ≤ s.protoA.wr →
    exec (.aFill b) s = .fault (.noSuchEntry .aBuf s.protoA.wr)

/-! ### Protocol B -/

/-- The header tests of the frame state machine, for every byte: in WAIT_HEADER1 a byte whose high nibble is `HDR1` is
kept and the machine moves on, any other is discarded; in WAIT_HEADER2 a byte whose high nibble is `HDR2` is kept and
collection starts, any other sends the machine back and is not looked at again (R202, R201). -/
def Obligations.HeaderTestsMoveTheFrameMachine : Prop :=
  ∀ (s : State) (b : Byte), running s → s.protoB.armed = true →
    (s.protoB.phase = .waitHeader1 → exec (.bRx b) s =
      if b.extractLsb' 4 4 = s.cfg.hdr1 then .next { s with protoB := { s.protoB with h1 := b, phase := .waitHeader2 } }
      else .next s) ∧
    (s.protoB.phase = .waitHeader2 → exec (.bRx b) s =
      if b.extractLsb' 4 4 = s.cfg.hdr2 then
        .next { s with protoB := { s.protoB with h2 := b, phase := .collect, cnt := 0, xor := 0#8 } }
      else .next { s with protoB := { s.protoB with phase := .waitHeader1 } })

/-- A header unit is the byte of its header constant and its checksum nibble, received by B_RX in whatever state the frame
machine is: the first is kept in `b_h1` in WAIT_HEADER1, the second in `b_h2` in WAIT_HEADER2, and in COLLECT either is
data. That the unit is run as B_RX of its byte is the model's choice (log entry 12); what the byte does is the rules'
(R202, R89, R94). -/
def Obligations.HeaderUnitsAreKept : Prop :=
  ∀ (s : State) (n : BitVec 4),
    exec (.bHdr1 n) s = exec (.bRx (s.cfg.hdr1 ++ n)) s ∧
    exec (.bHdr2 n) s = exec (.bRx (s.cfg.hdr2 ++ n)) s ∧
    (running s → s.protoB.armed = true →
      (s.protoB.phase = .waitHeader1 → exec (.bHdr1 n) s =
        .next { s with protoB := { s.protoB with h1 := s.cfg.hdr1 ++ n, phase := .waitHeader2 } }) ∧
      (s.protoB.phase = .waitHeader2 → exec (.bHdr2 n) s =
        .next { s with protoB := { s.protoB with h2 := s.cfg.hdr2 ++ n, phase := .collect, cnt := 0, xor := 0#8 } }))

/-- A byte collected before the last one is stored at the count, seeds the checksum or is XORed into it, and moves the
count; no other byte of `b_buf` and no other register changes (R202). -/
def Obligations.CollectedByteIsStoredAndXored : Prop :=
  ∀ (s : State) (b : Byte), running s → s.protoB.armed = true → s.protoB.phase = .collect →
    s.protoB.cnt + 1 < s.cfg.bCollectLen →
    Memory.wf (unlistedByte .bBuf) s.cfg.bCollectLen s.protoB.buf = true →
    ∃ m : Memory Byte,
      exec (.bRx b) s = .next
        { s with
          protoB := { s.protoB with
            buf := m
            xor := if s.protoB.cnt = 0 then b else s.protoB.xor ^^^ b
            cnt := s.protoB.cnt + 1 } } ∧
      memGet (unlistedByte .bBuf) m s.protoB.cnt = some b ∧
      ∀ i, i ≠ s.protoB.cnt → memGet (unlistedByte .bBuf) m i = memGet (unlistedByte .bBuf) s.protoB.buf i

/-- A frame whose last byte leaves a checksum other than the two low nibbles of its header bytes, the second header's on
top, is dropped silently: the frame state resets, `b_prev_start`, `b_samples`, both scan buffers and every output are
untouched, and of `b_buf` only the last byte is written (R203, R90, R251). -/
def Obligations.CorruptedFrameIsDropped : Prop :=
  ∀ (s : State) (b : Byte), running s → s.protoB.armed = true → s.protoB.phase = .collect →
    s.protoB.cnt + 1 = s.cfg.bCollectLen →
    Memory.wf (unlistedByte .bBuf) s.cfg.bCollectLen s.protoB.buf = true →
    (if s.protoB.cnt = 0 then b else s.protoB.xor ^^^ b) ≠
      s.protoB.h2.extractLsb' 0 4 ++ s.protoB.h1.extractLsb' 0 4 →
    ∃ m : Memory Byte,
      exec (.bRx b) s = .next
        { s with protoB := { s.protoB with buf := m, phase := .waitHeader1, cnt := 0, xor := 0#8 } } ∧
      memGet (unlistedByte .bBuf) m s.protoB.cnt = some b ∧
      ∀ i, i ≠ s.protoB.cnt → memGet (unlistedByte .bBuf) m i = memGet (unlistedByte .bBuf) s.protoB.buf i

/-- A frame unit is its bytes received by B_RX one after another, in every state: the two header bytes, then the
collected ones. The last byte of a frame completes it: where the checksum over all its bytes matches the two low nibbles of
its header bytes, B_RX extracts the collected bytes, each sample at its arc position with its distance, and publishes past
the threshold, the header bytes kept. So a whole frame with a matching checksum, received from WAIT_HEADER1, completes and
does the same (R202 to R206, R89 to R91, R96). That the frame's bytes are received in one step is the model's choice (log
entry 12). -/
def Obligations.AcceptedFrameIsExtractedAndPublished : Prop :=
  (∀ (s : State) (lo hi : BitVec 4) (body : List Byte),
    exec (.bFrame lo hi body) s =
      execAll (((s.cfg.hdr1 ++ lo) :: (s.cfg.hdr2 ++ hi) :: body).map fun b : Byte => Instr.bRx b) s) ∧
  (∀ (s : State) (b : Byte) (body : List Byte),
    running s → s.cfg.wf = true → s.cfg.rnd = .exact → frameInv s → s.protoB.armed = true →
    s.protoB.phase = .collect → s.protoB.cnt + 1 = s.cfg.bCollectLen → body.length = s.cfg.bCollectLen →
    (∀ k c, k < s.protoB.cnt → body[k]? = some c → memGet (unlistedByte .bBuf) s.protoB.buf k = some c) →
    body[s.protoB.cnt]? = some b →
    (if s.protoB.cnt = 0 then b else s.protoB.xor ^^^ b) =
      s.protoB.h2.extractLsb' 0 4 ++ s.protoB.h1.extractLsb' 0 4 →
    ∃ t, exec (.bRx b) s = .next t ∧ afterFrame s body t ∧ t.protoB.h1 = s.protoB.h1 ∧ t.protoB.h2 = s.protoB.h2) ∧
  ∀ (s : State) (lo hi : BitVec 4) (body : List Byte),
    running s → s.cfg.wf = true → s.cfg.rnd = .exact → frameInv s → s.protoB.armed = true →
    s.protoB.phase = .waitHeader1 → body.length = s.cfg.bCollectLen →
    body.foldl (· ^^^ ·) 0#8 = hi ++ lo →
    ∃ t, exec (.bFrame lo hi body) s = .next t ∧ afterFrame s body t ∧
      t.protoB.h1 = s.cfg.hdr1 ++ lo ∧ t.protoB.h2 = s.cfg.hdr2 ++ hi

/-- One received byte either leaves the published buffer and its strobe alone, or replaces the whole buffer by the first
entries of the working buffer, emits one strobe and returns the counter to 0: no byte leaves a half-written scan (R64,
R206). -/
def Obligations.PublicationReplacesTheWholeScan : Prop :=
  ∀ (s t : State) (b : Byte), exec (.bRx b) s = .next t →
    (t.protoB.pub = s.protoB.pub ∧ t.out.pub = s.out.pub) ∨
      (t.out.pub = s.out.pub ++ [.newScan] ∧ t.protoB.samples = 0 ∧
        (∀ k, k < s.cfg.bPublishLen → ∃ v, memFind t.protoB.pub k = some v ∧ memFind t.protoB.work k = some v) ∧
        ∀ k, s.cfg.bPublishLen ≤ k → memFind t.protoB.pub k = none)

/-- The angle of a sample, without rounding, is the exact floor of a hundred times an angle in `[0, 360)`: it lies in
`0 .. 35999`, so nothing is lost in 16 bits (R205, R204). -/
def Obligations.SampleAngleFitsItsField : Prop :=
  ∀ (c : Config) (old gap : Rat) (i : Nat), c.rnd = .exact →
    0 ≤ mod360 (old + i * gap / c.bSamplesPerFrame) ∧ mod360 (old + i * gap / c.bSamplesPerFrame) < 360 ∧
      ((sampleAngle c old gap i).toNat : Int) = ⌊mod360 (old + i * gap / c.bSamplesPerFrame) * 100⌋ ∧
      (sampleAngle c old gap i).toNat ≤ 35999

/-- B_START and B_STOP, and the two units they are, send exactly the printed bytes and change no register; halted, they
send nothing. Both are operation code 0xD of format EV, B_START with `sel` 0 and B_STOP with `sel` 1; the bytes sent are
the two units' words (R210, R211, R92, R93). That the units TX_B_START and TX_B_STOP, given as words, run as the emission
itself, and send nothing when halted, is the model's reading (log entries 13 and 24). -/
def Obligations.ProtocolBCommandsAreSentAsPrinted : Prop :=
  ∀ startBytes stopBytes : List Byte,
    startBytes = [0xA5#8, 0x82#8, 0x00#8, 0x00#8, 0x00#8, 0x00#8, 0x00#8, 0x00#8, 0x22#8] →
    stopBytes = [0xA5#8, 0x25#8, 0xCA#8] →
    (∀ s : State,
      (∀ i : Instr, i = .bStart ∨ i = .txBStart → exec i s =
        if s.sys.halted = false then .next { s with out := { s.out with bTx := s.out.bTx ++ startBytes } }
        else .next s) ∧
      (∀ i : Instr, i = .bStop ∨ i = .txBStop → exec i s =
        if s.sys.halted = false then .next { s with out := { s.out with bTx := s.out.bTx ++ stopBytes } }
        else .next s)) ∧
    ∀ (c : Config) (e : EventWord),
      (e.op = 0xD#4 → e.sel = 0#1 → decode c (.ev e) = .ok .bStart) ∧
        (e.op = 0xD#4 → e.sel = 1#1 → decode c (.ev e) = .ok .bStop) ∧
        decode c (.tx startBytes) = .ok .txBStart ∧ decode c (.tx stopBytes) = .ok .txBStop

/-- An entry of a published scan is read as published, the same at every read; before the first publication the read
returns whatever the free value of that draw is (R209, R65, U6). -/
def Obligations.PublishedEntriesReadAsPublished : Prop :=
  ∀ (s : State) (k : Nat), k < s.cfg.bPublishLen →
    (∀ v, memFind s.protoB.pub k = some v → ∀ draw, readPub s draw k = .ok v) ∧
      (memFind s.protoB.pub k = none → ∀ draw, readPub s draw k = .ok (Config.freeSample draw))

/-! ### The whole machine -/

/-- The decoders run independently of the motion half: A_FILL, APOLL and B_RX neither read nor write a motion, PID,
wheel, tracker, command or actuator register, so replacing all of those commutes with them (R237, R200). -/
def Obligations.DecodersIgnoreTheMotionHalf : Prop :=
  ∀ (i : Instr) (s m t : State), ((∃ b, i = .aFill b) ∨ (∃ now, i = .apoll now) ∨ ∃ b, i = .bRx b) →
    exec i s = .next t →
    exec i (withMotionHalf s m) = .next (withMotionHalf t m) ∧ t = withMotionHalf t s

/-- No operation of the motion half writes a register or buffer of either decoder (R237). -/
def Obligations.MotionLeavesTheDecodersAlone : Prop :=
  ∀ (i : Instr) (s : State),
    ((∃ now, i = .mtick now) ∨ (∃ l r, i = .est l r) ∨ i = .drive ∨ (∃ gz, i = .gyro gz) ∨ (∃ b, i = .cmdRx b) ∨
      (∃ d v, i = .setIntent d v) ∨ i = .estop) →
    ∃ t, exec i s = .next t ∧ t.protoA = s.protoA ∧ t.protoB = s.protoB ∧ t.sys = s.sys ∧
      t.out.range = s.out.range ∧ t.out.pub = s.out.pub ∧ t.out.status = s.out.status ∧ t.out.bTx = s.out.bTx

/-- Only A_FILL writes the ring, apart from RESET; only Protocol B's bytes write the frame and scan buffers (R60, R28,
R29). -/
def Obligations.BuffersHaveOneWriter : Prop :=
  ∀ (i : Instr) (s t : State), exec i s = .next t → i ≠ .reset →
    (t.protoA.buf ≠ s.protoA.buf → ∃ b, i = .aFill b) ∧
      (t.protoB.buf ≠ s.protoB.buf ∨ t.protoB.work ≠ s.protoB.work ∨ t.protoB.pub ≠ s.protoB.pub →
        (∃ b, i = .bRx b) ∨ (∃ n, i = .bHdr1 n) ∨ (∃ n, i = .bHdr2 n) ∨ ∃ lo hi body, i = .bFrame lo hi body)

/-- No step changes the configuration ("The configuration never changes afterwards", R282; U9). -/
def Obligations.ConfigurationNeverChanges : Prop :=
  ∀ s t : State, step s = .next t → t.cfg = s.cfg

/-- An emission appends: no step takes back or reorders what was emitted on any port (R12, R32). -/
def Obligations.OutputsOnlyGrow : Prop :=
  ∀ s t : State, step s = .next t →
    s.out.range <+: t.out.range ∧ s.out.pub <+: t.out.pub ∧ s.out.tlm <+: t.out.tlm ∧ s.out.note <+: t.out.note ∧
      s.out.status <+: t.out.status ∧ s.out.bTx <+: t.out.bTx

/-! ### Words -/

/-- Decoding the word of a well-formed instruction gives it back, every operand at every value its encoding admits; where
the two header constants are equal, a lone second header byte is read as the first (R81, R82, R85 to R93; the last clause
is the model's choice, log entry 20). -/
def Obligations.DecodeInvertsEncode : Prop :=
  (∀ (c : Config) (i : Instr), i.wf c = true → (c.hdr1 = c.hdr2 → ∀ n, i ≠ .bHdr2 n) →
    decode c (encode c i) = .ok i) ∧
  ∀ (c : Config) (n : BitVec 4), c.hdr1 = c.hdr2 → decode c (encode c (.bHdr2 n)) = .ok (.bHdr1 n)

/-- Every word of a wire format that decodes is the word of the instruction it decodes to: no bit of it is dropped and
none has two meanings. No other word of a wire format stops the machine: its bytes are taken one at a time, the first by
this step and the rest left waiting. On Protocol B's channel a byte is a B_RX; at the Protocol-A assembly the sync byte is
A_SYNC, any other byte is discarded outside a packet and is the next packet byte inside one, and is lost when halted; an
empty word, and bytes the block does not send, change nothing (R85, R87, R89, R92 to R95, R184, R200, R234; that such a
word is cut into its bytes, one for each step, with no stall check before a byte at the Protocol-A assembly, is the model's
choice, log entry 31). -/
def Obligations.WireWordsHaveOneMeaning : Prop :=
  (∀ (c : Config) (w : PortWord) (i : Instr), (∀ e, w ≠ .ev e) →
    (∀ bytes now, w = .pa bytes now → now < 2 ^ c.timeBits) → decode c w = .ok i → encode c i = w) ∧
  ∀ (s : State) (w : PortWord) (rest : List PortWord) (why : DecodeError), s.inbox = w :: rest →
    decode s.cfg w = .error why →
    (∀ b bs, w = .pb (b :: bs) →
      step s = exec (.bRx b) { s with inbox := if bs = [] then rest else .pb bs :: rest }) ∧
    (∀ b bs now left, w = .pa (b :: bs) now → left = (if bs = [] then rest else .pa bs now :: rest) →
      (b = s.cfg.aSync → step s = exec (.aSync (now % 2 ^ s.cfg.timeBits)) { s with inbox := left }) ∧
      (b ≠ s.cfg.aSync → s.sys.halted = true ∨ s.protoA.inpkt = false → step s = .next { s with inbox := left }) ∧
      (b ≠ s.cfg.aSync → running s → s.protoA.inpkt = true → s.protoA.idx < 5 → s.cfg.rnd = .exact →
        ∃ t, step s = .next t ∧ afterByte { s with inbox := left } b (now % 2 ^ s.cfg.timeBits) t)) ∧
    ((∃ now, w = .pa [] now) ∨ w = .pb [] ∨ (∃ bytes, w = .tx bytes) → step s = .next { s with inbox := rest })

/-- Whatever decodes is well formed: operands within the widths of their ports, a CMD_IGNORED byte no command byte, a
frame of the configured length (R82, R86, R89). -/
def Obligations.DecodedInstructionsAreWellFormed : Prop :=
  ∀ (c : Config) (w : PortWord) (i : Instr), decode c w = .ok i → i.wf c = true

/-- A few words written out from the encodings decode to what they spell, one of every format: MTICK now=150, B_STOP,
'3', 'A', the sync byte, `AF 01 2D A0 0F`, two header bytes, the stop command (R81, R85, R86, R87, R89, R93). The two header
bytes are spelled with HDR1 = 0xA and HDR2 = 0x5, which R9 leaves open: those two values are the model's choice (log entry
2). -/
def Obligations.SpecWordsDecode : Prop :=
  decode Config.default (.ev { op := 0b0001#4, now := 150 }) = .ok (.mtick 150) ∧
    decode Config.default (.ev { op := 0b1101#4, sel := 0b1#1 }) = .ok .bStop ∧
    decode Config.default (.cb 0b00110011#8) = .ok .cmdLeft ∧
    decode Config.default (.cb 0b01000001#8) = .ok (.cmdIgnored 0x41#8) ∧
    decode Config.default (.pa [0b10100101#8] 7) = .ok (.aSync 7) ∧
    decode Config.default (.pa [0b10101111#8, 0b00000001#8, 0b00101101#8, 0b10100000#8, 0b00001111#8] 7) =
      .ok (.aPacket 7 { start := 1#1, quality := 47#7, angleQ6 := 5760#15, check := 1#1, distQ2 := 4000#16 }) ∧
    decode Config.default (.pb [0b10100111#8]) = .ok (.bHdr1 0x7#4) ∧
    decode Config.default (.pb [0b01011000#8]) = .ok (.bHdr2 0x8#4) ∧
    decode Config.default (.tx [0b10100101#8, 0b00100101#8, 0b11001010#8]) = .ok .txBStop

/-- A step takes the oldest waiting word off and runs the instruction it spells, at the state without that word; with
nothing waiting it changes nothing; an event word that spells nothing is refused with the decoder's reason (R81, R70, R281,
R84; that the words wait in a list and one step takes one of them is the model's choice, log entry 5). -/
def Obligations.StepRunsTheDecodedInstruction : Prop :=
  ∀ s : State,
    (s.inbox = [] → step s = .next s) ∧
    ∀ (w : PortWord) (rest : List PortWord), s.inbox = w :: rest →
      (∀ i : Instr, decode s.cfg w = .ok i → step s = exec i { s with inbox := rest }) ∧
      ∀ (e : EventWord) (why : DecodeError), w = .ev e → decode s.cfg w = .error why →
        step s = .refused (.undecodable why)

/-- A SET_INTENT with `dir` 6 or 7 is refused, whatever the other ports carry; codes 0 to 5 are not (R84, R21). Nothing
else is ever refused, neither an instruction nor a word of any format (R13). -/
def Obligations.ReservedDirectionIsRefused : Prop :=
  (∀ (s : State) (e : EventWord) (rest : List PortWord), s.inbox = .ev e :: rest → e.op = 0xA#4 →
    (e.dir = 6#3 ∨ e.dir = 7#3 → step s = .refused (.undecodable (.reservedDirection e.dir))) ∧
      (e.dir ≠ 6#3 → e.dir ≠ 7#3 → ∃ d : Direction, d.code = e.dir ∧
        step s = exec (.setIntent d e.speed) { s with inbox := rest })) ∧
    (∀ (s : State) (why : Refusal), step s = .refused why → ∃ (e : EventWord) (rest : List PortWord),
      s.inbox = .ev e :: rest ∧ e.op = 0xA#4 ∧ (e.dir = 6#3 ∨ e.dir = 7#3)) ∧
    ∀ (i : Instr) (s : State) (why : Refusal), exec i s ≠ .refused why

/-! ### Invariants -/

/-- The state after reset is sound, under every configuration within its constraints (R35, R37). -/
def Obligations.SoundAfterReset : Prop :=
  (∀ c : Config, c.wf = true → sound (State.initial c)) ∧ sound State.reset

/-- Every step keeps the motion half sound: speeds, setpoints, outputs and channels in range, STOP only at speed 0,
integrals 0 outside the driven directions, at most one channel of a wheel driven (R35 items 1 to 4 and 9), for every
rounding that is monotone and fixes 0 and the ends of the speed range. -/
def Obligations.EveryStepKeepsMotionSound : Prop :=
  ∀ s t : State, s.cfg.wf = true → roundsMonotonically s.cfg → motionInv s → pidInv s → actuatorInv s →
    step s = .next t → motionInv t ∧ pidInv t ∧ actuatorInv t

/-- Every step keeps the ring sound: cursors inside it, the entries between them written, the assembly's index below the
packet's length and 0 outside a packet, the buffer in canonical form (R35 items 5 and 8). -/
def Obligations.EveryStepKeepsTheRingSound : Prop :=
  ∀ s t : State, s.cfg.wf = true → ringInv s → step s = .next t → ringInv t

/-- Every step keeps the frame machine and the scan sound: the count inside the frame, the checksum the XOR of the bytes
collected so far, the sample counter a multiple of a frame's samples and within the threshold, the entries below it
written, the published scan whole or absent, the three buffers in canonical form (R35 items 6 and 7, R202, R64). -/
def Obligations.EveryStepKeepsTheFrameSound : Prop :=
  ∀ s t : State, s.cfg.wf = true → frameInv s → checksumInv s → step s = .next t → frameInv t ∧ checksumInv t

/-- Every step keeps the time stamps within the clock's width and the remembered counters within theirs (R23, R25, R28):
the ports carry nothing wider. -/
def Obligations.EveryStepKeepsRegisterWidths : Prop :=
  ∀ s t : State, widthInv s → step s = .next t → widthInv t

/-- From a state whose ring and frame are sound no step faults: no operation reads an entry nothing has written or uses
an index outside a buffer (R257, R13, R35 item 5, U4, U5). -/
def Obligations.SoundStatesNeverFault : Prop :=
  ∀ s : State, s.cfg.wf = true → ringInv s → frameInv s → ∀ f : Fault, step s ≠ .fault f
end

