-- ==== Sys2Proof/Laws/Memory.lean ====
section
/-! SUPPORT. The laws of a buffer: a read after a write, the entries a write leaves alone, and the canonical form kept by
every operation. -/

namespace Sys2Proof.Machine

variable {α : Type}

/-! ### Listed entries -/

@[simp] theorem memFind_nil (i : Nat) : memFind ([] : Memory α) i = none := rfl

theorem memFind_cons (j : Nat) (v : α) (m : Memory α) (i : Nat) :
    memFind ((j, v) :: m) i = if j = i then some v else memFind m i := rfl

/-- An entry that no index of the list names is not listed. -/
theorem memFind_eq_none {m : Memory α} {i : Nat} (h : ∀ e ∈ m, e.1 ≠ i) : memFind m i = none := by
  induction m with
  | nil => rfl
  | cons e m ih =>
    obtain ⟨j, v⟩ := e
    have hj : j ≠ i := h (j, v) (by simp)
    rw [memFind_cons, if_neg hj]
    exact ih fun e he => h e (by simp [he])

/-- A listed entry is a member of the list. -/
theorem mem_of_memFind {m : Memory α} {i : Nat} {v : α} (h : memFind m i = some v) : (i, v) ∈ m := by
  induction m with
  | nil => cases h
  | cons e m ih =>
    obtain ⟨j, u⟩ := e
    rw [memFind_cons] at h
    split at h
    · obtain ⟨rfl⟩ := h
      simp [*]
    · simp [ih h]

theorem memFind_memInsert_self (i : Nat) (v : α) (m : Memory α) : memFind (memInsert i v m) i = some v := by
  induction m with
  | nil => simp [memInsert, memFind_cons]
  | cons e m ih =>
    obtain ⟨j, u⟩ := e
    simp only [memInsert]
    split
    · simp [memFind_cons]
    · split
      · simp [memFind_cons]
      · rw [memFind_cons, if_neg (by omega), ih]

theorem memFind_memInsert_of_ne {i k : Nat} (h : k ≠ i) (v : α) (m : Memory α) :
    memFind (memInsert i v m) k = memFind m k := by
  induction m with
  | nil => simp [memInsert, memFind_cons, h.symm]
  | cons e m ih =>
    obtain ⟨j, u⟩ := e
    simp only [memInsert]
    split
    · rw [memFind_cons, if_neg h.symm]
    · split
      · rename_i hij
        subst hij
        rw [memFind_cons, memFind_cons, if_neg h.symm, if_neg h.symm]
      · rw [memFind_cons, memFind_cons, ih]

/-- What a write lists: the entry it names, and every other as before. -/
theorem memFind_memInsert (i k : Nat) (v : α) (m : Memory α) :
    memFind (memInsert i v m) k = if k = i then some v else memFind m k := by
  split
  · subst k
    exact memFind_memInsert_self i v m
  · exact memFind_memInsert_of_ne ‹_› v m

theorem memFind_memErase_of_ne {i k : Nat} (h : k ≠ i) (m : Memory α) : memFind (memErase i m) k = memFind m k := by
  induction m with
  | nil => rfl
  | cons e m ih =>
    obtain ⟨j, u⟩ := e
    simp only [memErase]
    split
    · rename_i hij
      subst hij
      rw [memFind_cons, if_neg h.symm]
    · rw [memFind_cons, memFind_cons, ih]

/-- The indices of a list whose indices rise are all above its first. -/
theorem lt_of_rising {j : Nat} {u : α} {m : Memory α} (h : (((j, u) :: m).map Prod.fst).Pairwise (· < ·)) :
    ∀ e ∈ m, j < e.1 := by
  intro e he
  simp only [List.map_cons, List.pairwise_cons] at h
  exact h.1 e.1 (List.mem_map_of_mem he)

theorem rising_tail {e : Nat × α} {m : Memory α} (h : ((e :: m).map Prod.fst).Pairwise (· < ·)) :
    (m.map Prod.fst).Pairwise (· < ·) := by
  simp only [List.map_cons, List.pairwise_cons] at h
  exact h.2

/-- With rising indices an erased entry is not listed. -/
theorem memFind_memErase_self {m : Memory α} (h : (m.map Prod.fst).Pairwise (· < ·)) (i : Nat) :
    memFind (memErase i m) i = none := by
  induction m with
  | nil => rfl
  | cons e m ih =>
    obtain ⟨j, u⟩ := e
    simp only [memErase]
    split
    · rename_i hij
      subst hij
      exact memFind_eq_none fun e he => by have := lt_of_rising h e he; omega
    · rw [memFind_cons, if_neg (by omega), ih (rising_tail h)]

/-! ### Members and order -/

theorem mem_memInsert {i : Nat} {v : α} {m : Memory α} {e : Nat × α} (h : e ∈ memInsert i v m) :
    e = (i, v) ∨ e ∈ m := by
  induction m with
  | nil => simpa [memInsert] using h
  | cons d m ih =>
    obtain ⟨j, u⟩ := d
    simp only [memInsert] at h
    split at h
    · simpa using h
    · split at h
      · rcases List.mem_cons.1 h with h | h
        · exact .inl h
        · exact .inr (by simp [h])
      · rcases List.mem_cons.1 h with h | h
        · exact .inr (by simp [h])
        · exact (ih h).imp_right fun h => by simp [h]

theorem mem_memErase {i : Nat} {m : Memory α} {e : Nat × α} (h : e ∈ memErase i m) : e ∈ m := by
  induction m with
  | nil => exact h
  | cons d m ih =>
    obtain ⟨j, u⟩ := d
    simp only [memErase] at h
    split at h
    · simp [h]
    · rcases List.mem_cons.1 h with h | h
      · simp [h]
      · simp [ih h]

theorem memInsert_rising (i : Nat) (v : α) {m : Memory α} (h : (m.map Prod.fst).Pairwise (· < ·)) :
    ((memInsert i v m).map Prod.fst).Pairwise (· < ·) := by
  induction m with
  | nil => simp [memInsert]
  | cons d m ih =>
    obtain ⟨j, u⟩ := d
    have hj := lt_of_rising h
    simp only [memInsert]
    split
    · rename_i hij
      simp only [List.map_cons, List.pairwise_cons] at h ⊢
      refine ⟨fun k hk => ?_, h⟩
      rcases List.mem_cons.1 hk with rfl | hk
      · exact hij
      · exact Nat.lt_trans hij (h.1 k hk)
    · split
      · rename_i hij
        subst hij
        exact h
      · simp only [List.map_cons, List.pairwise_cons]
        refine ⟨fun k hk => ?_, ih (rising_tail h)⟩
        obtain ⟨e, he, rfl⟩ := List.mem_map.1 hk
        rcases mem_memInsert he with rfl | he
        · show j < i
          omega
        · exact hj e he

theorem memErase_rising (i : Nat) {m : Memory α} (h : (m.map Prod.fst).Pairwise (· < ·)) :
    ((memErase i m).map Prod.fst).Pairwise (· < ·) := by
  induction m with
  | nil => simp [memErase]
  | cons d m ih =>
    obtain ⟨j, u⟩ := d
    have hj := lt_of_rising h
    simp only [memErase]
    split
    · exact rising_tail h
    · simp only [List.map_cons, List.pairwise_cons]
      refine ⟨fun k hk => ?_, ih (rising_tail h)⟩
      obtain ⟨e, he, rfl⟩ := List.mem_map.1 hk
      exact hj e (mem_memErase he)

/-! ### The canonical form -/

variable [DecidableEq α]

/-- The canonical form, said entry by entry. -/
theorem memory_wf_iff (unlisted : Option α) (size : Nat) (m : Memory α) :
    Memory.wf unlisted size m = true ↔
      (m.map Prod.fst).Pairwise (· < ·) ∧ ∀ e ∈ m, e.1 < size ∧ unlisted ≠ some e.2 := by
  simp [Memory.wf, List.all_eq_true]

/-- The empty buffer, what every buffer is at reset, is in canonical form. -/
@[simp] theorem memory_wf_nil (unlisted : Option α) (size : Nat) :
    Memory.wf unlisted size ([] : Memory α) = true := by
  simp [Memory.wf]

/-- A write inside the buffer keeps the canonical form. -/
theorem memory_wf_memSet {unlisted : Option α} {size : Nat} {m : Memory α} {i : Nat} (v : α)
    (h : Memory.wf unlisted size m = true) (hi : i < size) :
    Memory.wf unlisted size (memSet unlisted m i v) = true := by
  rw [memory_wf_iff] at h ⊢
  unfold memSet
  split
  · exact ⟨memErase_rising i h.1, fun e he => h.2 e (mem_memErase he)⟩
  · refine ⟨memInsert_rising i v h.1, fun e he => ?_⟩
    rcases mem_memInsert he with rfl | he
    · exact ⟨hi, ‹_›⟩
    · exact h.2 e he

/-- A canonical buffer lists nothing outside itself. -/
theorem memFind_of_size_le {unlisted : Option α} {size : Nat} {m : Memory α} (h : Memory.wf unlisted size m = true)
    {i : Nat} (hi : size ≤ i) : memFind m i = none :=
  memFind_eq_none fun e he => by
    have := ((memory_wf_iff unlisted size m).1 h).2 e he
    omega

/-- A read after a write of the same entry gives the value written. -/
theorem memGet_memSet_self {unlisted : Option α} {size : Nat} {m : Memory α} (h : Memory.wf unlisted size m = true)
    (i : Nat) (v : α) : memGet unlisted (memSet unlisted m i v) i = some v := by
  unfold memSet
  split
  · rename_i hv
    simp only [memGet, memFind_memErase_self ((memory_wf_iff _ _ _).1 h).1, hv]
  · simp only [memGet, memFind_memInsert_self]

/-- A write leaves every other entry alone. -/
theorem memGet_memSet_of_ne {unlisted : Option α} {i k : Nat} (h : k ≠ i) (m : Memory α) (v : α) :
    memGet unlisted (memSet unlisted m i v) k = memGet unlisted m k := by
  unfold memSet
  split
  · simp only [memGet, memFind_memErase_of_ne h]
  · simp only [memGet, memFind_memInsert_of_ne h]

/-- Where an unlisted entry has no value, a write lists its entry. -/
@[simp] theorem memSet_none (m : Memory α) (i : Nat) (v : α) : memSet none m i v = memInsert i v m := by
  simp [memSet]

omit [DecidableEq α] in
/-- Where an unlisted entry has no value, a read is the listed value. -/
@[simp] theorem memGet_none (m : Memory α) (i : Nat) : memGet none m i = memFind m i := by
  unfold memGet
  cases memFind m i <;> rfl

@[simp] theorem unlistedByte_aBuf : unlistedByte .aBuf = none := rfl
@[simp] theorem unlistedByte_bBuf : unlistedByte .bBuf = some 0#8 := rfl
@[simp] theorem unlistedPair_eq : unlistedPair = none := rfl

end Sys2Proof.Machine
end

