-- ==== Sys2Proof/Laws/State.lean ====
section
/-! SUPPORT. One lemma per component for every shared operation that only updates records: what it leaves alone and, where
it is short, what it writes. Later proofs rewrite with these and unfold no update. -/

namespace Sys2Proof.Machine

/-! ### Per-wheel register files -/

@[simp] theorem perWheel_get_l {α : Type} (p : PerWheel α) : p.get .l = p.l := rfl
@[simp] theorem perWheel_get_r {α : Type} (p : PerWheel α) : p.get .r = p.r := rfl
@[simp] theorem perWheel_set_l {α : Type} (p : PerWheel α) (v : α) : p.set .l v = ⟨v, p.r⟩ := rfl
@[simp] theorem perWheel_set_r {α : Type} (p : PerWheel α) (v : α) : p.set .r v = ⟨p.l, v⟩ := rfl

/-! ### `setCdir`: writes `motion.cdir` and, outside the driven directions, the integrals -/

@[simp] theorem setCdir_cfg (d : Direction) (s : State) : (setCdir d s).cfg = s.cfg := by cases d <;> rfl
@[simp] theorem setCdir_wheel (d : Direction) (s : State) : (setCdir d s).wheel = s.wheel := by cases d <;> rfl
@[simp] theorem setCdir_turn (d : Direction) (s : State) : (setCdir d s).turn = s.turn := by cases d <;> rfl
@[simp] theorem setCdir_cmd (d : Direction) (s : State) : (setCdir d s).cmd = s.cmd := by cases d <;> rfl
@[simp] theorem setCdir_protoA (d : Direction) (s : State) : (setCdir d s).protoA = s.protoA := by cases d <;> rfl
@[simp] theorem setCdir_protoB (d : Direction) (s : State) : (setCdir d s).protoB = s.protoB := by cases d <;> rfl
@[simp] theorem setCdir_act (d : Direction) (s : State) : (setCdir d s).act = s.act := by cases d <;> rfl
@[simp] theorem setCdir_sys (d : Direction) (s : State) : (setCdir d s).sys = s.sys := by cases d <;> rfl
@[simp] theorem setCdir_out (d : Direction) (s : State) : (setCdir d s).out = s.out := by cases d <;> rfl
@[simp] theorem setCdir_inbox (d : Direction) (s : State) : (setCdir d s).inbox = s.inbox := by cases d <;> rfl
@[simp] theorem setCdir_motion (d : Direction) (s : State) : (setCdir d s).motion = { s.motion with cdir := d } := by
  cases d <;> rfl
@[simp] theorem setCdir_pid (d : Direction) (s : State) :
    (setCdir d s).pid = if driven d = true then s.pid
      else ⟨{ s.pid.l with integral := 0 }, { s.pid.r with integral := 0 }⟩ := by
  cases d <;> rfl

/-! ### `actuate`: writes one wheel's pair of channels -/

@[simp] theorem actuate_cfg (w : Wheel) (v : Rat) (s : State) : (actuate w v s).cfg = s.cfg := by cases w <;> rfl
@[simp] theorem actuate_motion (w : Wheel) (v : Rat) (s : State) : (actuate w v s).motion = s.motion :=
  by cases w <;> rfl
@[simp] theorem actuate_pid (w : Wheel) (v : Rat) (s : State) : (actuate w v s).pid = s.pid := by cases w <;> rfl
@[simp] theorem actuate_wheel (w : Wheel) (v : Rat) (s : State) : (actuate w v s).wheel = s.wheel := by cases w <;> rfl
@[simp] theorem actuate_turn (w : Wheel) (v : Rat) (s : State) : (actuate w v s).turn = s.turn := by cases w <;> rfl
@[simp] theorem actuate_cmd (w : Wheel) (v : Rat) (s : State) : (actuate w v s).cmd = s.cmd := by cases w <;> rfl
@[simp] theorem actuate_protoA (w : Wheel) (v : Rat) (s : State) : (actuate w v s).protoA = s.protoA :=
  by cases w <;> rfl
@[simp] theorem actuate_protoB (w : Wheel) (v : Rat) (s : State) : (actuate w v s).protoB = s.protoB :=
  by cases w <;> rfl
@[simp] theorem actuate_sys (w : Wheel) (v : Rat) (s : State) : (actuate w v s).sys = s.sys := by cases w <;> rfl
@[simp] theorem actuate_out (w : Wheel) (v : Rat) (s : State) : (actuate w v s).out = s.out := by cases w <;> rfl
@[simp] theorem actuate_inbox (w : Wheel) (v : Rat) (s : State) : (actuate w v s).inbox = s.inbox := by cases w <;> rfl
@[simp] theorem actuate_l_act (v : Rat) (s : State) :
    (actuate .l v s).act = { s.act with la := if 0 < v then v else 0, lb := if v < 0 then -v else 0 } := rfl
@[simp] theorem actuate_r_act (v : Rat) (s : State) :
    (actuate .r v s).act = { s.act with ra := if 0 < v then v else 0, rb := if v < 0 then -v else 0 } := rfl

/-! ### `stopAct`: zeroes the channels -/

@[simp] theorem stopAct_cfg (s : State) : (stopAct s).cfg = s.cfg := rfl
@[simp] theorem stopAct_motion (s : State) : (stopAct s).motion = s.motion := rfl
@[simp] theorem stopAct_pid (s : State) : (stopAct s).pid = s.pid := rfl
@[simp] theorem stopAct_wheel (s : State) : (stopAct s).wheel = s.wheel := rfl
@[simp] theorem stopAct_turn (s : State) : (stopAct s).turn = s.turn := rfl
@[simp] theorem stopAct_cmd (s : State) : (stopAct s).cmd = s.cmd := rfl
@[simp] theorem stopAct_protoA (s : State) : (stopAct s).protoA = s.protoA := rfl
@[simp] theorem stopAct_protoB (s : State) : (stopAct s).protoB = s.protoB := rfl
@[simp] theorem stopAct_sys (s : State) : (stopAct s).sys = s.sys := rfl
@[simp] theorem stopAct_out (s : State) : (stopAct s).out = s.out := rfl
@[simp] theorem stopAct_inbox (s : State) : (stopAct s).inbox = s.inbox := rfl
@[simp] theorem stopAct_act (s : State) : (stopAct s).act = ⟨0, 0, 0, 0⟩ := rfl

/-! ### `turnAct`: writes the channels -/

@[simp] theorem turnAct_cfg (d : Direction) (s : State) : (turnAct d s).cfg = s.cfg := by cases d <;> rfl
@[simp] theorem turnAct_motion (d : Direction) (s : State) : (turnAct d s).motion = s.motion := by cases d <;> rfl
@[simp] theorem turnAct_pid (d : Direction) (s : State) : (turnAct d s).pid = s.pid := by cases d <;> rfl
@[simp] theorem turnAct_wheel (d : Direction) (s : State) : (turnAct d s).wheel = s.wheel := by cases d <;> rfl
@[simp] theorem turnAct_turn (d : Direction) (s : State) : (turnAct d s).turn = s.turn := by cases d <;> rfl
@[simp] theorem turnAct_cmd (d : Direction) (s : State) : (turnAct d s).cmd = s.cmd := by cases d <;> rfl
@[simp] theorem turnAct_protoA (d : Direction) (s : State) : (turnAct d s).protoA = s.protoA := by cases d <;> rfl
@[simp] theorem turnAct_protoB (d : Direction) (s : State) : (turnAct d s).protoB = s.protoB := by cases d <;> rfl
@[simp] theorem turnAct_sys (d : Direction) (s : State) : (turnAct d s).sys = s.sys := by cases d <;> rfl
@[simp] theorem turnAct_out (d : Direction) (s : State) : (turnAct d s).out = s.out := by cases d <;> rfl
@[simp] theorem turnAct_inbox (d : Direction) (s : State) : (turnAct d s).inbox = s.inbox := by cases d <;> rfl

/-! ### `clearTrackers`: writes the trackers -/

@[simp] theorem clearTrackers_cfg (s : State) : (clearTrackers s).cfg = s.cfg := rfl
@[simp] theorem clearTrackers_motion (s : State) : (clearTrackers s).motion = s.motion := rfl
@[simp] theorem clearTrackers_pid (s : State) : (clearTrackers s).pid = s.pid := rfl
@[simp] theorem clearTrackers_wheel (s : State) : (clearTrackers s).wheel = s.wheel := rfl
@[simp] theorem clearTrackers_cmd (s : State) : (clearTrackers s).cmd = s.cmd := rfl
@[simp] theorem clearTrackers_protoA (s : State) : (clearTrackers s).protoA = s.protoA := rfl
@[simp] theorem clearTrackers_protoB (s : State) : (clearTrackers s).protoB = s.protoB := rfl
@[simp] theorem clearTrackers_act (s : State) : (clearTrackers s).act = s.act := rfl
@[simp] theorem clearTrackers_sys (s : State) : (clearTrackers s).sys = s.sys := rfl
@[simp] theorem clearTrackers_out (s : State) : (clearTrackers s).out = s.out := rfl
@[simp] theorem clearTrackers_inbox (s : State) : (clearTrackers s).inbox = s.inbox := rfl
@[simp] theorem clearTrackers_turn (s : State) :
    (clearTrackers s).turn = { s.turn with atActive := false, atAcc := 0, utActive := false, utAcc := 0 } := rfl

/-! ### `forceStop`: writes the motion registers, the integrals and the channels -/

@[simp] theorem forceStop_cfg (s : State) : (forceStop s).cfg = s.cfg := rfl
@[simp] theorem forceStop_wheel (s : State) : (forceStop s).wheel = s.wheel := rfl
@[simp] theorem forceStop_turn (s : State) : (forceStop s).turn = s.turn := rfl
@[simp] theorem forceStop_cmd (s : State) : (forceStop s).cmd = s.cmd := rfl
@[simp] theorem forceStop_protoA (s : State) : (forceStop s).protoA = s.protoA := rfl
@[simp] theorem forceStop_protoB (s : State) : (forceStop s).protoB = s.protoB := rfl
@[simp] theorem forceStop_sys (s : State) : (forceStop s).sys = s.sys := rfl
@[simp] theorem forceStop_out (s : State) : (forceStop s).out = s.out := rfl
@[simp] theorem forceStop_inbox (s : State) : (forceStop s).inbox = s.inbox := rfl
@[simp] theorem forceStop_motion (s : State) :
    (forceStop s).motion = { tdir := .stop, cdir := .stop, tspeed := 0, cspeed := 0, last := s.motion.last } := rfl
@[simp] theorem forceStop_pid (s : State) :
    (forceStop s).pid = ⟨{ s.pid.l with integral := 0 }, { s.pid.r with integral := 0 }⟩ := rfl
@[simp] theorem forceStop_act (s : State) : (forceStop s).act = ⟨0, 0, 0, 0⟩ := rfl

/-! ### `turnSwitch`: writes the motion registers, the integrals and the channels -/

@[simp] theorem turnSwitch_cfg (d : Direction) (s : State) : (turnSwitch d s).cfg = s.cfg := by cases d <;> rfl
@[simp] theorem turnSwitch_wheel (d : Direction) (s : State) : (turnSwitch d s).wheel = s.wheel := by cases d <;> rfl
@[simp] theorem turnSwitch_turn (d : Direction) (s : State) : (turnSwitch d s).turn = s.turn := by cases d <;> rfl
@[simp] theorem turnSwitch_cmd (d : Direction) (s : State) : (turnSwitch d s).cmd = s.cmd := by cases d <;> rfl
@[simp] theorem turnSwitch_protoA (d : Direction) (s : State) : (turnSwitch d s).protoA = s.protoA := by cases d <;> rfl
@[simp] theorem turnSwitch_protoB (d : Direction) (s : State) : (turnSwitch d s).protoB = s.protoB := by cases d <;> rfl
@[simp] theorem turnSwitch_sys (d : Direction) (s : State) : (turnSwitch d s).sys = s.sys := by cases d <;> rfl
@[simp] theorem turnSwitch_out (d : Direction) (s : State) : (turnSwitch d s).out = s.out := by cases d <;> rfl
@[simp] theorem turnSwitch_inbox (d : Direction) (s : State) : (turnSwitch d s).inbox = s.inbox := by cases d <;> rfl
@[simp] theorem turnSwitch_motion (d : Direction) (s : State) :
    (turnSwitch d s).motion =
      { tdir := d, cdir := d, tspeed := s.cfg.turnSpeed, cspeed := s.cfg.turnSpeed, last := s.motion.last } := by
  cases d <;> rfl

/-! ### `rearm`: writes one channel's armed bit -/

@[simp] theorem rearm_cfg (ch : Channel) (s : State) : (rearm ch s).cfg = s.cfg := by cases ch <;> rfl
@[simp] theorem rearm_motion (ch : Channel) (s : State) : (rearm ch s).motion = s.motion := by cases ch <;> rfl
@[simp] theorem rearm_pid (ch : Channel) (s : State) : (rearm ch s).pid = s.pid := by cases ch <;> rfl
@[simp] theorem rearm_wheel (ch : Channel) (s : State) : (rearm ch s).wheel = s.wheel := by cases ch <;> rfl
@[simp] theorem rearm_turn (ch : Channel) (s : State) : (rearm ch s).turn = s.turn := by cases ch <;> rfl
@[simp] theorem rearm_protoA (ch : Channel) (s : State) : (rearm ch s).protoA = s.protoA := by cases ch <;> rfl
@[simp] theorem rearm_act (ch : Channel) (s : State) : (rearm ch s).act = s.act := by cases ch <;> rfl
@[simp] theorem rearm_sys (ch : Channel) (s : State) : (rearm ch s).sys = s.sys := by cases ch <;> rfl
@[simp] theorem rearm_out (ch : Channel) (s : State) : (rearm ch s).out = s.out := by cases ch <;> rfl
@[simp] theorem rearm_inbox (ch : Channel) (s : State) : (rearm ch s).inbox = s.inbox := by cases ch <;> rfl

/-! ### `recover`: the recovery of a condition -/

@[simp] theorem recover_cfg (k : Condition) (s : State) : (recover k s).cfg = s.cfg := by cases k <;> rfl
@[simp] theorem recover_motion (k : Condition) (s : State) : (recover k s).motion = s.motion := by cases k <;> rfl
@[simp] theorem recover_pid (k : Condition) (s : State) : (recover k s).pid = s.pid := by cases k <;> rfl
@[simp] theorem recover_wheel (k : Condition) (s : State) : (recover k s).wheel = s.wheel := by cases k <;> rfl
@[simp] theorem recover_turn (k : Condition) (s : State) : (recover k s).turn = s.turn := by cases k <;> rfl
@[simp] theorem recover_cmd (k : Condition) (s : State) : (recover k s).cmd = s.cmd := by cases k <;> rfl
@[simp] theorem recover_act (k : Condition) (s : State) : (recover k s).act = s.act := by cases k <;> rfl
@[simp] theorem recover_out (k : Condition) (s : State) : (recover k s).out = s.out := by cases k <;> rfl
@[simp] theorem recover_inbox (k : Condition) (s : State) : (recover k s).inbox = s.inbox := by cases k <;> rfl

/-! ### `raiseCondition`: the recovery of a condition and its report -/

@[simp] theorem raiseCondition_cfg (k : Condition) (s : State) : (raiseCondition k s).cfg = s.cfg := by cases k <;> rfl
@[simp] theorem raiseCondition_motion (k : Condition) (s : State) : (raiseCondition k s).motion = s.motion :=
  by cases k <;> rfl
@[simp] theorem raiseCondition_pid (k : Condition) (s : State) : (raiseCondition k s).pid = s.pid := by cases k <;> rfl
@[simp] theorem raiseCondition_wheel (k : Condition) (s : State) : (raiseCondition k s).wheel = s.wheel :=
  by cases k <;> rfl
@[simp] theorem raiseCondition_turn (k : Condition) (s : State) : (raiseCondition k s).turn = s.turn :=
  by cases k <;> rfl
@[simp] theorem raiseCondition_cmd (k : Condition) (s : State) : (raiseCondition k s).cmd = s.cmd := by cases k <;> rfl
@[simp] theorem raiseCondition_act (k : Condition) (s : State) : (raiseCondition k s).act = s.act := by cases k <;> rfl
@[simp] theorem raiseCondition_inbox (k : Condition) (s : State) : (raiseCondition k s).inbox = s.inbox :=
  by cases k <;> rfl

/-! ### `emitRange`: appends one record to `out.range` -/

@[simp] theorem emitRange_cfg (r : RangeReading) (s : State) : (emitRange r s).cfg = s.cfg := rfl
@[simp] theorem emitRange_motion (r : RangeReading) (s : State) : (emitRange r s).motion = s.motion := rfl
@[simp] theorem emitRange_pid (r : RangeReading) (s : State) : (emitRange r s).pid = s.pid := rfl
@[simp] theorem emitRange_wheel (r : RangeReading) (s : State) : (emitRange r s).wheel = s.wheel := rfl
@[simp] theorem emitRange_turn (r : RangeReading) (s : State) : (emitRange r s).turn = s.turn := rfl
@[simp] theorem emitRange_cmd (r : RangeReading) (s : State) : (emitRange r s).cmd = s.cmd := rfl
@[simp] theorem emitRange_protoA (r : RangeReading) (s : State) : (emitRange r s).protoA = s.protoA := rfl
@[simp] theorem emitRange_protoB (r : RangeReading) (s : State) : (emitRange r s).protoB = s.protoB := rfl
@[simp] theorem emitRange_act (r : RangeReading) (s : State) : (emitRange r s).act = s.act := rfl
@[simp] theorem emitRange_sys (r : RangeReading) (s : State) : (emitRange r s).sys = s.sys := rfl
@[simp] theorem emitRange_inbox (r : RangeReading) (s : State) : (emitRange r s).inbox = s.inbox := rfl
@[simp] theorem emitRange_out (r : RangeReading) (s : State) :
    (emitRange r s).out = { s.out with range := s.out.range ++ [r] } :=
  rfl

/-! ### `emitTelemetry`: appends one record to `out.tlm` -/

@[simp] theorem emitTelemetry_cfg (r : Telemetry) (s : State) : (emitTelemetry r s).cfg = s.cfg := rfl
@[simp] theorem emitTelemetry_motion (r : Telemetry) (s : State) : (emitTelemetry r s).motion = s.motion := rfl
@[simp] theorem emitTelemetry_pid (r : Telemetry) (s : State) : (emitTelemetry r s).pid = s.pid := rfl
@[simp] theorem emitTelemetry_wheel (r : Telemetry) (s : State) : (emitTelemetry r s).wheel = s.wheel := rfl
@[simp] theorem emitTelemetry_turn (r : Telemetry) (s : State) : (emitTelemetry r s).turn = s.turn := rfl
@[simp] theorem emitTelemetry_cmd (r : Telemetry) (s : State) : (emitTelemetry r s).cmd = s.cmd := rfl
@[simp] theorem emitTelemetry_protoA (r : Telemetry) (s : State) : (emitTelemetry r s).protoA = s.protoA := rfl
@[simp] theorem emitTelemetry_protoB (r : Telemetry) (s : State) : (emitTelemetry r s).protoB = s.protoB := rfl
@[simp] theorem emitTelemetry_act (r : Telemetry) (s : State) : (emitTelemetry r s).act = s.act := rfl
@[simp] theorem emitTelemetry_sys (r : Telemetry) (s : State) : (emitTelemetry r s).sys = s.sys := rfl
@[simp] theorem emitTelemetry_inbox (r : Telemetry) (s : State) : (emitTelemetry r s).inbox = s.inbox := rfl
@[simp] theorem emitTelemetry_out (r : Telemetry) (s : State) :
    (emitTelemetry r s).out = { s.out with tlm := s.out.tlm ++ [r] } :=
  rfl

/-! ### `emitNotice`: appends one record to `out.note` -/

@[simp] theorem emitNotice_cfg (r : Notice) (s : State) : (emitNotice r s).cfg = s.cfg := rfl
@[simp] theorem emitNotice_motion (r : Notice) (s : State) : (emitNotice r s).motion = s.motion := rfl
@[simp] theorem emitNotice_pid (r : Notice) (s : State) : (emitNotice r s).pid = s.pid := rfl
@[simp] theorem emitNotice_wheel (r : Notice) (s : State) : (emitNotice r s).wheel = s.wheel := rfl
@[simp] theorem emitNotice_turn (r : Notice) (s : State) : (emitNotice r s).turn = s.turn := rfl
@[simp] theorem emitNotice_cmd (r : Notice) (s : State) : (emitNotice r s).cmd = s.cmd := rfl
@[simp] theorem emitNotice_protoA (r : Notice) (s : State) : (emitNotice r s).protoA = s.protoA := rfl
@[simp] theorem emitNotice_protoB (r : Notice) (s : State) : (emitNotice r s).protoB = s.protoB := rfl
@[simp] theorem emitNotice_act (r : Notice) (s : State) : (emitNotice r s).act = s.act := rfl
@[simp] theorem emitNotice_sys (r : Notice) (s : State) : (emitNotice r s).sys = s.sys := rfl
@[simp] theorem emitNotice_inbox (r : Notice) (s : State) : (emitNotice r s).inbox = s.inbox := rfl
@[simp] theorem emitNotice_out (r : Notice) (s : State) :
    (emitNotice r s).out = { s.out with note := s.out.note ++ [r] } :=
  rfl

/-! ### `emitStatus`: appends one record to `out.status` -/

@[simp] theorem emitStatus_cfg (r : Condition) (s : State) : (emitStatus r s).cfg = s.cfg := rfl
@[simp] theorem emitStatus_motion (r : Condition) (s : State) : (emitStatus r s).motion = s.motion := rfl
@[simp] theorem emitStatus_pid (r : Condition) (s : State) : (emitStatus r s).pid = s.pid := rfl
@[simp] theorem emitStatus_wheel (r : Condition) (s : State) : (emitStatus r s).wheel = s.wheel := rfl
@[simp] theorem emitStatus_turn (r : Condition) (s : State) : (emitStatus r s).turn = s.turn := rfl
@[simp] theorem emitStatus_cmd (r : Condition) (s : State) : (emitStatus r s).cmd = s.cmd := rfl
@[simp] theorem emitStatus_protoA (r : Condition) (s : State) : (emitStatus r s).protoA = s.protoA := rfl
@[simp] theorem emitStatus_protoB (r : Condition) (s : State) : (emitStatus r s).protoB = s.protoB := rfl
@[simp] theorem emitStatus_act (r : Condition) (s : State) : (emitStatus r s).act = s.act := rfl
@[simp] theorem emitStatus_sys (r : Condition) (s : State) : (emitStatus r s).sys = s.sys := rfl
@[simp] theorem emitStatus_inbox (r : Condition) (s : State) : (emitStatus r s).inbox = s.inbox := rfl
@[simp] theorem emitStatus_out (r : Condition) (s : State) :
    (emitStatus r s).out = { s.out with status := s.out.status ++ [r] } :=
  rfl

/-! ### `emitScan`: appends one strobe to `out.pub` -/

@[simp] theorem emitScan_cfg (s : State) : (emitScan s).cfg = s.cfg := rfl
@[simp] theorem emitScan_motion (s : State) : (emitScan s).motion = s.motion := rfl
@[simp] theorem emitScan_pid (s : State) : (emitScan s).pid = s.pid := rfl
@[simp] theorem emitScan_wheel (s : State) : (emitScan s).wheel = s.wheel := rfl
@[simp] theorem emitScan_turn (s : State) : (emitScan s).turn = s.turn := rfl
@[simp] theorem emitScan_cmd (s : State) : (emitScan s).cmd = s.cmd := rfl
@[simp] theorem emitScan_protoA (s : State) : (emitScan s).protoA = s.protoA := rfl
@[simp] theorem emitScan_protoB (s : State) : (emitScan s).protoB = s.protoB := rfl
@[simp] theorem emitScan_act (s : State) : (emitScan s).act = s.act := rfl
@[simp] theorem emitScan_sys (s : State) : (emitScan s).sys = s.sys := rfl
@[simp] theorem emitScan_inbox (s : State) : (emitScan s).inbox = s.inbox := rfl
@[simp] theorem emitScan_out (s : State) : (emitScan s).out = { s.out with pub := s.out.pub ++ [.newScan] } := rfl

/-! ### `emitBytes`: appends bytes to `out.bTx` -/

@[simp] theorem emitBytes_cfg (bs : List Byte) (s : State) : (emitBytes bs s).cfg = s.cfg := rfl
@[simp] theorem emitBytes_motion (bs : List Byte) (s : State) : (emitBytes bs s).motion = s.motion := rfl
@[simp] theorem emitBytes_pid (bs : List Byte) (s : State) : (emitBytes bs s).pid = s.pid := rfl
@[simp] theorem emitBytes_wheel (bs : List Byte) (s : State) : (emitBytes bs s).wheel = s.wheel := rfl
@[simp] theorem emitBytes_turn (bs : List Byte) (s : State) : (emitBytes bs s).turn = s.turn := rfl
@[simp] theorem emitBytes_cmd (bs : List Byte) (s : State) : (emitBytes bs s).cmd = s.cmd := rfl
@[simp] theorem emitBytes_protoA (bs : List Byte) (s : State) : (emitBytes bs s).protoA = s.protoA := rfl
@[simp] theorem emitBytes_protoB (bs : List Byte) (s : State) : (emitBytes bs s).protoB = s.protoB := rfl
@[simp] theorem emitBytes_act (bs : List Byte) (s : State) : (emitBytes bs s).act = s.act := rfl
@[simp] theorem emitBytes_sys (bs : List Byte) (s : State) : (emitBytes bs s).sys = s.sys := rfl
@[simp] theorem emitBytes_inbox (bs : List Byte) (s : State) : (emitBytes bs s).inbox = s.inbox := rfl
@[simp] theorem emitBytes_out (bs : List Byte) (s : State) :
    (emitBytes bs s).out = { s.out with bTx := s.out.bTx ++ bs } := rfl

end Sys2Proof.Machine
end

