-- ==== Sys2Proof/Laws/Ops.lean ====
section
/-! SUPPORT. One lemma per shared operation that says once everything it can do: the two outcome guards, the sequencing
of operations that may fault, the buffer accesses, the arithmetic. -/

namespace Sys2Proof.Machine

/-! ### Outcomes -/

@[simp] theorem runs_of_running {op : State → State} {s : State} (h : s.sys.halted = false) :
    runs op s = .next (op s) := by simp [runs, h]

@[simp] theorem runs_of_halted {op : State → State} {s : State} (h : s.sys.halted = true) : runs op s = .next s := by
  simp [runs, h]

/-- An operation that cannot stop answers one next state: its own, or the same one when halted. -/
theorem runs_cases {op : State → State} {s t : State} (h : runs op s = .next t) :
    s.sys.halted = true ∧ t = s ∨ s.sys.halted = false ∧ t = op s := by
  unfold runs at h
  injection h with h
  split at h
  · exact .inl ⟨‹_›, h.symm⟩
  · exact .inr ⟨Bool.eq_false_of_not_eq_true ‹_›, h.symm⟩

@[simp] theorem attempts_of_halted {op : State → Except Fault State} {s : State} (h : s.sys.halted = true) :
    attempts op s = .next s := by simp [attempts, h]

theorem attempts_of_ok {op : State → Except Fault State} {s t : State} (h : s.sys.halted = false) (ho : op s = .ok t) :
    attempts op s = .next t := by simp [attempts, h, ho]

theorem attempts_of_error {op : State → Except Fault State} {s : State} {f : Fault} (h : s.sys.halted = false)
    (ho : op s = .error f) : attempts op s = .fault f := by simp [attempts, h, ho]

/-- What an operation on a buffer did when it answers a next state. -/
theorem attempts_cases {op : State → Except Fault State} {s t : State} (h : attempts op s = .next t) :
    s.sys.halted = true ∧ t = s ∨ s.sys.halted = false ∧ op s = .ok t := by
  unfold attempts at h
  split at h
  · injection h with h
    exact .inl ⟨‹_›, h.symm⟩
  · split at h
    · injection h with h
      subst h
      exact .inr ⟨Bool.eq_false_of_not_eq_true ‹_›, ‹_›⟩
    · cases h

/-- What an operation on a buffer did when it faults. -/
theorem attempts_fault {op : State → Except Fault State} {s : State} {f : Fault} (h : attempts op s = .fault f) :
    s.sys.halted = false ∧ op s = .error f := by
  unfold attempts at h
  split at h
  · cases h
  · split at h
    · cases h
    · injection h with h
      subst h
      exact ⟨Bool.eq_false_of_not_eq_true ‹_›, ‹_›⟩

/-- Two operations in sequence succeed when the first does and the second does on its result. -/
theorem bind_eq_ok {ε α β : Type} {x : Except ε α} {f : α → Except ε β} {b : β} :
    x >>= f = .ok b ↔ ∃ a, x = .ok a ∧ f a = .ok b := by
  cases x with
  | error e => exact ⟨(nomatch ·), fun ⟨_, h, _⟩ => (nomatch h)⟩
  | ok a => exact ⟨fun h => ⟨a, rfl, h⟩, fun ⟨_, h, h'⟩ => by cases h; exact h'⟩

@[simp] theorem ok_bind {ε α β : Type} (a : α) (f : α → Except ε β) : (Except.ok a >>= f) = f a := rfl

/-! ### Buffer accesses -/

theorem readEntry_eq_ok {α : Type} {buf : Buffer} {size : Nat} {u : Option α} {m : Memory α} {i : Nat} {v : α} :
    readEntry buf size u m i = .ok v ↔ i < size ∧ memGet u m i = some v := by
  unfold readEntry
  split
  · cases memGet u m i <;> simp [*]
  · simp [*]

theorem writeEntry_eq_ok {α : Type} [DecidableEq α] {buf : Buffer} {size : Nat} {u : Option α} {m m' : Memory α}
    {i : Nat} {v : α} : writeEntry buf size u m i v = .ok m' ↔ i < size ∧ m' = memSet u m i v := by
  unfold writeEntry
  split <;> simp [*, eq_comm]

/-- `MemRead(a_buf, i)` answers the byte a write has put there, inside the ring. -/
theorem readRing_eq_ok {s : State} {i : Nat} {v : Byte} :
    readRing s i = .ok v ↔ i < s.cfg.aBufSize ∧ memFind s.protoA.buf i = some v := by
  simp [readRing, readEntry_eq_ok]

/-- `MemRead(b_buf, i)` answers the byte there, inside the buffer: 0 where nothing was written. -/
theorem readFrameByte_eq_ok {s : State} {i : Nat} {v : Byte} :
    readFrameByte s i = .ok v ↔ i < s.cfg.bCollectLen ∧ memGet (some 0#8) s.protoB.buf i = some v := by
  simp [readFrameByte, readEntry_eq_ok]

/-- `MemRead(b_work, i)` answers the pair a write has put there, inside the buffer. -/
theorem readWork_eq_ok {s : State} {i : Nat} {v : SamplePair} :
    readWork s i = .ok v ↔ i < s.cfg.bWorkCap ∧ memFind s.protoB.work i = some v := by
  simp [readWork, readEntry_eq_ok]

/-- `MemWrite(a_buf, i, v)` writes that one entry, inside the ring, and nothing else. -/
theorem writeRing_eq_ok {s t : State} {i : Nat} {v : Byte} :
    writeRing i v s = .ok t ↔
      i < s.cfg.aBufSize ∧ t = { s with protoA := { s.protoA with buf := memInsert i v s.protoA.buf } } := by
  by_cases h : i < s.cfg.aBufSize <;> simp [writeRing, writeEntry, h, eq_comm]

/-- `MemWrite(b_buf, i, v)` writes that one byte, inside the buffer, and nothing else. -/
theorem writeFrameByte_eq_ok {s t : State} {i : Nat} {v : Byte} :
    writeFrameByte i v s = .ok t ↔
      i < s.cfg.bCollectLen ∧
        t = { s with protoB := { s.protoB with buf := memSet (some 0#8) s.protoB.buf i v } } := by
  by_cases h : i < s.cfg.bCollectLen <;> simp [writeFrameByte, writeEntry, h, eq_comm]

/-- `MemWrite(b_work, i, v)` writes that one pair, inside the buffer, and nothing else. -/
theorem writeWork_eq_ok {s t : State} {i : Nat} {v : SamplePair} :
    writeWork i v s = .ok t ↔
      i < s.cfg.bWorkCap ∧ t = { s with protoB := { s.protoB with work := memInsert i v s.protoB.work } } := by
  by_cases h : i < s.cfg.bWorkCap <;> simp [writeWork, writeEntry, h, eq_comm]

/-- `a_pkt[i] <- v` writes that one byte of the five, and nothing else. -/
theorem writePacketByte_eq_ok {s t : State} {i : Nat} {v : Byte} :
    writePacketByte i v s = .ok t ↔
      ∃ h : i < 5, t = { s with protoA := { s.protoA with pkt := s.protoA.pkt.set i v h } } := by
  by_cases h : i < 5 <;> simp [writePacketByte, h, eq_comm]

/-! ### Arithmetic -/

@[simp] theorem applyRnd_exact {c : Config} (h : c.rnd = .exact) (x : Rat) : applyRnd c x = x := by
  simp [applyRnd, h]

/-- A clamped value lies between its bounds. -/
theorem clamp_mem {lo hi : Rat} (h : lo ≤ hi) (v : Rat) : lo ≤ clamp v lo hi ∧ clamp v lo hi ≤ hi := by
  unfold clamp
  split
  · exact ⟨le_refl _, h⟩
  · split
    · exact ⟨h, le_refl _⟩
    · exact ⟨not_lt.1 ‹_›, not_lt.1 ‹_›⟩

/-- Between its bounds `clamp` is the nearest value. -/
theorem clamp_eq {lo hi : Rat} (h : lo ≤ hi) (v : Rat) : clamp v lo hi = max lo (min v hi) := by
  unfold clamp
  split
  · rename_i hv
    rw [max_eq_left (le_trans (min_le_left _ _) (le_of_lt hv))]
  · split
    · rename_i hv
      rw [min_eq_right (le_of_lt hv), max_eq_right h]
    · rename_i h1 h2
      rw [min_eq_left (not_lt.1 h2), max_eq_right (not_lt.1 h1)]

/-- `mod360` lies in `[0, 360)`. -/
theorem mod360_mem (v : Rat) : 0 ≤ mod360 v ∧ mod360 v < 360 := by
  have h1 := Int.floor_le (v / 360)
  have h2 := Int.lt_floor_add_one (v / 360)
  unfold mod360
  constructor <;> linarith [mul_div_cancel₀ v (by norm_num : (360 : Rat) ≠ 0)]

/-- `sub_mod` lies below its modulus. -/
theorem subMod_lt (a b : Nat) {M : Nat} (h : 0 < M) : subMod a b M < M := by
  have h1 := Int.emod_nonneg ((a : Int) - b) (by omega : (M : Int) ≠ 0)
  have h2 := Int.emod_lt_of_pos ((a : Int) - b) (by omega : (0 : Int) < M)
  unfold subMod
  omega

/-- `sub_mod` is the difference modulo its modulus. -/
theorem subMod_cast (a b : Nat) {M : Nat} (h : 0 < M) : ((subMod a b M : Nat) : Int) = ((a : Int) - b) % (M : Int) :=
  Int.toNat_of_nonneg (Int.emod_nonneg _ (by omega))

/-- The elapsed time is the difference of the stamps modulo the clock's width. -/
theorem elapsed_cast (c : Config) (now t : Nat) :
    ((elapsed c now t : Nat) : Int) = ((now : Int) - t) % (2 ^ c.timeBits : Int) := by
  unfold elapsed
  rw [subMod_cast _ _ (Nat.two_pow_pos _)]
  push_cast
  rfl

/-! ### The shared motion operations on the motion half -/

/-- A turn's open-loop pattern, for a turn speed that is not negative (R116). -/
theorem turnAct_act {s : State} (h : 0 ≤ s.cfg.turnSpeed) (d : Direction)
    (hd : d = .left ∨ d = .right ∨ d = .uturn) :
    (turnAct d s).act = if d = .right then ⟨s.cfg.turnSpeed, 0, 0, s.cfg.turnSpeed⟩
      else ⟨0, s.cfg.turnSpeed, s.cfg.turnSpeed, 0⟩ := by
  rcases h.eq_or_lt with h | h
  · rcases hd with rfl | rfl | rfl <;> simp [turnAct, actuate, ← h]
  · rcases hd with rfl | rfl | rfl <;> simp [turnAct, actuate, h, not_lt.2 h.le]

/-- An eager turn switch zeroes both integrals (R169, R111). -/
theorem turnSwitch_pid (s : State) {d : Direction} (hd : d = .left ∨ d = .right ∨ d = .uturn) :
    (turnSwitch d s).pid = ⟨{ s.pid.l with integral := 0 }, { s.pid.r with integral := 0 }⟩ := by
  rcases hd with rfl | rfl | rfl <;> rfl

/-- An eager turn switch drives the turn's pattern (R169, R116). -/
theorem turnSwitch_act {s : State} (h : 0 ≤ s.cfg.turnSpeed) {d : Direction}
    (hd : d = .left ∨ d = .right ∨ d = .uturn) :
    (turnSwitch d s).act = if d = .right then ⟨s.cfg.turnSpeed, 0, 0, s.cfg.turnSpeed⟩
      else ⟨0, s.cfg.turnSpeed, s.cfg.turnSpeed, 0⟩ := by
  have := turnAct_act (s := { s with motion := { s.motion with cspeed := s.cfg.turnSpeed } }) h d hd
  rcases hd with rfl | rfl | rfl <;> simpa [turnSwitch, turnAct, actuate, setCdir, driven] using this

end Sys2Proof.Machine
end

