-- ==== Sys2Proof/Laws/Frames.lean ====
section
/-! SUPPORT. One lemma per operation that names every component it can write; everything else is as before. A statement
about what an operation leaves alone needs nothing more of it. -/

namespace Sys2Proof.Machine

/-! ### Motion -/

/-- RAMP_STEP writes `m_cspeed` only. -/
theorem rampStep_frame (s : State) : ∃ v, rampStep s = { s with motion := { s.motion with cspeed := v } } := by
  unfold rampStep
  dsimp only
  split
  · exact ⟨_, rfl⟩
  · split <;> exact ⟨_, rfl⟩

/-- SET_CDIR writes `m_cdir` and the integrals. -/
theorem setCdir_frame (d : Direction) (s : State) :
    ∃ p, setCdir d s = { s with motion := { s.motion with cdir := d }, pid := p } := by
  cases d <;> exact ⟨_, rfl⟩

/-- The direction step writes motion registers and the integrals. -/
theorem directionStep_frame (s : State) : ∃ m p, directionStep s = { s with motion := m, pid := p } := by
  have turn : ∀ d, ∃ m p, switchToTurn d s = { s with motion := m, pid := p } := by
    intro d
    obtain ⟨p, h⟩ := setCdir_frame d s
    exact ⟨_, p, by rw [switchToTurn, h]⟩
  have drive : ∀ d, ∃ m p, switchToDriven d s = { s with motion := m, pid := p } := by
    intro d
    unfold switchToDriven
    split
    any_goals
      obtain ⟨p, h⟩ := setCdir_frame d s
      rw [h]
      obtain ⟨v, h⟩ := rampStep_frame
        { s with motion := { s.motion with cdir := d, tspeed := s.cfg.maxSpeed }, pid := p }
      exact ⟨_, p, h⟩
    all_goals exact ⟨_, _, rfl⟩
  have stop : ∃ m p, rampToStop s = { s with motion := m, pid := p } := by
    unfold rampToStop
    dsimp only
    split
    · exact ⟨_, _, rfl⟩
    · exact ⟨_, _, rfl⟩
  unfold directionStep
  split
  · exact drive _
  · exact drive _
  · exact turn _
  · exact turn _
  · exact turn _
  · exact stop

/-- MTICK writes motion registers and the integrals. -/
theorem motionTick_frame (now : Nat) (s : State) : ∃ m p, motionTick now s = { s with motion := m, pid := p } := by
  unfold motionTick
  split
  · dsimp only
    split
    · exact directionStep_frame _
    · split
      · obtain ⟨v, h⟩ := rampStep_frame { s with motion := { s.motion with last := now } }
        exact ⟨_, s.pid, h⟩
      · exact ⟨_, s.pid, rfl⟩
  · exact ⟨s.motion, s.pid, rfl⟩

/-- One wheel of DRIVE writes PID registers and channels. -/
theorem driveWheel_frame (sign : Rat) (w : Wheel) (s : State) :
    ∃ p a, driveWheel sign w s = { s with pid := p, act := a } := by
  cases w <;> exact ⟨_, _, rfl⟩

/-- DRIVE writes PID registers and channels. -/
theorem driveActuators_frame (s : State) : ∃ p a, driveActuators s = { s with pid := p, act := a } := by
  unfold driveActuators
  split <;> exact ⟨_, _, rfl⟩

/-! ### Trackers and commands -/

/-- GYRO without its completion writes the accumulators and emits telemetry. -/
theorem integrate_frame (gz : Rat) (s : State) :
    ∃ a u records, integrateUturn gz (integrateAngleTurn gz s) =
      { s with
        turn := { s.turn with atAcc := a, utAcc := u }
        out := { s.out with tlm := s.out.tlm ++ records } } := by
  have angle : ∃ a records, integrateAngleTurn gz s =
      { s with turn := { s.turn with atAcc := a }, out := { s.out with tlm := s.out.tlm ++ records } } := by
    unfold integrateAngleTurn
    split
    · exact ⟨_, [_], rfl⟩
    · exact ⟨s.turn.atAcc, [], by rw [List.append_nil]⟩
  obtain ⟨a, r, h⟩ := angle
  rw [h]
  unfold integrateUturn
  split
  · exact ⟨a, _, r ++ [_], by rw [← List.append_assoc]; rfl⟩
  · exact ⟨a, s.turn.utAcc, r, rfl⟩

/-- GYRO writes the trackers, emits telemetry and, on completion, writes the motion registers, the integrals and the
channels. -/
theorem trackTurns_frame (gz : Rat) (s : State) :
    ∃ turn records m p a, trackTurns gz s =
      { s with turn := turn, motion := m, pid := p, act := a, out := { s.out with tlm := s.out.tlm ++ records } } := by
  obtain ⟨a, u, records, h⟩ := integrate_frame gz s
  unfold trackTurns
  dsimp only
  rw [h]
  split
  · exact ⟨_, records, _, _, _, rfl⟩
  · exact ⟨_, records, s.motion, s.pid, s.act, rfl⟩

/-- A command's own writes: the trackers, the motion registers, the integrals, the channels. -/
theorem commandBody_frame (b : Byte) (s : State) :
    ∃ turn m p a, commandBody b s = { s with turn := turn, motion := m, pid := p, act := a } := by
  unfold commandBody
  split <;> exact ⟨_, _, _, _, rfl⟩

/-- CMD_RX runs the command its byte spells. -/
theorem execCmdRx_eq (b : Byte) (s : State) : execCmdRx b s = exec (decodeCommand s.cfg b) s := by
  have key : ∀ body : State → State,
      (∀ m : CommandRegs, body { s with cmd := m } = commandBody b { s with cmd := m }) →
      runs (acceptCommand (commandBody b)) s = runs (acceptCommand body) s := by
    intro body h
    unfold runs acceptCommand
    rw [h]
  unfold decodeCommand execCmdRx
  cases hd : commandDirection s.cfg b with
  | none => exact key id fun m => by simp [commandBody, hd]
  | some d => cases d <;> exact key _ fun m => by simp [commandBody, hd]

/-- An accepted or a dropped command byte writes the command registers and what its command writes. -/
theorem acceptCommand_frame (b : Byte) (s : State) :
    ∃ cmd turn m p a, acceptCommand (commandBody b) s =
      { s with cmd := cmd, turn := turn, motion := m, pid := p, act := a } := by
  unfold acceptCommand
  split
  · obtain ⟨turn, m, p, a, h⟩ := commandBody_frame b { s with cmd := { s.cmd with armed := false, connected := true } }
    exact ⟨_, turn, m, p, a, by rw [h]; rfl⟩
  · exact ⟨s.cmd, s.turn, s.motion, s.pid, s.act, rfl⟩

/-! ### Protocol A -/

/-- A_FILL writes one entry of the ring, the write cursor and the cycle flag. -/
theorem fillByte_eq_ok {b : Byte} {s t : State} :
    fillByte b s = .ok t ↔ s.protoA.wr < s.cfg.aBufSize ∧
      t = { s with
        protoA := { s.protoA with
          buf := memInsert s.protoA.wr b s.protoA.buf
          wr := (s.protoA.wr + 1) % s.cfg.aBufSize
          cycle := s.protoA.cycle || decide ((s.protoA.wr + 1) % s.cfg.aBufSize = 0) } } := by
  unfold fillByte
  rw [bind_eq_ok]
  constructor
  · rintro ⟨a, ha, h⟩
    obtain ⟨hw, rfl⟩ := writeRing_eq_ok.1 ha
    injection h with h
    exact ⟨hw, h.symm⟩
  · rintro ⟨hw, rfl⟩
    exact ⟨_, writeRing_eq_ok.2 ⟨hw, rfl⟩, rfl⟩

/-- `t` is `s` but for the assembly's registers and for readings appended to `range`; the ring, its cursors and the cycle
flag are as before. -/
def AssemblyOnly (s t : State) : Prop :=
  ∃ pa readings, t = { s with protoA := pa, out := { s.out with range := s.out.range ++ readings } } ∧
    pa.buf = s.protoA.buf ∧ pa.wr = s.protoA.wr ∧ pa.rd = s.protoA.rd ∧ pa.cycle = s.protoA.cycle

theorem assemblyOnly_silent {s : State} (pa : ProtocolA) (h1 : pa.buf = s.protoA.buf) (h2 : pa.wr = s.protoA.wr)
    (h3 : pa.rd = s.protoA.rd) (h4 : pa.cycle = s.protoA.cycle) : AssemblyOnly s { s with protoA := pa } :=
  ⟨pa, [], by rw [List.append_nil], h1, h2, h3, h4⟩

theorem assemblyOnly_refl (s : State) : AssemblyOnly s s := assemblyOnly_silent s.protoA rfl rfl rfl rfl

theorem assemblyOnly_trans {s t u : State} (h : AssemblyOnly s t) (h' : AssemblyOnly t u) : AssemblyOnly s u := by
  obtain ⟨pa, r, rfl, h1, h2, h3, h4⟩ := h
  obtain ⟨pa', r', rfl, h1', h2', h3', h4'⟩ := h'
  exact ⟨pa', r ++ r', by rw [← List.append_assoc], h1'.trans h1, h2'.trans h2, h3'.trans h3, h4'.trans h4⟩

/-- What a decoded packet does: a reading or none, and with a reading the last angle. -/
theorem decodePacket_frame (p : APacket) (s : State) : AssemblyOnly s (decodePacket p s) := by
  unfold decodePacket
  dsimp only
  split
  · exact ⟨_, [_], rfl, rfl, rfl, rfl, rfl⟩
  · exact assemblyOnly_refl s

/-- A byte at the assembly writes the assembly's registers and emits readings. -/
theorem assembleByte_frame {b : Byte} {now : Nat} {s t : State} (h : assembleByte b now s = .ok t) :
    AssemblyOnly s t := by
  unfold assembleByte at h
  split at h
  · unfold takePacketByte at h
    obtain ⟨a, ha, h⟩ := bind_eq_ok.1 h
    obtain ⟨hi, rfl⟩ := writePacketByte_eq_ok.1 ha
    dsimp only at h
    split at h
    · injection h with h
      subst h
      refine assemblyOnly_trans ?_ (decodePacket_frame _ _)
      exact assemblyOnly_silent _ rfl rfl rfl rfl
    · injection h with h
      subst h
      exact assemblyOnly_silent _ rfl rfl rfl rfl
  · unfold huntSync at h
    split at h
    · dsimp only at h
      split at h
      · obtain ⟨a, ha, h⟩ := bind_eq_ok.1 h
        obtain ⟨hi, rfl⟩ := writePacketByte_eq_ok.1 ha
        injection h with h
        subst h
        exact assemblyOnly_silent _ rfl rfl rfl rfl
      · injection h with h
        subst h
        exact assemblyOnly_silent _ rfl rfl rfl rfl
    · injection h with h
      subst h
      exact assemblyOnly_refl s

/-- The bytes of a unit at the assembly: as one byte. -/
theorem assembleBytes_frame {now : Nat} {bs : List Byte} {s t : State} (h : assembleBytes now bs s = .ok t) :
    AssemblyOnly s t := by
  induction bs generalizing s with
  | nil =>
    injection h with h
    exact h ▸ assemblyOnly_refl s
  | cons b bs ih =>
    obtain ⟨a, ha, h⟩ := bind_eq_ok.1 h
    exact assemblyOnly_trans (assembleByte_frame ha) (ih h)

/-- The walk of APOLL is a walk of the read cursor, `n` entries on, and what the assembly does with the bytes. -/
theorem walkRing_frame {now n : Nat} {s t : State} (h : walkRing now n s = .ok t) :
    AssemblyOnly
      { s with
        protoA := { s.protoA with
          rd := if n = 0 then s.protoA.rd else (s.protoA.rd + n) % s.cfg.aBufSize } } t := by
  induction n generalizing s with
  | zero =>
    injection h with h
    exact h ▸ assemblyOnly_refl s
  | succ n ih =>
    obtain ⟨b, -, h⟩ := bind_eq_ok.1 h
    obtain ⟨a, ha, h⟩ := bind_eq_ok.1 h
    obtain ⟨pa, r, rfl, h1, h2, h3, h4⟩ := assembleByte_frame ha
    obtain ⟨pa', r', rfl, h1', h2', h3', h4'⟩ := ih h
    refine ⟨pa', r ++ r', by rw [← List.append_assoc], h1'.trans h1, h2'.trans h2, ?_, h4'.trans h4⟩
    rw [h3', h3]
    dsimp only
    rw [if_neg (Nat.succ_ne_zero n)]
    split
    · subst n; rfl
    · rw [Nat.mod_add_mod, Nat.add_right_comm, Nat.add_assoc]

/-- The overrun check clears the cycle flag, having read entry 0, and on an overrun moves the write cursor to 0 and
reports. -/
theorem overrunCheck_cases {s t : State} (h : overrunCheck s = .ok t) :
    s.protoA.cycle = false ∧ t = s ∨
      s.protoA.cycle = true ∧ ∃ b, 0 < s.cfg.aBufSize ∧ memFind s.protoA.buf 0 = some b ∧
        t = if b = s.cfg.aSync then
            { s with
              protoA := { s.protoA with cycle := false, wr := 0 }
              out := { s.out with status := s.out.status ++ [.aOverrun] } }
          else { s with protoA := { s.protoA with cycle := false } } := by
  unfold overrunCheck at h
  split at h
  · obtain ⟨b, hb, h⟩ := bind_eq_ok.1 h
    obtain ⟨h0, hb⟩ := readRing_eq_ok.1 hb
    refine .inr ⟨‹_›, b, h0, hb, ?_⟩
    split at h
    · injection h with h
      rw [if_pos ‹_›, ← h]
      rfl
    · injection h with h
      rw [if_neg ‹_›, ← h]
  · injection h with h
    exact .inl ⟨Bool.eq_false_of_not_eq_true ‹_›, h.symm⟩

/-- Where entry 0 is written, the overrun check of a completed fill cycle succeeds. -/
theorem overrunCheck_of_cycle {s : State} {b : Byte} (h : s.protoA.cycle = true) (h0 : 0 < s.cfg.aBufSize)
    (hb : memFind s.protoA.buf 0 = some b) :
    overrunCheck s = .ok (if b = s.cfg.aSync then
        { s with
          protoA := { s.protoA with cycle := false, wr := 0 }
          out := { s.out with status := s.out.status ++ [.aOverrun] } }
      else { s with protoA := { s.protoA with cycle := false } }) := by
  have hr : readRing { s with protoA := { s.protoA with cycle := false } } 0 = .ok b :=
    readRing_eq_ok.2 ⟨h0, hb⟩
  unfold overrunCheck
  dsimp only
  rw [if_pos h, hr, ok_bind]
  split <;> rfl

/-- The stall check writes the assembly's two registers or nothing. -/
theorem stallCheck_eq (now : Nat) (s : State) :
    stallCheck now s =
      if s.protoA.inpkt && stalled s.cfg now s.protoA.lastTime then
        { s with protoA := { s.protoA with inpkt := false, idx := 0 } }
      else s := rfl

/-- APOLL writes Protocol A's registers but not the ring's contents, and emits readings and reports. -/
theorem pollRing_frame {now : Nat} {s t : State} (h : pollRing now s = .ok t) :
    ∃ protoA readings reports,
      t = { s with
        protoA := protoA
        out := { s.out with range := s.out.range ++ readings, status := s.out.status ++ reports } } ∧
      protoA.buf = s.protoA.buf := by
  unfold pollRing at h
  obtain ⟨a, ha, h⟩ := bind_eq_ok.1 h
  obtain ⟨pa, readings, rfl, h1, -⟩ := walkRing_frame h
  have hs : ∃ protoA reports, stallCheck now a =
      { s with protoA := protoA, out := { s.out with status := s.out.status ++ reports } } ∧
      protoA.buf = s.protoA.buf := by
    have silent : ∀ pa : ProtocolA, pa.buf = s.protoA.buf → ∃ protoA reports,
        { s with protoA := pa } = { s with protoA := protoA, out := { s.out with status := s.out.status ++ reports } } ∧
        protoA.buf = s.protoA.buf :=
      fun pa h => ⟨pa, [], by rw [List.append_nil], h⟩
    rcases overrunCheck_cases ha with ⟨-, rfl⟩ | ⟨-, b, -, -, rfl⟩
    · rw [stallCheck_eq]
      split
      · exact silent _ rfl
      · exact silent a.protoA rfl
    · split <;> rw [stallCheck_eq] <;> split
      · exact ⟨_, [_], rfl, rfl⟩
      · exact ⟨_, [_], rfl, rfl⟩
      · exact silent _ rfl
      · exact silent _ rfl
  obtain ⟨pa', reports, hs, hb⟩ := hs
  dsimp only at h1
  rw [hs] at h1 ⊢
  exact ⟨pa, readings, reports, rfl, h1.trans hb⟩

/-! ### Protocol B -/

/-- The samples of a frame write the working buffer only. -/
theorem writeSamples_frame {old gap : Rat} {n i : Nat} {s t : State} (h : writeSamples old gap n i s = .ok t) :
    ∃ m, t = { s with protoB := { s.protoB with work := m } } := by
  induction n generalizing s i with
  | zero =>
    injection h with h
    exact ⟨_, h.symm⟩
  | succ n ih =>
    obtain ⟨a, ha, h⟩ := bind_eq_ok.1 h
    unfold writeSample at ha
    obtain ⟨lo, -, ha⟩ := bind_eq_ok.1 ha
    obtain ⟨hi, -, ha⟩ := bind_eq_ok.1 ha
    obtain ⟨-, rfl⟩ := writeWork_eq_ok.1 ha
    obtain ⟨m, rfl⟩ := ih h
    exact ⟨m, rfl⟩

/-- The publication check publishes a whole scan and resets the counter, or changes nothing. -/
theorem publishCheck_cases {s t : State} (h : publishCheck s = .ok t) :
    s.cfg.bPublishThreshold < s.protoB.samples ∧
        (∃ scan, scanEntries s s.cfg.bPublishLen 0 = .ok scan ∧
          t = { s with
            protoB := { s.protoB with pub := scan, samples := 0 }
            out := { s.out with pub := s.out.pub ++ [.newScan] } }) ∨
      s.protoB.samples ≤ s.cfg.bPublishThreshold ∧ t = s := by
  unfold publishCheck at h
  split at h
  · obtain ⟨scan, hscan, h⟩ := bind_eq_ok.1 h
    injection h with h
    exact .inl ⟨‹_›, scan, hscan, h.symm⟩
  · injection h with h
    exact .inr ⟨not_lt.1 ‹_›, h.symm⟩

/-- The entries the publication copies are listed from the first one on, each with its value in the working buffer. -/
theorem scanEntries_spec {s : State} {n k : Nat} {scan : Memory SamplePair} (h : scanEntries s n k = .ok scan) :
    (∀ j, k ≤ j → j < k + n → j < s.cfg.bWorkCap ∧
      ∃ v, memFind scan j = some v ∧ memFind s.protoB.work j = some v) ∧
      (∀ j, (j < k ∨ k + n ≤ j) → memFind scan j = none) ∧
      (scan.map Prod.fst) = List.range' k n := by
  induction n generalizing k scan with
  | zero =>
    injection h with h
    subst h
    exact ⟨fun j h1 h2 => by omega, fun _ _ => rfl, rfl⟩
  | succ n ih =>
    obtain ⟨v, hv, h⟩ := bind_eq_ok.1 h
    obtain ⟨rest, hrest, h⟩ := bind_eq_ok.1 h
    injection h with h
    subst h
    obtain ⟨hk, hv⟩ := readWork_eq_ok.1 hv
    obtain ⟨h1, h2, h3⟩ := ih hrest
    refine ⟨fun j hj hj' => ?_, fun j hj => ?_, ?_⟩
    · rw [memFind_cons]
      split
      · subst k
        exact ⟨hk, v, rfl, hv⟩
      · exact h1 j (by omega) (by omega)
    · rw [memFind_cons, if_neg (by omega)]
      exact h2 j (by omega)
    · rw [List.map_cons, h3, List.range'_succ]

/-- Where every entry to copy is written, the copy succeeds. -/
theorem scanEntries_ok {s : State} {n k : Nat}
    (h : ∀ j, k ≤ j → j < k + n → j < s.cfg.bWorkCap ∧ (memFind s.protoB.work j).isSome) :
    ∃ scan, scanEntries s n k = .ok scan := by
  induction n generalizing k with
  | zero => exact ⟨_, rfl⟩
  | succ n ih =>
    obtain ⟨hk, hv⟩ := h k (le_refl _) (by omega)
    obtain ⟨v, hv⟩ := Option.isSome_iff_exists.1 hv
    obtain ⟨rest, hrest⟩ := ih (k := k + 1) fun j h1 h2 => h j (by omega) (by omega)
    exact ⟨(k, v) :: rest, by
      rw [scanEntries, readWork_eq_ok.2 ⟨hk, hv⟩, ok_bind, hrest, ok_bind]⟩

/-- Extraction: the samples, the start angle and the counter, then the publication check. -/
theorem extractFrame_cases {s t : State} (h : extractFrame s = .ok t) :
    ∃ lo hi m, readFrameByte s s.cfg.bPayloadOffset = .ok lo ∧ readFrameByte s (s.cfg.bPayloadOffset + 1) = .ok hi ∧
      writeSamples s.protoB.prevStart (angleGap s.cfg s.protoB.prevStart (startAngle s.cfg (u16le lo hi)))
        s.cfg.bSamplesPerFrame 0 s = .ok { s with protoB := { s.protoB with work := m } } ∧
      publishCheck
        { s with
          protoB := { s.protoB with
            work := m
            prevStart := startAngle s.cfg (u16le lo hi)
            samples := s.protoB.samples + s.cfg.bSamplesPerFrame } } = .ok t := by
  unfold extractFrame at h
  obtain ⟨lo, hlo, h⟩ := bind_eq_ok.1 h
  obtain ⟨hi, hhi, h⟩ := bind_eq_ok.1 h
  obtain ⟨u, hu, h⟩ := bind_eq_ok.1 h
  obtain ⟨m, rfl⟩ := writeSamples_frame hu
  exact ⟨lo, hi, m, hlo, hhi, hu, h⟩

/-- What the checksum of a whole frame decides. -/
theorem checkFrame_cases {s t : State} (h : checkFrame s = .ok t) :
    s.protoB.xor = expectedChecksum s.protoB.h1 s.protoB.h2 ∧ extractFrame s = .ok t ∨
      s.protoB.xor ≠ expectedChecksum s.protoB.h1 s.protoB.h2 ∧
        t = { s with protoB := { s.protoB with phase := .waitHeader1, cnt := 0, xor := 0#8 } } := by
  unfold checkFrame at h
  split at h
  · exact .inl ⟨‹_›, h⟩
  · injection h with h
    exact .inr ⟨‹_›, h.symm⟩

/-- Completion: what the checksum decides, then the frame state's reset. -/
theorem completeFrame_eq_ok {s t : State} :
    completeFrame s = .ok t ↔ ∃ u, checkFrame s = .ok u ∧
      t = { u with protoB := { u.protoB with phase := .waitHeader1, cnt := 0, xor := 0#8 } } := by
  unfold completeFrame
  rw [bind_eq_ok]
  constructor
  · rintro ⟨u, hu, h⟩
    injection h with h
    exact ⟨u, hu, h.symm⟩
  · rintro ⟨u, hu, rfl⟩
    exact ⟨u, hu, rfl⟩

/-- A collected byte is stored and counted, and the last one completes the frame. -/
theorem collectByte_eq_ok {b : Byte} {s t : State} :
    collectByte b s = .ok t ↔ s.protoB.cnt < s.cfg.bCollectLen ∧ ∃ u : State,
      u = { s with
        protoB := { s.protoB with
          buf := memSet (some 0#8) s.protoB.buf s.protoB.cnt b
          xor := if s.protoB.cnt = 0 then b else s.protoB.xor ^^^ b
          cnt := s.protoB.cnt + 1 } } ∧
      (if s.protoB.cnt + 1 = s.cfg.bCollectLen then completeFrame u = .ok t else t = u) := by
  unfold collectByte
  dsimp only
  rw [bind_eq_ok]
  constructor
  · rintro ⟨a, ha, h⟩
    obtain ⟨hc, rfl⟩ := writeFrameByte_eq_ok.1 ha
    refine ⟨hc, _, rfl, ?_⟩
    dsimp only at h
    split
    · rwa [if_pos ‹_›] at h
    · rw [if_neg ‹_›] at h
      injection h with h
      exact h.symm
  · rintro ⟨hc, u, rfl, h⟩
    refine ⟨_, writeFrameByte_eq_ok.2 ⟨hc, rfl⟩, ?_⟩
    dsimp only
    split
    · rwa [if_pos ‹_›] at h
    · rw [if_neg ‹_›] at h
      rw [h]

/-- A byte is dropped at an unarmed channel; at an armed one it goes to the frame machine between disarm and re-arm. -/
theorem receiveFrameByte_eq_ok {b : Byte} {s t : State} :
    receiveFrameByte b s = .ok t ↔
      if s.protoB.armed = true then
        ∃ u, frameStep b { s with protoB := { s.protoB with armed := false } } = .ok u ∧
          t = { u with protoB := { u.protoB with armed := true } }
      else t = s := by
  unfold receiveFrameByte
  split
  · rw [bind_eq_ok]
    constructor
    · rintro ⟨u, hu, h⟩
      injection h with h
      exact ⟨u, hu, h.symm⟩
    · rintro ⟨u, hu, rfl⟩
      exact ⟨u, hu, rfl⟩
  · simp [eq_comm]

/-- `t` is `s` but for Protocol B's registers and buffers, its armed bit not among them, and for strobes appended to
`pub`. -/
def FrameOnly (s t : State) : Prop :=
  ∃ pb strobes, t = { s with protoB := pb, out := { s.out with pub := s.out.pub ++ strobes } } ∧
    pb.armed = s.protoB.armed

theorem frameOnly_silent {s : State} (pb : ProtocolB) (h : pb.armed = s.protoB.armed) :
    FrameOnly s { s with protoB := pb } :=
  ⟨pb, [], by rw [List.append_nil], h⟩

theorem frameOnly_refl (s : State) : FrameOnly s s := frameOnly_silent s.protoB rfl

theorem frameOnly_trans {s t u : State} (h : FrameOnly s t) (h' : FrameOnly t u) : FrameOnly s u := by
  obtain ⟨pb, r, rfl, h1⟩ := h
  obtain ⟨pb', r', rfl, h1'⟩ := h'
  exact ⟨pb', r ++ r', by rw [← List.append_assoc], h1'.trans h1⟩

/-- What the checksum decides writes the working buffer, the start angle, the counter and the published scan, or the
frame state. -/
theorem checkFrame_frame {s t : State} (h : checkFrame s = .ok t) : FrameOnly s t := by
  rcases checkFrame_cases h with ⟨-, h⟩ | ⟨-, rfl⟩
  · obtain ⟨lo, hi, m, -, -, -, h⟩ := extractFrame_cases h
    rcases publishCheck_cases h with ⟨-, scan, -, rfl⟩ | ⟨-, rfl⟩
    · exact ⟨_, [_], rfl, rfl⟩
    · exact frameOnly_silent _ rfl
  · exact frameOnly_silent _ rfl

/-- A byte at the frame machine writes Protocol B's registers and buffers and emits strobes; the armed bit stays. -/
theorem frameStep_frame {b : Byte} {s t : State} (h : frameStep b s = .ok t) : FrameOnly s t := by
  unfold frameStep at h
  split at h
  · split at h
    · injection h with h
      exact h ▸ frameOnly_silent _ rfl
    · injection h with h
      exact h ▸ frameOnly_refl s
  · split at h <;> injection h with h
    · exact h ▸ frameOnly_silent _ rfl
    · exact h ▸ frameOnly_silent _ rfl
  · obtain ⟨-, u, rfl, h⟩ := collectByte_eq_ok.1 h
    split at h
    · obtain ⟨a, ha, rfl⟩ := completeFrame_eq_ok.1 h
      refine frameOnly_trans ?_ (frameOnly_trans (checkFrame_frame ha) (frameOnly_silent _ rfl))
      exact frameOnly_silent _ rfl
    · subst h
      exact frameOnly_silent _ rfl

/-- A received byte writes Protocol B's registers and buffers and emits strobes; the channel is armed as it was. -/
theorem receiveFrameByte_frame {b : Byte} {s t : State} (h : receiveFrameByte b s = .ok t) : FrameOnly s t := by
  unfold receiveFrameByte at h
  split at h
  · obtain ⟨a, ha, h⟩ := bind_eq_ok.1 h
    obtain ⟨pb, strobes, rfl, -⟩ := frameStep_frame ha
    injection h with h
    subst h
    exact ⟨_, strobes, rfl, Eq.symm ‹_›⟩
  · injection h with h
    exact h ▸ frameOnly_refl s

/-- Received bytes: as one byte. -/
theorem receiveFrameBytes_frame {bs : List Byte} {s t : State} (h : receiveFrameBytes bs s = .ok t) :
    FrameOnly s t := by
  induction bs generalizing s with
  | nil =>
    injection h with h
    exact h ▸ frameOnly_refl s
  | cons b bs ih =>
    obtain ⟨a, ha, h⟩ := bind_eq_ok.1 h
    exact frameOnly_trans (receiveFrameByte_frame ha) (ih h)

/-! ### The step -/

/-- A stray byte at the Protocol-A assembly: as any byte there. -/
theorem receiveStrayByte_frame {b : Byte} {now : Nat} {s t : State} (h : receiveStrayByte b now s = .next t) :
    AssemblyOnly s t := by
  rcases attempts_cases h with ⟨-, rfl⟩ | ⟨-, h⟩
  · exact assemblyOnly_refl _
  · exact assembleByte_frame h

/-- What the next event is: nothing, an instruction that the oldest word or its first byte spells, a stray byte, a word
without anything for the block, or an event word that spells no operation. What is taken off `inbox` is all that
changes. -/
theorem fetch_cases (s : State) :
    s.inbox = [] ∧ fetch s = .idle ∨
      (∃ w i inbox, decode s.cfg w = .ok i ∧ (s.inbox = w :: inbox ∨ (∃ now, i = .aSync now) ∨ ∃ b, i = .bRx b) ∧
        fetch s = .unit i { s with inbox := inbox }) ∨
      (∃ b now inbox, fetch s = .stray b (portTime s.cfg now) { s with inbox := inbox }) ∨
      (∃ inbox, fetch s = .nothing { s with inbox := inbox }) ∨
      ∃ e rest why, s.inbox = .ev e :: rest ∧ decode s.cfg (.ev e) = .error why ∧ fetch s = .rejected why := by
  unfold fetch
  cases hi : s.inbox with
  | nil => exact .inl ⟨rfl, rfl⟩
  | cons w rest =>
    right
    dsimp only
    cases hd : decode s.cfg w with
    | ok i => exact .inl ⟨w, i, rest, hd, .inl rfl, rfl⟩
    | error why =>
      dsimp only
      cases w with
      | ev e => exact .inr (.inr (.inr ⟨e, rest, why, rfl, hd, rfl⟩))
      | cb b => cases hd
      | tx bytes => exact .inr (.inr (.inl ⟨rest, rfl⟩))
      | pa bytes now =>
        cases bytes with
        | nil => exact .inr (.inr (.inl ⟨rest, rfl⟩))
        | cons b bs =>
          by_cases hb : b = s.cfg.aSync
          · exact .inl ⟨.pa [b] now, .aSync (portTime s.cfg now), _, if_pos hb, .inr (.inl ⟨_, rfl⟩), if_pos hb⟩
          · exact .inr (.inl ⟨b, now, _, if_neg hb⟩)
      | pb bytes =>
        cases bytes with
        | nil => exact .inr (.inr (.inl ⟨rest, rfl⟩))
        | cons b bs => exact .inl ⟨.ev { op := 8#4, byte := b }, .bRx b, _, rfl, .inr (.inr ⟨b, rfl⟩), rfl⟩

/-- What a step did when it answers a next state: nothing but taking words off, an instruction that the oldest word or its
first byte spells, or a stray byte. -/
theorem step_cases {s t : State} (h : step s = .next t) :
    (∃ inbox, t = { s with inbox := inbox }) ∨
      (∃ w i inbox, decode s.cfg w = .ok i ∧ (s.inbox = w :: inbox ∨ (∃ now, i = .aSync now) ∨ ∃ b, i = .bRx b) ∧
        exec i { s with inbox := inbox } = .next t) ∨
      ∃ b now inbox, receiveStrayByte b (portTime s.cfg now) { s with inbox := inbox } = .next t := by
  unfold step at h
  rcases fetch_cases s with ⟨-, e⟩ | ⟨w, i, inbox, hd, hi, e⟩ | ⟨b, now, inbox, e⟩ | ⟨inbox, e⟩ |
    ⟨_, _, why, -, -, e⟩ <;> rw [e] at h
  · injection h with h
    exact .inl ⟨s.inbox, h.symm⟩
  · exact .inr (.inl ⟨w, i, inbox, hd, hi, h⟩)
  · exact .inr (.inr ⟨b, now, inbox, h⟩)
  · injection h with h
    exact .inl ⟨inbox, h.symm⟩
  · cases h

end Sys2Proof.Machine
end

