-- ==== Sys2Proof/Laws/Words.lean ====
section
/-! SUPPORT. The fields of the wire formats: what a field assembled from bytes gives back, in both directions. -/

namespace Sys2Proof

/-! ### Two fields side by side -/

theorem extract_high {n m : Nat} (x : BitVec n) (y : BitVec m) : (x ++ y).extractLsb' m n = x := by
  ext i hi
  rw [BitVec.getElem_extractLsb', BitVec.getLsbD_append]
  simp [BitVec.getLsbD_eq_getElem hi]

theorem extract_low {n m : Nat} (x : BitVec n) (y : BitVec m) : (x ++ y).extractLsb' 0 m = y := by
  ext i hi
  rw [BitVec.getElem_extractLsb', BitVec.getLsbD_append]
  simp [hi]

theorem append_extract {n m : Nat} (v : BitVec (n + m)) : v.extractLsb' m n ++ v.extractLsb' 0 m = v := by
  ext i hi
  rw [BitVec.getElem_append]
  split
  · simp [BitVec.getLsbD_eq_getElem hi]
  · rw [BitVec.getElem_extractLsb']
    simp [show m + (i - m) = i by omega, BitVec.getLsbD_eq_getElem hi]

/-! ### Nibbles and halves -/

theorem highNibble_headerByte (h c : BitVec 4) : highNibble (headerByte h c) = h := extract_high h c

theorem lowNibble_headerByte (h c : BitVec 4) : lowNibble (headerByte h c) = c := extract_low h c

/-- A header byte is its two nibbles. -/
theorem headerByte_nibbles (b : Byte) : headerByte (highNibble b) (lowNibble b) = b := append_extract (n := 4) (m := 4) b

/-- The low byte of a little-endian pair (R61). -/
theorem u16le_low (lo hi : Byte) : (u16le lo hi).extractLsb' 0 8 = lo := extract_low hi lo

/-- The high byte of a little-endian pair (R61). -/
theorem u16le_high (lo hi : Byte) : (u16le lo hi).extractLsb' 8 8 = hi := extract_high hi lo

/-- A 16-bit field is the pair of its bytes, low byte first (R61). -/
theorem u16le_bytes (v : BitVec 16) : u16le (v.extractLsb' 0 8) (v.extractLsb' 8 8) = v :=
  append_extract (n := 8) (m := 8) v

/-- `u16le(lo, hi) = lo + 256*hi` as a number (R61). -/
theorem u16le_toNat (lo hi : Byte) : (u16le lo hi).toNat = lo.toNat + 256 * hi.toNat := by
  have h : (u16le lo hi).toNat = hi.toNat <<< 8 ||| lo.toNat := BitVec.toNat_append hi lo
  rw [h, Nat.shiftLeft_eq, Nat.mul_comm, ← Nat.two_pow_add_eq_or_of_lt lo.isLt]
  omega

/-! ### The Protocol-A packet -/

/-- The fields of the bytes of a packet are the packet's (R87, R88). -/
theorem aPacket_ofBytes_toBytes (p : APacket) :
    ∃ b0 b1 b2 b3 b4, p.toBytes = [b0, b1, b2, b3, b4] ∧ APacket.ofBytes b0 b1 b2 b3 b4 = p := by
  refine ⟨_, _, _, _, _, rfl, ?_⟩
  obtain ⟨s, q, a, c, d⟩ := p
  unfold APacket.ofBytes
  dsimp only
  rw [u16le_bytes, u16le_bytes]
  congr 1
  · exact extract_high s q
  · exact extract_low s q
  · exact extract_high a c
  · exact extract_low a c

/-- The bytes of the fields of five bytes are those bytes: no bit of a packet is dropped (R87, R88). -/
theorem aPacket_toBytes_ofBytes (b0 b1 b2 b3 b4 : Byte) :
    (APacket.ofBytes b0 b1 b2 b3 b4).toBytes = [b0, b1, b2, b3, b4] := by
  have h0 := append_extract (n := 1) (m := 7) b0
  have ha := append_extract (n := 15) (m := 1) (u16le b1 b2)
  unfold APacket.toBytes APacket.ofBytes
  dsimp only
  rw [show (b0.extractLsb' 7 1 ++ b0.extractLsb' 0 7 : BitVec 8) = b0 from h0,
    show ((u16le b1 b2).extractLsb' 1 15 ++ (u16le b1 b2).extractLsb' 0 1 : BitVec 16) = u16le b1 b2 from ha,
    u16le_low, u16le_high, u16le_low, u16le_high]

/-! ### Codes -/

theorem direction_ofCode_code (d : Direction) : Direction.ofCode d.code = some d := by
  cases d <;> rfl

/-- A direction's command byte selects it (R85). -/
theorem commandDirection_commandByte (c : Config) (d : Direction) :
    commandDirection c (commandByte c d) = some d := by
  have h : commandByte c d - c.cmdBase = d.code.setWidth 8 := by
    unfold commandByte
    rw [BitVec.add_comm, BitVec.add_sub_cancel]
  unfold commandDirection
  rw [h]
  cases d <;> rfl

/-- A byte that selects a direction is its command byte (R85, R86). -/
theorem commandByte_of_commandDirection {c : Config} {b : Byte} {d : Direction} (h : commandDirection c b = some d) :
    commandByte c d = b := by
  have key : ∀ x : Byte, b - c.cmdBase = x → c.cmdBase + x = b := by
    intro x hx
    rw [← hx, BitVec.add_comm, BitVec.sub_add_cancel]
  have nat : ∀ k : Nat, (b - c.cmdBase).toNat = k → b - c.cmdBase = BitVec.ofNat 8 k := by
    intro k hk
    rw [← hk, BitVec.ofNat_toNat, BitVec.setWidth_eq]
  unfold commandDirection at h
  unfold commandByte
  split at h <;> cases h <;> rename_i e <;> exact key _ (nat _ e)

end Sys2Proof
end

