-- ==== Sys2Proof/Laws/Progress.lean ====
section
/-! SUPPORT. When the operations that may fault succeed, and with what result: the assembly and the walk of Protocol A,
the samples and the extraction of Protocol B. -/

namespace Sys2Proof.Machine

/-! ### Modular distance -/

/-- The distance from one cursor of a ring to another: the walk of that length arrives (R67, R182). -/
theorem subMod_ring {w r N : Nat} (hw : w < N) (hr : r < N) :
    (r + subMod w r N) % N = w ∧ subMod w r N < N ∧ (r ≤ w → subMod w r N = w - r) ∧
      (w < r → subMod w r N = w + N - r) := by
  have hN : 0 < N := by omega
  have hc := subMod_cast w r hN
  have hlt := subMod_lt w r hN
  by_cases h : r ≤ w
  · have e : subMod w r N = w - r := by
      rw [Int.emod_eq_of_lt (by omega) (by omega)] at hc
      omega
    rw [e, Nat.add_sub_cancel' h]
    exact ⟨Nat.mod_eq_of_lt hw, by omega, by omega, by omega⟩
  · have e : subMod w r N = w + N - r := by
      rw [← Int.add_emod_right, Int.emod_eq_of_lt (by omega) (by omega)] at hc
      omega
    rw [e, show r + (w + N - r) = w + N by omega, Nat.add_mod_right]
    exact ⟨Nat.mod_eq_of_lt hw, by omega, by omega, by omega⟩

/-! ### Protocol A -/

@[simp] theorem decodePacket_idx (p : APacket) (s : State) : (decodePacket p s).protoA.idx = s.protoA.idx := by
  unfold decodePacket
  dsimp only
  split <;> rfl

@[simp] theorem decodePacket_inpkt (p : APacket) (s : State) :
    (decodePacket p s).protoA.inpkt = s.protoA.inpkt := by
  unfold decodePacket
  dsimp only
  split <;> rfl

/-- With five-byte packets and the assembly's index in its range, a byte is always taken, and the index stays in its
range: below 5, and 0 outside a packet (R28, R35 item 8). -/
theorem assembleByte_ok (b : Byte) (now : Nat) {s : State} (hlen : s.cfg.aPktLen = 5) (hi : s.protoA.idx < 5)
    (hz : s.protoA.inpkt = false → s.protoA.idx = 0) :
    ∃ t, assembleByte b now s = .ok t ∧ AssemblyOnly s t ∧ t.protoA.idx < 5 ∧
      (t.protoA.inpkt = false → t.protoA.idx = 0) := by
  have key : ∃ t, assembleByte b now s = .ok t ∧ t.protoA.idx < 5 ∧ (t.protoA.inpkt = false → t.protoA.idx = 0) := by
    unfold assembleByte
    split
    · unfold takePacketByte
      rw [writePacketByte_eq_ok.2 ⟨hi, rfl⟩, ok_bind]
      dsimp only
      split
      · exact ⟨_, rfl, by simp, by simp⟩
      · exact ⟨_, rfl, by dsimp only; omega, by simp_all⟩
    · unfold huntSync
      split
      · dsimp only
        split
        · rw [writePacketByte_eq_ok.2 ⟨by omega, rfl⟩, ok_bind]
          exact ⟨_, rfl, by simp, by simp⟩
        · exact ⟨_, rfl, by simp, by simp⟩
      · exact ⟨_, rfl, hi, hz⟩
  obtain ⟨t, h, h'⟩ := key
  exact ⟨t, h, assembleByte_frame h, h'⟩

/-- A walk over written entries completes, and the assembly's index stays in its range. -/
theorem walkRing_ok (now : Nat) {n : Nat} {s : State} (hlen : s.cfg.aPktLen = 5) (hi : s.protoA.idx < 5)
    (hz : s.protoA.inpkt = false → s.protoA.idx = 0) (hrd : s.protoA.rd < s.cfg.aBufSize)
    (hw : ∀ k, k < n → (memFind s.protoA.buf ((s.protoA.rd + k) % s.cfg.aBufSize)).isSome) :
    ∃ t, walkRing now n s = .ok t ∧ t.protoA.idx < 5 ∧ (t.protoA.inpkt = false → t.protoA.idx = 0) := by
  induction n generalizing s with
  | zero => exact ⟨s, rfl, hi, hz⟩
  | succ n ih =>
    have h0 := hw 0 (by omega)
    rw [Nat.add_zero, Nat.mod_eq_of_lt hrd] at h0
    obtain ⟨v, hv⟩ := Option.isSome_iff_exists.1 h0
    obtain ⟨t, ht, ⟨pa, r, rfl, hbuf, -, hrd', -⟩, hi', hz'⟩ :=
      assembleByte_ok v now
        (s := { s with protoA := { s.protoA with rd := (s.protoA.rd + 1) % s.cfg.aBufSize } }) hlen hi hz
    dsimp only at hbuf hrd'
    unfold walkRing
    rw [readRing_eq_ok.2 ⟨hrd, hv⟩, ok_bind, ht, ok_bind]
    refine ih (by exact hlen) hi' hz' ?_ fun k hk => ?_
    · dsimp only
      rw [hrd']
      exact Nat.mod_lt _ (by omega)
    · dsimp only
      rw [hbuf, hrd', Nat.mod_add_mod, Nat.add_assoc, Nat.add_comm 1 k]
      exact hw (k + 1) (by omega)

/-! ### Protocol B -/

/-- The expected checksum is the low nibble of the second header byte over that of the first (R90). -/
theorem expectedChecksum_toNat (h1 h2 : Byte) :
    (expectedChecksum h1 h2).toNat = (lowNibble h2).toNat <<< 4 ||| (lowNibble h1).toNat := by
  have hlow : ∀ h : Byte, (lowNibble h).toNat = (h &&& 0x0F#8).toNat := by decide
  have hhigh : ∀ h : Byte, (h <<< 4).toNat = (lowNibble h).toNat <<< 4 := by decide
  unfold expectedChecksum
  rw [BitVec.toNat_or, hlow h1, hhigh]

/-- The samples of a frame whose bytes and places are inside their buffers are all written, each at its own place with
its own angle and distance, and no other entry changes (R204). -/
theorem writeSamples_ok (old gap : Rat) {n i : Nat} {s : State} (byte : Nat → Byte)
    (hb : ∀ k, k < s.cfg.bCollectLen → memGet (some 0#8) s.protoB.buf k = some (byte k))
    (hlen : s.cfg.bPayloadOffset + 2 + 2 * (i + n) ≤ s.cfg.bCollectLen)
    (hcap : s.protoB.samples + i + n ≤ s.cfg.bWorkCap) :
    ∃ m, writeSamples old gap n i s = .ok { s with protoB := { s.protoB with work := m } } ∧
      (∀ j, i ≤ j → j < i + n → memFind m (s.protoB.samples + j) =
        some (sampleAngle s.cfg old gap j,
          u16le (byte (s.cfg.bPayloadOffset + 2 + 2 * j)) (byte (s.cfg.bPayloadOffset + 3 + 2 * j)))) ∧
      ∀ j, (j < s.protoB.samples + i ∨ s.protoB.samples + i + n ≤ j) →
        memFind m j = memFind s.protoB.work j := by
  induction n generalizing i s with
  | zero => exact ⟨s.protoB.work, rfl, fun j h1 h2 => by omega, fun _ _ => rfl⟩
  | succ n ih =>
    have h1 := readFrameByte_eq_ok.2 ⟨by omega, hb (s.cfg.bPayloadOffset + 2 + 2 * i) (by omega)⟩
    have h2 := readFrameByte_eq_ok.2 ⟨by omega, hb (s.cfg.bPayloadOffset + 3 + 2 * i) (by omega)⟩
    generalize hv : (sampleAngle s.cfg old gap i,
      u16le (byte (s.cfg.bPayloadOffset + 2 + 2 * i)) (byte (s.cfg.bPayloadOffset + 3 + 2 * i))) = v
    obtain ⟨m, hm, m1, m2⟩ := ih (i := i + 1)
      (s := { s with protoB := { s.protoB with work := memInsert (s.protoB.samples + i) v s.protoB.work } }) hb
      (by dsimp only; omega) (by dsimp only; omega)
    refine ⟨m, ?_, fun j hj hj' => ?_, fun j hj => ?_⟩
    · unfold writeSamples writeSample
      dsimp only
      rw [h1, ok_bind, h2, ok_bind, writeWork_eq_ok.2 ⟨by omega, rfl⟩, ok_bind, hv]
      exact hm
    · rcases Nat.eq_or_lt_of_le hj with rfl | hj
      · rw [m2 _ (.inl (by dsimp only; omega)), hv]
        exact memFind_memInsert_self _ _ _
      · exact m1 j (by omega) (by omega)
    · rw [m2 j (by dsimp only; omega)]
      exact memFind_memInsert_of_ne (by omega) _ _

end Sys2Proof.Machine
end

