-- ==== Sys2Proof/Laws/Assembly.lean ====
section
/-! SUPPORT. The byte assembly of Protocol A against its rules as Safety states them (`afterByte`, `afterBytes`), and the
walk of APOLL as the assembly of the unread bytes. -/

namespace Sys2Proof.Machine

/-- The packet five bytes spell is the one packet with those bytes (R87, R88). -/
theorem packetOf_eq_iff {v : Vector Byte 5} {p : APacket} : p.toBytes = v.toList ↔ packetOf v = p := by
  have hv : v.toList = [v[0], v[1], v[2], v[3], v[4]] := by
    refine List.ext_getElem (by simp) fun i h _ => ?_
    have hi : i < 5 := by simpa using h
    rcases i with _ | _ | _ | _ | _ | i <;> first | rfl | omega
  rw [hv]
  constructor
  · intro h
    obtain ⟨b0, b1, b2, b3, b4, hb, rfl⟩ := aPacket_ofBytes_toBytes p
    rw [hb] at h
    injection h with h0 h
    injection h with h1 h
    injection h with h2 h
    injection h with h3 h
    injection h with h4 h
    rw [h0, h1, h2, h3, h4]
    rfl
  · rintro rfl
    exact aPacket_toBytes_ofBytes _ _ _ _ _

/-- Without rounding `A_DECODE` is the rule (R185). -/
theorem decodePacket_eq_afterPacket {s : State} (p : APacket) (h : s.cfg.rnd = .exact) :
    decodePacket p s = afterPacket s p := by
  unfold decodePacket afterPacket packetValid angleMoved packetAngle packetDistance
  simp only [numDiv, numSub, applyRnd_exact h]
  by_cases hc : p.check = 1#1
  · simp only [hc, decide_true, Bool.true_and, true_and, Bool.and_eq_true, Bool.or_eq_true, decide_eq_true_eq,
      and_assoc]
    rfl
  · simp [hc]

/-- Without rounding a byte at the assembly does what the transition table says, and nothing else (R184). -/
theorem assembleByte_eq_ok {b : Byte} {now : Nat} {s t : State} (h : s.cfg.rnd = .exact) :
    assembleByte b now s = .ok t ↔ afterByte s b now t := by
  unfold assembleByte afterByte
  cases hp : s.protoA.inpkt
  · simp only [Bool.false_eq_true, if_false, true_and, false_and, or_false, huntSync]
    by_cases hb : b = s.cfg.aSync
    · simp only [hb, if_true, ne_eq, not_true_eq_false, false_and, true_and, false_or]
      split
      · rw [writePacketByte_eq_ok.2 ⟨by omega, rfl⟩, ok_bind]
        exact ⟨fun e => (Except.ok.inj e).symm, fun e => congrArg Except.ok e.symm⟩
      · exact ⟨fun e => (Except.ok.inj e).symm, fun e => congrArg Except.ok e.symm⟩
    · simp only [hb, if_false, ne_eq, not_false_eq_true, true_and, false_and, or_false]
      exact ⟨fun e => (Except.ok.inj e).symm, fun e => congrArg Except.ok e.symm⟩
  · simp only [if_true, Bool.true_eq_false, false_and, true_and, false_or, takePacketByte]
    rw [bind_eq_ok]
    constructor
    · rintro ⟨a, ha, e⟩
      obtain ⟨hi, rfl⟩ := writePacketByte_eq_ok.1 ha
      dsimp only at e
      split at e
      · injection e with e
        refine .inr ⟨‹_›, hi, _, packetOf_eq_iff.2 rfl, ?_⟩
        rw [← e]
        exact decodePacket_eq_afterPacket _ h
      · injection e with e
        exact .inl ⟨‹_›, hi, e.symm⟩
    · rintro (⟨hn, hi, rfl⟩ | ⟨hn, hi, p, hp, rfl⟩) <;> refine ⟨_, writePacketByte_eq_ok.2 ⟨hi, rfl⟩, ?_⟩ <;>
        dsimp only
      · rw [if_neg hn]
      · rw [if_pos hn, packetOf_eq_iff.1 hp]
        exact congrArg Except.ok (decodePacket_eq_afterPacket _ h)

/-- Bytes at the assembly one after another, without rounding (R184). -/
theorem assembleBytes_eq_ok {bs : List Byte} {now : Nat} {s t : State} (h : s.cfg.rnd = .exact) :
    assembleBytes now bs s = .ok t ↔ afterBytes now bs s t := by
  induction bs generalizing s with
  | nil => exact ⟨fun e => (Except.ok.inj e).symm, fun e => congrArg Except.ok e.symm⟩
  | cons b bs ih =>
    unfold assembleBytes afterBytes
    rw [bind_eq_ok]
    have exact_of : ∀ u, assembleByte b now s = .ok u → u.cfg.rnd = .exact := by
      intro u hu
      obtain ⟨_, _, rfl, -⟩ := assembleByte_frame hu
      exact h
    constructor <;> rintro ⟨u, hu, hr⟩ <;> refine ⟨u, ?_, ?_⟩
    · exact (assembleByte_eq_ok h).1 hu
    · exact (ih (exact_of u hu)).1 hr
    · exact (assembleByte_eq_ok h).2 hu
    · exact (ih (exact_of u ((assembleByte_eq_ok h).2 hu))).2 hr

/-- With five-byte packets and the index in its range the bytes are always taken (R28, R35 item 8). -/
theorem assembleBytes_ok (now : Nat) {bs : List Byte} {s : State} (hlen : s.cfg.aPktLen = 5)
    (hi : s.protoA.inpkt = true → s.protoA.idx < 5) : ∃ t, assembleBytes now bs s = .ok t := by
  induction bs generalizing s with
  | nil => exact ⟨s, rfl⟩
  | cons b bs ih =>
    have key : ∃ u, assembleByte b now s = .ok u ∧ (u.protoA.inpkt = true → u.protoA.idx < 5) := by
      unfold assembleByte
      split
      · unfold takePacketByte
        rw [writePacketByte_eq_ok.2 ⟨hi ‹_›, rfl⟩, ok_bind]
        dsimp only
        split
        · exact ⟨_, rfl, by simp⟩
        · exact ⟨_, rfl, by have := hi ‹_›; dsimp only; omega⟩
      · unfold huntSync
        split
        · dsimp only
          split
          · rw [writePacketByte_eq_ok.2 ⟨by omega, rfl⟩, ok_bind]
            exact ⟨_, rfl, by simp⟩
          · exact ⟨_, rfl, by simp⟩
        · exact ⟨_, rfl, hi⟩
    obtain ⟨u, hu, hi'⟩ := key
    have hcfg : u.cfg = s.cfg := by
      obtain ⟨_, _, rfl, -⟩ := assembleByte_frame hu
      rfl
    obtain ⟨t, ht⟩ := ih (by rw [hcfg]; exact hlen) hi'
    exact ⟨t, bind_eq_ok.2 ⟨_, hu, ht⟩⟩

/-- The state with the read cursor at `r`. -/
def readFrom (r : Nat) (s : State) : State := { s with protoA := { s.protoA with rd := r } }

/-- A packet byte inside the packet's register file is taken: the last one ends the packet (R184). -/
theorem takePacketByte_of_lt (b : Byte) (now : Nat) {s : State} (h : s.protoA.idx < 5) :
    takePacketByte b now s = .ok (
      if s.protoA.idx + 1 = s.cfg.aPktLen then
        decodePacket (packetOf (s.protoA.pkt.set s.protoA.idx b h))
          { s with
            protoA := { s.protoA with
              pkt := s.protoA.pkt.set s.protoA.idx b h, inpkt := false, idx := 0, lastTime := now } }
      else
        { s with
          protoA := { s.protoA with
            pkt := s.protoA.pkt.set s.protoA.idx b h, idx := s.protoA.idx + 1, lastTime := now } }) := by
  unfold takePacketByte
  rw [writePacketByte_eq_ok.2 ⟨h, rfl⟩, ok_bind]
  dsimp only
  split <;> rfl

/-- The assembly does not look at the read cursor (R184). -/
theorem assembleByte_readFrom (b : Byte) (now r : Nat) (s : State) :
    assembleByte b now (readFrom r s) = (assembleByte b now s).map (readFrom r) := by
  have dec : ∀ p (s : State), decodePacket p (readFrom r s) = readFrom r (decodePacket p s) := by
    intro p s
    show (if packetValid s.cfg p && angleMoved s.cfg (packetAngle s.cfg p) s.protoA.lastAngle then _ else _) = _
    unfold decodePacket
    dsimp only
    split <;> rfl
  unfold assembleByte
  show (if s.protoA.inpkt then _ else _) = _
  split
  · by_cases hi : s.protoA.idx < 5
    · rw [takePacketByte_of_lt b now hi]
      refine (takePacketByte_of_lt b now (s := readFrom r s) hi).trans (congrArg Except.ok ?_)
      show (if s.protoA.idx + 1 = s.cfg.aPktLen then _ else _) = _
      split
      · exact dec _
          { s with
            protoA := { s.protoA with
              pkt := s.protoA.pkt.set s.protoA.idx b hi, inpkt := false, idx := 0, lastTime := now } }
      · rfl
    · have e : ∀ q : State, q.protoA.idx = s.protoA.idx →
          takePacketByte b now q = .error (.noSuchEntry .aPkt q.protoA.idx) := by
        intro q hq
        unfold takePacketByte writePacketByte
        rw [dif_neg (hq ▸ hi)]
        rfl
      rw [e s rfl]
      exact e (readFrom r s) rfl
  · unfold huntSync
    show (if b = s.cfg.aSync then _ else _) = _
    split
    · dsimp only
      show (if s.cfg.aSyncStored then _ else _) = _
      split <;> rfl
    · rfl

theorem assembleBytes_readFrom (bs : List Byte) (now r : Nat) (s : State) :
    assembleBytes now bs (readFrom r s) = (assembleBytes now bs s).map (readFrom r) := by
  induction bs generalizing s with
  | nil => rfl
  | cons b bs ih =>
    unfold assembleBytes
    rw [assembleByte_readFrom]
    cases assembleByte b now s with
    | error f => rfl
    | ok u => exact ih u

/-- The walk of APOLL hands the unread bytes to the assembly in order and moves the read cursor past them (R181, R182). -/
theorem walkRing_eq_assembleBytes (now : Nat) {bs : List Byte} {s : State} (hrd : s.protoA.rd < s.cfg.aBufSize)
    (hb : ∀ k b, bs[k]? = some b → memFind s.protoA.buf ((s.protoA.rd + k) % s.cfg.aBufSize) = some b) :
    walkRing now bs.length s =
      assembleBytes now bs (readFrom ((s.protoA.rd + bs.length) % s.cfg.aBufSize) s) := by
  induction bs generalizing s with
  | nil =>
    show Except.ok s = Except.ok _
    rw [List.length_nil, Nat.add_zero, Nat.mod_eq_of_lt hrd]
    rfl
  | cons b bs ih =>
    have h0 := hb 0 b rfl
    rw [Nat.add_zero, Nat.mod_eq_of_lt hrd] at h0
    have hr : readRing s s.protoA.rd = .ok b := readRing_eq_ok.2 ⟨hrd, h0⟩
    unfold assembleBytes
    rw [List.length_cons, walkRing, hr, ok_bind, assembleByte_readFrom]
    have e := assembleByte_readFrom b now ((s.protoA.rd + 1) % s.cfg.aBufSize) s
    unfold readFrom at e
    rw [e]
    cases hu : assembleByte b now s with
    | error f => rfl
    | ok u =>
      obtain ⟨pa, r, rfl, h1, -, h3, -⟩ := assembleByte_frame hu
      refine (ih (Nat.mod_lt _ (by exact Nat.zero_lt_of_lt hrd)) fun k v hk => ?_).trans ?_
      · dsimp only
        rw [h1, Nat.mod_add_mod, Nat.add_assoc, Nat.add_comm 1 k]
        exact hb (k + 1) v hk
      · dsimp only [readFrom, Except.map]
        rw [Nat.mod_add_mod, Nat.add_assoc, Nat.add_comm 1]
        rfl

end Sys2Proof.Machine
end

