-- ==== Sys2Proof/Laws/Exec.lean ====
section
/-! SUPPORT. For every instruction, what its next state can differ in, halted or not. A statement over all instructions
takes one of these in each case and unfolds no meaning. -/

namespace Sys2Proof.Machine

/-- Only the motion registers and the integrals of the motion half. -/
theorem exec_mtick_frame {now : Nat} {s t : State} (h : exec (.mtick now) s = .next t) :
    ∃ m p, t = { s with motion := m, pid := p } := by
  rcases runs_cases h with ⟨-, h⟩ | ⟨-, h⟩ <;> subst t
  · exact ⟨s.motion, s.pid, rfl⟩
  · exact motionTick_frame now s

theorem exec_drive_frame {s t : State} (h : exec .drive s = .next t) :
    ∃ p a, t = { s with pid := p, act := a } := by
  rcases runs_cases h with ⟨-, h⟩ | ⟨-, h⟩ <;> subst t
  · exact ⟨s.pid, s.act, rfl⟩
  · exact driveActuators_frame s

theorem exec_setIntent_frame {d : Direction} {v : Rat} {s t : State} (h : exec (.setIntent d v) s = .next t) :
    ∃ m, t = { s with motion := m } := by
  rcases runs_cases h with ⟨-, h⟩ | ⟨-, h⟩ <;> subst t
  · exact ⟨s.motion, rfl⟩
  · exact ⟨_, rfl⟩

theorem exec_estop_frame {s t : State} (h : exec .estop s = .next t) :
    ∃ turn m p a, t = { s with turn := turn, motion := m, pid := p, act := a } := by
  rcases runs_cases (op := emergencyStop) h with ⟨-, h⟩ | ⟨-, h⟩ <;> subst t
  · exact ⟨s.turn, s.motion, s.pid, s.act, rfl⟩
  · exact ⟨_, _, _, _, rfl⟩

theorem exec_est_frame {encL encR : Nat} {s t : State} (h : exec (.est encL encR) s = .next t) :
    ∃ w records, t = { s with wheel := w, out := { s.out with tlm := s.out.tlm ++ records } } := by
  rcases runs_cases h with ⟨-, h⟩ | ⟨-, h⟩ <;> subst t
  · exact ⟨s.wheel, [], by rw [List.append_nil]⟩
  · exact ⟨_, [_], rfl⟩

theorem exec_gyro_frame {gz : Rat} {s t : State} (h : exec (.gyro gz) s = .next t) :
    ∃ turn records m p a, t =
      { s with turn := turn, motion := m, pid := p, act := a, out := { s.out with tlm := s.out.tlm ++ records } } := by
  rcases runs_cases h with ⟨-, h⟩ | ⟨-, h⟩ <;> subst t
  · exact ⟨s.turn, [], s.motion, s.pid, s.act, by rw [List.append_nil]⟩
  · exact trackTurns_frame gz s

theorem exec_cmdRx_frame {b : Byte} {s t : State} (h : exec (.cmdRx b) s = .next t) :
    ∃ cmd turn m p a, t = { s with cmd := cmd, turn := turn, motion := m, pid := p, act := a } := by
  rcases runs_cases h with ⟨-, h⟩ | ⟨-, h⟩ <;> subst t
  · exact ⟨s.cmd, s.turn, s.motion, s.pid, s.act, rfl⟩
  · exact acceptCommand_frame b s

/-- A handler whose body leaves the actuators alone does so too. -/
theorem acceptCommand_intent {body : State → State} {s t : State} (h : runs (acceptCommand body) s = .next t)
    (hb : ∀ s, ∃ turn m, body s = { s with turn := turn, motion := m }) :
    ∃ cmd turn m, t = { s with cmd := cmd, turn := turn, motion := m } := by
  rcases runs_cases h with ⟨-, h⟩ | ⟨-, h⟩ <;> subst t
  · exact ⟨s.cmd, s.turn, s.motion, rfl⟩
  · unfold acceptCommand
    split
    · obtain ⟨turn, m, e⟩ := hb { s with cmd := { s.cmd with armed := false, connected := true } }
      rw [e]
      exact ⟨_, turn, m, rfl⟩
    · exact ⟨s.cmd, s.turn, s.motion, rfl⟩

theorem exec_cmdStop_frame {s t : State} (h : exec .cmdStop s = .next t) :
    ∃ cmd turn m, t = { s with cmd := cmd, turn := turn, motion := m } :=
  acceptCommand_intent (body := commandStop) h fun _ => ⟨_, _, rfl⟩

theorem exec_cmdForward_frame {s t : State} (h : exec .cmdForward s = .next t) :
    ∃ cmd turn m, t = { s with cmd := cmd, turn := turn, motion := m } :=
  acceptCommand_intent (body := commandForward) h fun _ => ⟨_, _, rfl⟩

theorem exec_cmdBackward_frame {s t : State} (h : exec .cmdBackward s = .next t) :
    ∃ cmd turn m, t = { s with cmd := cmd, turn := turn, motion := m } :=
  acceptCommand_intent (body := commandBackward) h fun _ => ⟨_, _, rfl⟩

theorem exec_cmdIgnored_frame {b : Byte} {s t : State} (h : exec (.cmdIgnored b) s = .next t) :
    ∃ cmd, t = { s with cmd := cmd } := by
  rcases runs_cases (op := acceptCommand id) h with ⟨-, h⟩ | ⟨-, h⟩ <;> subst t
  · exact ⟨s.cmd, rfl⟩
  · unfold acceptCommand
    split
    · exact ⟨_, rfl⟩
    · exact ⟨s.cmd, rfl⟩

/-- A handler whose body is a turn command. -/
theorem acceptCommand_turn {body : State → State} {s t : State} (h : runs (acceptCommand body) s = .next t)
    (hb : ∀ s, ∃ turn m p a, body s = { s with turn := turn, motion := m, pid := p, act := a }) :
    ∃ cmd turn m p a, t = { s with cmd := cmd, turn := turn, motion := m, pid := p, act := a } := by
  rcases runs_cases h with ⟨-, h⟩ | ⟨-, h⟩ <;> subst t
  · exact ⟨s.cmd, s.turn, s.motion, s.pid, s.act, rfl⟩
  · unfold acceptCommand
    split
    · obtain ⟨turn, m, p, a, e⟩ := hb { s with cmd := { s.cmd with armed := false, connected := true } }
      rw [e]
      exact ⟨_, turn, m, p, a, rfl⟩
    · exact ⟨s.cmd, s.turn, s.motion, s.pid, s.act, rfl⟩

theorem exec_cmdLeft_frame {s t : State} (h : exec .cmdLeft s = .next t) :
    ∃ cmd turn m p a, t = { s with cmd := cmd, turn := turn, motion := m, pid := p, act := a } :=
  acceptCommand_turn (body := commandLeft) h fun _ => ⟨_, _, _, _, rfl⟩

theorem exec_cmdRight_frame {s t : State} (h : exec .cmdRight s = .next t) :
    ∃ cmd turn m p a, t = { s with cmd := cmd, turn := turn, motion := m, pid := p, act := a } :=
  acceptCommand_turn (body := commandRight) h fun _ => ⟨_, _, _, _, rfl⟩

theorem exec_cmdUturn_frame {s t : State} (h : exec .cmdUturn s = .next t) :
    ∃ cmd turn m p a, t = { s with cmd := cmd, turn := turn, motion := m, pid := p, act := a } :=
  acceptCommand_turn (body := commandUturn) h fun _ => ⟨_, _, _, _, rfl⟩

theorem exec_notify_frame {s t : State} (h : exec .notify s = .next t) :
    ∃ cmd records, t = { s with cmd := cmd, out := { s.out with note := s.out.note ++ records } } := by
  rcases runs_cases (op := announce) h with ⟨-, h⟩ | ⟨-, h⟩ <;> subst t
  · exact ⟨s.cmd, [], by rw [List.append_nil]⟩
  · unfold announce
    split
    · exact ⟨_, [_], rfl⟩
    · exact ⟨s.cmd, [], by rw [List.append_nil]⟩

theorem exec_arm_frame {ch : Channel} {s t : State} (h : exec (.arm ch) s = .next t) :
    ∃ a b, t = { s with cmd := { s.cmd with armed := a }, protoB := { s.protoB with armed := b } } := by
  rcases runs_cases (op := rearm ch) h with ⟨-, h⟩ | ⟨-, h⟩ <;> subst t
  · exact ⟨s.cmd.armed, s.protoB.armed, rfl⟩
  · cases ch
    · exact ⟨true, s.protoB.armed, rfl⟩
    · exact ⟨s.cmd.armed, true, rfl⟩

/-- The two sent commands, as events and as units. -/
theorem exec_sent_frame {i : Instr} (hi : i = .bStart ∨ i = .bStop ∨ i = .txBStart ∨ i = .txBStop) {s t : State}
    (h : exec i s = .next t) : ∃ bytes, t = { s with out := { s.out with bTx := s.out.bTx ++ bytes } } := by
  have sent : ∀ bs, runs (emitBytes bs) s = .next t →
      ∃ bytes, t = { s with out := { s.out with bTx := s.out.bTx ++ bytes } } := fun bs h => by
    rcases runs_cases h with ⟨-, h⟩ | ⟨-, h⟩ <;> subst t
    · exact ⟨[], by rw [List.append_nil]⟩
    · exact ⟨bs, rfl⟩
  rcases hi with rfl | rfl | rfl | rfl <;> exact sent _ h

theorem exec_imuStatus_frame {ok : Bool} {s t : State} (h : exec (.imuStatus ok) s = .next t) :
    ∃ f reports, t =
      { s with sys := { s.sys with imuFault := f }, out := { s.out with status := s.out.status ++ reports } } := by
  rcases runs_cases (op := reportImu ok) h with ⟨-, h⟩ | ⟨-, h⟩ <;> subst t
  · exact ⟨s.sys.imuFault, [], by rw [List.append_nil]⟩
  · unfold reportImu
    split
    · exact ⟨_, [_], rfl⟩
    · exact ⟨s.sys.imuFault, [], by rw [List.append_nil]⟩

theorem exec_fatal_frame {s t : State} (h : exec .fatal s = .next t) :
    ∃ f reports, t =
      { s with sys := { s.sys with halted := f }, out := { s.out with status := s.out.status ++ reports } } := by
  rcases runs_cases (op := raiseCondition .fatalConfig) h with ⟨-, h⟩ | ⟨-, h⟩ <;> subst t
  · exact ⟨s.sys.halted, [], by rw [List.append_nil]⟩
  · exact ⟨_, [_], rfl⟩

theorem exec_reset_eq {s t : State} (h : exec .reset s = .next t) : t = resetRegisters s := by
  injection h with h
  exact h.symm

theorem exec_aFill_frame {b : Byte} {s t : State} (h : exec (.aFill b) s = .next t) :
    ∃ m wr cycle, t = { s with protoA := { s.protoA with buf := m, wr := wr, cycle := cycle } } := by
  rcases attempts_cases h with ⟨-, h⟩ | ⟨-, h⟩
  · subst t
    exact ⟨s.protoA.buf, s.protoA.wr, s.protoA.cycle, rfl⟩
  · exact ⟨_, _, _, (fillByte_eq_ok.1 h).2⟩

theorem exec_apoll_frame {now : Nat} {s t : State} (h : exec (.apoll now) s = .next t) :
    ∃ protoA readings reports,
      t = { s with
        protoA := protoA
        out := { s.out with range := s.out.range ++ readings, status := s.out.status ++ reports } } ∧
      protoA.buf = s.protoA.buf := by
  rcases attempts_cases (op := pollRing now) h with ⟨-, h⟩ | ⟨-, h⟩
  · subst t
    exact ⟨s.protoA, [], [], by rw [List.append_nil, List.append_nil], rfl⟩
  · exact pollRing_frame h

theorem exec_aSync_frame {now : Nat} {s t : State} (h : exec (.aSync now) s = .next t) : AssemblyOnly s t := by
  rcases attempts_cases (op := assembleByte s.cfg.aSync now) h with ⟨-, h⟩ | ⟨-, h⟩
  · subst t
    exact (assemblyOnly_refl s)
  · exact assembleByte_frame h

theorem exec_aPacket_frame {now : Nat} {p : APacket} {s t : State} (h : exec (.aPacket now p) s = .next t) :
    AssemblyOnly s t := by
  rcases attempts_cases (op := assembleBytes now p.toBytes) h with ⟨-, h⟩ | ⟨-, h⟩
  · subst t
    exact (assemblyOnly_refl s)
  · exact assembleBytes_frame h

theorem exec_bRx_frame {b : Byte} {s t : State} (h : exec (.bRx b) s = .next t) : FrameOnly s t := by
  rcases attempts_cases (op := receiveFrameByte b) h with ⟨-, h⟩ | ⟨-, h⟩
  · subst t
    exact (frameOnly_refl s)
  · exact receiveFrameByte_frame h

theorem exec_bHdr1_frame {n : BitVec 4} {s t : State} (h : exec (.bHdr1 n) s = .next t) : FrameOnly s t := by
  rcases attempts_cases (op := receiveFrameByte (headerByte s.cfg.hdr1 n)) h with ⟨-, h⟩ | ⟨-, h⟩
  · subst t
    exact (frameOnly_refl s)
  · exact receiveFrameByte_frame h

theorem exec_bHdr2_frame {n : BitVec 4} {s t : State} (h : exec (.bHdr2 n) s = .next t) : FrameOnly s t := by
  rcases attempts_cases (op := receiveFrameByte (headerByte s.cfg.hdr2 n)) h with ⟨-, h⟩ | ⟨-, h⟩
  · subst t
    exact (frameOnly_refl s)
  · exact receiveFrameByte_frame h

theorem exec_bFrame_frame {lo hi : BitVec 4} {body : List Byte} {s t : State}
    (h : exec (.bFrame lo hi body) s = .next t) : FrameOnly s t := by
  rcases attempts_cases (op := receiveFrameBytes (headerByte s.cfg.hdr1 lo :: headerByte s.cfg.hdr2 hi :: body)) h with ⟨-, h⟩ | ⟨-, h⟩
  · subst t
    exact (frameOnly_refl s)
  · exact receiveFrameBytes_frame h

end Sys2Proof.Machine
end

