-- ==== Sys2Proof/Laws/PerInstr.lean ====
section
/-! SUPPORT. The statements made constructor by constructor. `EncodedShape`: the word of a well-formed instruction belongs
to the format of its row, with as many bytes on the wire as the row has (30_encoding.md R80, R97). -/

namespace Sys2Proof.Laws

/-- The five formats of R80. -/
inductive Format where
  | ev | cb | pa | pb | tx
deriving DecidableEq, Repr

/-- The format of a word. -/
def formatOfWord : PortWord → Format
  | .ev _ => .ev
  | .cb _ => .cb
  | .pa _ _ => .pa
  | .pb _ => .pb
  | .tx _ => .tx

/-- The bytes a word puts on its wire; an event is on no wire. -/
def wireBytes : PortWord → Nat
  | .ev _ => 0
  | .cb _ => 1
  | .pa bytes _ => bytes.length
  | .pb bytes => bytes.length
  | .tx bytes => bytes.length

/-- The format and the wire length of an instruction's row (R97). -/
def rowShape (c : Config) : Instr → Format × Nat
  | .reset => (.ev, 0)
  | .mtick _ => (.ev, 0)
  | .est _ _ => (.ev, 0)
  | .drive => (.ev, 0)
  | .gyro _ => (.ev, 0)
  | .apoll _ => (.ev, 0)
  | .notify => (.ev, 0)
  | .cmdRx _ => (.ev, 0)
  | .bRx _ => (.ev, 0)
  | .aFill _ => (.ev, 0)
  | .setIntent _ _ => (.ev, 0)
  | .estop => (.ev, 0)
  | .arm _ => (.ev, 0)
  | .bStart => (.ev, 0)
  | .bStop => (.ev, 0)
  | .imuStatus _ => (.ev, 0)
  | .fatal => (.ev, 0)
  | .cmdStop => (.cb, 1)
  | .cmdForward => (.cb, 1)
  | .cmdBackward => (.cb, 1)
  | .cmdLeft => (.cb, 1)
  | .cmdRight => (.cb, 1)
  | .cmdUturn => (.cb, 1)
  | .cmdIgnored _ => (.cb, 1)
  | .aSync _ => (.pa, 1)
  | .aPacket _ _ => (.pa, 5)
  | .bHdr1 _ => (.pb, 1)
  | .bHdr2 _ => (.pb, 1)
  | .bFrame _ _ _ => (.pb, 2 + c.bCollectLen)
  | .txBStart => (.tx, 9)
  | .txBStop => (.tx, 3)

/-- The word of a well-formed instruction has its row's format and wire length. -/
def EncodedShape.Statement (i : Instr) : Prop :=
  ∀ c : Config, i.wf c = true → (formatOfWord (encode c i), wireBytes (encode c i)) = rowShape c i

theorem EncodedShape.reset : EncodedShape.Statement .reset := fun _ _ => rfl
theorem EncodedShape.mtick (now : Nat) : EncodedShape.Statement (.mtick now) := fun _ _ => rfl
theorem EncodedShape.est (encL encR : Nat) : EncodedShape.Statement (.est encL encR) := fun _ _ => rfl
theorem EncodedShape.drive : EncodedShape.Statement .drive := fun _ _ => rfl
theorem EncodedShape.gyro (gz : Rat) : EncodedShape.Statement (.gyro gz) := fun _ _ => rfl
theorem EncodedShape.apoll (now : Nat) : EncodedShape.Statement (.apoll now) := fun _ _ => rfl
theorem EncodedShape.notify : EncodedShape.Statement .notify := fun _ _ => rfl
theorem EncodedShape.cmdRx (b : Byte) : EncodedShape.Statement (.cmdRx b) := fun _ _ => rfl
theorem EncodedShape.bRx (b : Byte) : EncodedShape.Statement (.bRx b) := fun _ _ => rfl
theorem EncodedShape.aFill (b : Byte) : EncodedShape.Statement (.aFill b) := fun _ _ => rfl
theorem EncodedShape.setIntent (d : Direction) (v : Rat) : EncodedShape.Statement (.setIntent d v) := fun _ _ => rfl
theorem EncodedShape.estop : EncodedShape.Statement .estop := fun _ _ => rfl
theorem EncodedShape.arm (ch : Channel) : EncodedShape.Statement (.arm ch) := fun _ _ => rfl
theorem EncodedShape.bStart : EncodedShape.Statement .bStart := fun _ _ => rfl
theorem EncodedShape.bStop : EncodedShape.Statement .bStop := fun _ _ => rfl
theorem EncodedShape.imuStatus (ok : Bool) : EncodedShape.Statement (.imuStatus ok) := fun _ _ => rfl
theorem EncodedShape.fatal : EncodedShape.Statement .fatal := fun _ _ => rfl
theorem EncodedShape.cmdStop : EncodedShape.Statement .cmdStop := fun _ _ => rfl
theorem EncodedShape.cmdForward : EncodedShape.Statement .cmdForward := fun _ _ => rfl
theorem EncodedShape.cmdBackward : EncodedShape.Statement .cmdBackward := fun _ _ => rfl
theorem EncodedShape.cmdLeft : EncodedShape.Statement .cmdLeft := fun _ _ => rfl
theorem EncodedShape.cmdRight : EncodedShape.Statement .cmdRight := fun _ _ => rfl
theorem EncodedShape.cmdUturn : EncodedShape.Statement .cmdUturn := fun _ _ => rfl
theorem EncodedShape.cmdIgnored (b : Byte) : EncodedShape.Statement (.cmdIgnored b) := fun _ _ => rfl
theorem EncodedShape.aSync (now : Nat) : EncodedShape.Statement (.aSync now) := fun _ _ => rfl
theorem EncodedShape.aPacket (now : Nat) (p : APacket) : EncodedShape.Statement (.aPacket now p) := fun _ _ => rfl
theorem EncodedShape.bHdr1 (n : BitVec 4) : EncodedShape.Statement (.bHdr1 n) := fun _ _ => rfl
theorem EncodedShape.bHdr2 (n : BitVec 4) : EncodedShape.Statement (.bHdr2 n) := fun _ _ => rfl
theorem EncodedShape.bFrame (lo hi : BitVec 4) (body : List Byte) : EncodedShape.Statement (.bFrame lo hi body) := by
  intro c h
  simp only [Instr.wf, decide_eq_true_eq] at h
  simp [formatOfWord, wireBytes, encode, rowShape, h]
  omega
theorem EncodedShape.txBStart : EncodedShape.Statement .txBStart := fun _ _ => rfl
theorem EncodedShape.txBStop : EncodedShape.Statement .txBStop := fun _ _ => rfl

end Sys2Proof.Laws
end

