-- ==== Sys2Proof/Tests/Slice0.lean ====
section
/-! SUPPORT. Tests: ill-formed terms are refused; the words of the encodings, written out bit by bit, decode; one-step
results of spec/95_test_vectors.md and of hand calculation from the rules; and a witness for the hypotheses of every
statement. -/

namespace Sys2Proof.Tests

open Sys2Proof.Machine

-- One theorem after the other: each kernel evaluation would otherwise wait in a thread of its own.
set_option Elab.async false

/-! ### Helpers -/

/-- The default configuration. -/
def c0 : Config := Config.default

/-- The state after `i`, where it answers one. -/
def after (i : Instr) (s : State) : Option State :=
  match exec i s with
  | .next t => some t
  | _ => none

/-- The state after reset with both channels armed. -/
def armed : State :=
  { State.reset with cmd := { connected := false, announced := false, armed := true }, protoB := { armed := true } }

/-- A machine that has taken the fatal path. -/
def stopped : State := { armed with sys := { halted := true, imuFault := false } }

/-- `armed` with the motion tuple of spec/95. -/
def moving (t c : Direction) (ts cs : Rat) (last : Nat) : State :=
  { armed with motion := { tdir := t, cdir := c, tspeed := ts, cspeed := cs, last := last } }

/-- The Protocol-A registers with the listed bytes in the ring from entry `at0` on. -/
def ringed (at0 : Nat) (bytes : List Byte) (pa : ProtocolA) : State :=
  { armed with protoA := { pa with buf := (bytes.zipIdx at0).foldl (fun m e => memInsert (e.2 % 16) e.1 m) [] } }

/-- A configuration with one sample a frame and a scan of one entry, for small frames. -/
def tiny : Config :=
  { c0 with bSamplesPerFrame := 1, bCollectLen := 4, bPublishThreshold := 1, bPublishLen := 1, bWorkCap := 2 }

/-- `armed` under `tiny`. -/
def small (pb : ProtocolB) : State := { armed with cfg := tiny, protoB := { pb with armed := true } }

/-- The packet of T4: start 1, quality 47, 90 degrees, check 1, 1000 mm. -/
def packet90 : APacket := { start := 1#1, quality := 47#7, angleQ6 := 5760#15, check := 1#1, distQ2 := 4000#16 }

/-! ### Ill-formed terms -/

theorem test_illformed_mtick : (Instr.mtick (2 ^ 32)).wf c0 = false ∧ (Instr.mtick (2 ^ 32 - 1)).wf c0 = true := by
  decide
theorem test_illformed_est_left : (Instr.est 65536 0).wf c0 = false ∧ (Instr.est 65535 0).wf c0 = true := by decide
theorem test_illformed_est_right : (Instr.est 0 65536).wf c0 = false ∧ (Instr.est 0 65535).wf c0 = true := by decide
theorem test_illformed_apoll : (Instr.apoll (2 ^ 32)).wf c0 = false := by decide
theorem test_illformed_ignored :
    (Instr.cmdIgnored 0x30#8).wf c0 = false ∧ (Instr.cmdIgnored 0x35#8).wf c0 = false ∧
      (Instr.cmdIgnored 0x36#8).wf c0 = true ∧ (Instr.cmdIgnored 0x2F#8).wf c0 = true := by decide
theorem test_illformed_sync : (Instr.aSync (2 ^ 32)).wf c0 = false := by decide
theorem test_illformed_packet : (Instr.aPacket (2 ^ 32) packet90).wf c0 = false := by decide
theorem test_illformed_frame :
    (Instr.bFrame 0#4 0#4 (List.replicate 41 0#8)).wf c0 = false ∧
      (Instr.bFrame 0#4 0#4 (List.replicate 42 0#8)).wf c0 = true := by decide

/-! ### Words: each constructor's word written out from 30_encoding.md -/

/-- Format EV (R81, R82): operation code and operand ports. -/
theorem test_decode_events :
    decode c0 (.ev { op := 0b0000#4 }) = .ok .reset ∧
      decode c0 (.ev { op := 0b0001#4, now := 150 }) = .ok (.mtick 150) ∧
      decode c0 (.ev { op := 0b0010#4, encL := 18, encR := 65518 }) = .ok (.est 18 65518) ∧
      decode c0 (.ev { op := 0b0011#4 }) = .ok .drive ∧
      decode c0 (.ev { op := 0b0100#4, gz := -450 }) = .ok (.gyro (-450)) ∧
      decode c0 (.ev { op := 0b0101#4, now := 100 }) = .ok (.apoll 100) ∧
      decode c0 (.ev { op := 0b0110#4 }) = .ok .notify ∧
      decode c0 (.ev { op := 0b0111#4, byte := 0x41#8 }) = .ok (.cmdRx 0x41#8) ∧
      decode c0 (.ev { op := 0b1000#4, byte := 0xA2#8 }) = .ok (.bRx 0xA2#8) ∧
      decode c0 (.ev { op := 0b1001#4, byte := 0xA5#8 }) = .ok (.aFill 0xA5#8) ∧
      decode c0 (.ev { op := 0b1010#4, dir := 0b101#3, speed := 250 }) = .ok (.setIntent .uturn 250) ∧
      decode c0 (.ev { op := 0b1011#4 }) = .ok .estop ∧
      decode c0 (.ev { op := 0b1100#4, ch := 0b0#1 }) = .ok (.arm .command) ∧
      decode c0 (.ev { op := 0b1100#4, ch := 0b1#1 }) = .ok (.arm .protocolB) ∧
      decode c0 (.ev { op := 0b1101#4, sel := 0b0#1 }) = .ok .bStart ∧
      decode c0 (.ev { op := 0b1101#4, sel := 0b1#1 }) = .ok .bStop ∧
      decode c0 (.ev { op := 0b1110#4, ok := 0b0#1 }) = .ok (.imuStatus false) ∧
      decode c0 (.ev { op := 0b1110#4, ok := 0b1#1 }) = .ok (.imuStatus true) ∧
      decode c0 (.ev { op := 0b1111#4 }) = .ok .fatal :=
  ⟨rfl, rfl, rfl, rfl, rfl, rfl, rfl, rfl, rfl, rfl, rfl, rfl, rfl, rfl, rfl, rfl, rfl, rfl, rfl⟩

/-- The six direction codes of SET_INTENT (R21), and the two reserved ones refused (R84). -/
theorem test_decode_directions :
    decode c0 (.ev { op := 0xA#4, dir := 0#3 }) = .ok (.setIntent .stop 0) ∧
      decode c0 (.ev { op := 0xA#4, dir := 1#3 }) = .ok (.setIntent .forward 0) ∧
      decode c0 (.ev { op := 0xA#4, dir := 2#3 }) = .ok (.setIntent .backward 0) ∧
      decode c0 (.ev { op := 0xA#4, dir := 3#3 }) = .ok (.setIntent .left 0) ∧
      decode c0 (.ev { op := 0xA#4, dir := 4#3 }) = .ok (.setIntent .right 0) ∧
      decode c0 (.ev { op := 0xA#4, dir := 6#3 }) = .error (.reservedDirection 6#3) ∧
      decode c0 (.ev { op := 0xA#4, dir := 7#3 }) = .error (.reservedDirection 7#3) :=
  ⟨rfl, rfl, rfl, rfl, rfl, rfl, rfl⟩

/-- What a port carries of a wider number: its low bits (R82; log entry 14). -/
theorem test_decode_wide_operands :
    decode c0 (.ev { op := 0x1#4, now := 2 ^ 32 + 7 }) = .ok (.mtick 7) ∧
      decode c0 (.ev { op := 0x2#4, encL := 65536, encR := 65535 }) = .ok (.est 0 65535) ∧
      decode c0 (.pa [0xA5#8] (2 ^ 32)) = .ok (.aSync 0) := by decide

/-- Format CB (R85, R86): '0' to '5', and the bytes beside them. -/
theorem test_decode_commands :
    decode c0 (.cb 0b00110000#8) = .ok .cmdStop ∧ decode c0 (.cb 0b00110001#8) = .ok .cmdForward ∧
      decode c0 (.cb 0b00110010#8) = .ok .cmdBackward ∧ decode c0 (.cb 0b00110011#8) = .ok .cmdLeft ∧
      decode c0 (.cb 0b00110100#8) = .ok .cmdRight ∧ decode c0 (.cb 0b00110101#8) = .ok .cmdUturn ∧
      decode c0 (.cb 0b00110110#8) = .ok (.cmdIgnored 0x36#8) ∧
      decode c0 (.cb 0b00101111#8) = .ok (.cmdIgnored 0x2F#8) := by decide

/-- Format PA (R87, R88; the bytes of T4): `10101111 00000001 00101101 10100000 00001111`. -/
theorem test_decode_protocolA :
    decode c0 (.pa [0b10100101#8] 100) = .ok (.aSync 100) ∧
      decode c0 (.pa [0b10101111#8, 0b00000001#8, 0b00101101#8, 0b10100000#8, 0b00001111#8] 100) =
        .ok (.aPacket 100 packet90) ∧
      decode c0 (.pa [0x00#8] 100) = .error .notProtocolA ∧ decode c0 (.pa [] 100) = .error .notProtocolA := by decide

/-- Format PB (R89, R90): header bytes with checksum nibbles 2 and 8, and a whole frame. -/
theorem test_decode_protocolB :
    decode c0 (.pb [0b10100010#8]) = .ok (.bHdr1 0x2#4) ∧ decode c0 (.pb [0b01011000#8]) = .ok (.bHdr2 0x8#4) ∧
      decode c0 (.pb (0b10100010#8 :: 0b01011000#8 :: List.replicate 42 0x80#8)) =
        .ok (.bFrame 0x2#4 0x8#4 (List.replicate 42 0x80#8)) ∧
      decode c0 (.pb [0x00#8]) = .error .notProtocolB ∧
      decode c0 (.pb (0xA2#8 :: 0x58#8 :: List.replicate 41 0x80#8)) = .error .notProtocolB := by decide +kernel

/-- Format TX (R92, R93): `A5 82 00 00 00 00 00 00 22` and `A5 25 CA`. -/
theorem test_decode_transmitted :
    decode c0 (.tx [0b10100101#8, 0b10000010#8, 0#8, 0#8, 0#8, 0#8, 0#8, 0#8, 0b00100010#8]) = .ok .txBStart ∧
      decode c0 (.tx [0b10100101#8, 0b00100101#8, 0b11001010#8]) = .ok .txBStop ∧
      decode c0 (.tx [0xA5#8]) = .error .notTransmitted := by decide

/-- The opcode table's words, a row of every format (log entry 15). -/
theorem test_table_words :
    decodeTableWord 8 0x3 = some .drive ∧ decodeTableWord 8 0xD = some .bStart ∧
      decodeTableWord 8 0x1D = some .bStop ∧ decodeTableWord 8 0xE = some (.imuStatus false) ∧
      decodeTableWord 8 0x33 = some .cmdLeft ∧
      decodeTableWord 8 0x41 = some (.cmdIgnored 0x41#8) ∧ decodeTableWord 8 0xA5 = some (.aSync 0) ∧
      decodeTableWord 40 0xAF012DA00F = some (.aPacket 0 packet90) ∧ decodeTableWord 8 0xA2 = some (.bHdr1 0x2#4) ∧
      decodeTableWord 8 0x58 = some (.bHdr2 0x8#4) ∧
      decodeTableWord 352 (0xA258 * 2 ^ 336 + 0x8002 * 2 ^ 320) =
        some (.bFrame 0x2#4 0x8#4 (0x80#8 :: 0x02#8 :: List.replicate 40 0#8)) ∧
      decodeTableWord 72 0xA58200000000000022 = some .txBStart ∧ decodeTableWord 24 0xA525CA = some .txBStop := by
  decide +kernel

/-- A table word placed for the next step is what the next step runs. -/
theorem test_fetch_word :
    step (State.reset.withFetchWord 8 0x3) = exec .drive State.reset ∧
      step (State.reset.withFetchWord 8 0x34) = exec .cmdRight State.reset ∧
      step (State.reset.withFetchWord 40 0xAF012DA00F) = exec (.aPacket 0 packet90) State.reset :=
  ⟨rfl, rfl, rfl⟩

/-- Two wire units in one word, taken one byte a step: each sync byte is A_SYNC, and what is left waits (R94). -/
theorem test_fetch_bytewise :
    step { armed with inbox := [.pa [0xA5#8, 0xA5#8] 9] } =
        exec (.aSync 9) { armed with inbox := [.pa [0xA5#8] 9] } ∧
      step { armed with inbox := [.pb [0xA2#8, 0x00#8]] } = exec (.bRx 0xA2#8) { armed with inbox := [.pb [0x00#8]] } :=
  ⟨rfl, rfl⟩

/-- Bytes that are no unit change no register outside a packet and outside a frame (R95): at an armed, an unarmed and a
halted block. -/
theorem test_fetch_discards :
    step { armed with inbox := [.pb [0x00#8]] } = .next armed ∧
      step { State.reset with inbox := [.pb [0x00#8]] } = .next State.reset ∧
      step { stopped with inbox := [.pb [0x00#8]] } = .next stopped ∧
      step { armed with inbox := [.pa [0x00#8] 9] } = .next armed ∧
      step { stopped with inbox := [.pa [0x00#8] 9] } = .next stopped :=
  ⟨rfl, rfl, rfl, rfl, rfl⟩

/-! ### One step: motion (spec/95 V-MOT, V-PID, V-DRV) -/

/-- V-MOT-1: 50 ms after `m_last`, FORWARD from STOP switches and takes the first ramp step. -/
theorem test_mtick_at_gate :
    (after (.mtick 50) (moving .forward .stop 500 0 0)).map (·.motion) =
      some { tdir := .forward, cdir := .forward, tspeed := 500, cspeed := 100, last := 50 } := by decide +kernel

/-- V-MOT-2: STOP from a turn steps the speed down and keeps the direction. -/
theorem test_mtick_ramps_down_turn :
    (after (.mtick 50) (moving .stop .left 0 300 0)).map (·.motion) =
      some { tdir := .stop, cdir := .left, tspeed := 0, cspeed := 200, last := 50 } := by decide +kernel

/-- V-MOT-3: the target speed is clamped at both ends. -/
theorem test_setIntent_clamps :
    (after (.setIntent .forward (-5)) (moving .forward .forward 500 500 0)).map (·.motion.tspeed) = some 0 ∧
      (after (.setIntent .forward 9999) (moving .forward .forward 0 250 0)).map (·.motion) =
        some { tdir := .forward, cdir := .forward, tspeed := 500, cspeed := 250, last := 0 } := by decide +kernel

/-- V-MOT-6: ESTOP in a turn. -/
theorem test_estop :
    (after .estop { moving .left .left 300 300 7 with
        turn := { atActive := true, atAcc := 85/2 }, act := ⟨0, 300, 300, 0⟩, pid := ⟨{ integral := 5 }, {}⟩ }) =
      some (moving .stop .stop 0 0 7) := by decide +kernel

/-- V-DRV-1: BACKWARD measures magnitudes and drives the B channels. -/
theorem test_drive_backward :
    (after .drive { moving .backward .backward 100 100 0 with wheel := ⟨{ rpm := -30 }, { rpm := -80 }⟩ }).map
        (fun t => (t.act, t.pid)) =
      some (⟨0, 245, 0, 70⟩, ⟨⟨100, 70, 70, 245⟩, ⟨100, 20, 20, 70⟩⟩) := by decide +kernel

/-- V-DRV-2: a turn zeroes the integrals and leaves the other PID registers. -/
theorem test_drive_turn :
    (after .drive { moving .left .left 300 300 0 with pid := ⟨⟨100, 70, 70, 245⟩, ⟨100, 20, 20, 70⟩⟩ }).map
        (fun t => (t.act, t.pid)) =
      some (⟨0, 300, 300, 0⟩, ⟨⟨100, 0, 70, 245⟩, ⟨100, 0, 20, 70⟩⟩) := by decide +kernel

/-! ### One step: wheel speed and trackers (T9, T10, V-EST, V-GYR) -/

/-- T10: 18 pulses forward and 18 backward. -/
theorem test_est_signed :
    (after (.est 18 65518) State.reset).map (fun t => (t.wheel, t.out.tlm)) =
      some (⟨⟨18, 30⟩, ⟨65518, -30⟩⟩, [.rate 30 (-30)]) := by decide +kernel

/-- V-EST-4: half the counter's range reads as the most negative movement. -/
theorem test_est_aliases :
    (after (.est 32768 0) State.reset).map (·.wheel.l.rpm) = some (-163840/3) := by decide +kernel

/-- T9: the ninth step reaches 90 exactly and stops in the same operation. -/
theorem test_gyro_completes_left :
    (after (.gyro 100) { moving .left .left 300 300 0 with
        turn := { atActive := true, atAcc := 80 }, act := ⟨0, 300, 300, 0⟩ }) =
      some { moving .stop .stop 0 0 0 with out := { tlm := [.angle 90] } } := by decide +kernel

/-- V-GYR-6: both trackers are updated before the completion clears both. -/
theorem test_gyro_both_trackers :
    (after (.gyro 300) { armed with turn := { atActive := true, atAcc := 60, utActive := true, utAcc := 30 } }).map
        (fun t => (t.turn, t.out.tlm)) =
      some ({}, [.angle 90, .uturn 60]) := by decide +kernel

/-! ### One step: commands (V-CMD) -/

/-- The start state of V-CMD-1. -/
def commanded : State :=
  { moving .forward .forward 500 500 0 with
    act := ⟨400, 0, 410, 0⟩, turn := { atActive := true, atAcc := 12, utActive := true, utAcc := 34 } }

/-- The columns of V-CMD-1. -/
def columns (t : State) : Motion × Actuators × Turn × CommandRegs := (t.motion, t.act, t.turn, t.cmd)

theorem test_cmd_stop :
    (after .cmdStop commanded).map columns =
      some (⟨.stop, .forward, 0, 500, 0⟩, ⟨400, 0, 410, 0⟩, {}, ⟨true, false, true⟩) := by decide +kernel
theorem test_cmd_forward :
    (after .cmdForward commanded).map columns =
      some (⟨.forward, .forward, 500, 500, 0⟩, ⟨400, 0, 410, 0⟩, {}, ⟨true, false, true⟩) := by decide +kernel
theorem test_cmd_backward :
    (after .cmdBackward commanded).map columns =
      some (⟨.backward, .forward, 500, 500, 0⟩, ⟨400, 0, 410, 0⟩, {}, ⟨true, false, true⟩) := by decide +kernel
theorem test_cmd_left :
    (after .cmdLeft commanded).map columns =
      some (⟨.left, .left, 300, 300, 0⟩, ⟨0, 300, 300, 0⟩, ⟨true, 0, .left, true, 34⟩, ⟨true, false, true⟩) := by
  decide +kernel
theorem test_cmd_right :
    (after .cmdRight commanded).map columns =
      some (⟨.right, .right, 300, 300, 0⟩, ⟨300, 0, 0, 300⟩, ⟨true, 0, .right, true, 34⟩, ⟨true, false, true⟩) := by
  decide +kernel
theorem test_cmd_uturn :
    (after .cmdUturn commanded).map columns =
      some (⟨.uturn, .uturn, 300, 300, 0⟩, ⟨0, 300, 300, 0⟩, ⟨true, 12, .left, true, 0⟩, ⟨true, false, true⟩) := by
  decide +kernel
theorem test_cmdRx_ignored :
    (after (.cmdRx 0x36#8) commanded).map columns =
      some (⟨.forward, .forward, 500, 500, 0⟩, ⟨400, 0, 410, 0⟩, ⟨true, 12, .left, true, 34⟩, ⟨true, false, true⟩) := by
  decide +kernel

/-- V-CMD-3: one notification. -/
theorem test_notify :
    (after .notify { armed with cmd := ⟨true, false, true⟩ }).map (fun t => (t.cmd, t.out.note)) =
      some (⟨true, true, true⟩, [.connected]) := by decide +kernel

/-! ### One step: Protocol A (T4, V-PA) -/

/-- V-PA-9 (b): the sixteenth byte wraps the write cursor and sets the cycle flag. -/
theorem test_fill_wraps :
    (after (.aFill 0x33#8) (ringed 0 (List.replicate 15 0x33#8) { wr := 15 })).map
        (fun t => (t.protoA.wr, t.protoA.cycle, memFind t.protoA.buf 15)) =
      some (0, true, some 0x33#8) := by decide +kernel

/-- T4: the reading in the ring is decoded by one poll. -/
theorem test_apoll_reading :
    (after (.apoll 100) (ringed 0 [0xA5#8, 0xAF#8, 0x01#8, 0x2D#8, 0xA0#8, 0x0F#8] { wr := 6 })).map
        (fun t => (t.out.range, t.protoA.rd, t.protoA.inpkt, t.protoA.lastTime, t.protoA.lastAngle)) =
      some ([⟨47#7, 90, 1000, true, true, true⟩], 6, false, 100, 90) := by decide +kernel

/-- V-PA-10: the overrun recovery moves the write cursor to 0 and reports. -/
theorem test_apoll_overrun :
    (after (.apoll 100) (ringed 10 [0x11#8, 0x12#8, 0x13#8, 0x14#8, 0x15#8, 0x16#8, 0xA5#8, 0xAF#8, 0x01#8]
        { wr := 3, rd := 10, cycle := true })).map
        (fun t => (t.protoA.wr, t.protoA.rd, t.protoA.cycle, t.out.status, t.out.range)) =
      some (0, 0, false, [.aOverrun], []) := by decide +kernel

/-- V-PA-2: 90.984375 degrees after 90 is suppressed, 91 is emitted. -/
theorem test_packet_suppression :
    (after (.aPacket 100 { packet90 with angleQ6 := 5823#15 })
        (ringed 0 [] { inpkt := true, lastAngle := 90 })).map (·.out.range) = some [] ∧
      (after (.aPacket 100 { packet90 with angleQ6 := 5824#15 })
        (ringed 0 [] { inpkt := true, lastAngle := 90 })).map (·.out.range) =
        some [⟨47#7, 91, 1000, true, true, true⟩] := by decide +kernel

/-- A sync byte starts a packet at its poll's time (R184). -/
theorem test_sync_starts :
    (after (.aSync 9) armed).map (fun t => (t.protoA.inpkt, t.protoA.idx, t.protoA.lastTime, t.protoA.pkt)) =
      some (true, 0, 9, #v[0#8, 0#8, 0#8, 0#8, 0#8]) := by decide +kernel

/-! ### One step: Protocol B (T7, V-PB) -/

/-- V-PB-1: a byte that is no second header sends the machine back and is not looked at again. -/
theorem test_bRx_false_header :
    (after (.bRx 0xA7#8) { armed with protoB := { armed := true, phase := .waitHeader2, h1 := 0xA2#8 } }).map
        (fun t => (t.protoB.phase, t.protoB.h1, t.protoB.armed)) =
      some (.waitHeader1, 0xA2#8, true) := by decide +kernel

/-- V-PB-1: the two header bytes. -/
theorem test_headers :
    (after (.bHdr1 0x2#4) armed).map (fun t => (t.protoB.phase, t.protoB.h1)) = some (.waitHeader2, 0xA2#8) ∧
      (after (.bHdr2 0x8#4) { armed with protoB := { armed := true, phase := .waitHeader2 } }).map
        (fun t => (t.protoB.phase, t.protoB.h2, t.protoB.cnt)) = some (.collect, 0x58#8, 0) := by decide +kernel

/-- F1 of T7: start angle 640/64, every distance 1000. -/
def frameF1 : List Byte := 0x80#8 :: 0x02#8 :: (List.replicate 20 [0xE8#8, 0x03#8]).flatten

/-- T7: F1 from reset fills the first twenty entries of the working buffer, half a degree apart. -/
theorem test_frame_F1 :
    (after (.bFrame 0x2#4 0x8#4 frameF1) armed).map (fun t => (t.protoB.prevStart, t.protoB.samples, t.protoB.phase)) =
        some (10, 20, .waitHeader1) ∧
      (after (.bFrame 0x2#4 0x8#4 frameF1) armed).map
        (fun t => (memFind t.protoB.work 0, memFind t.protoB.work 19)) =
        some (some (0#16, 1000#16), some (950#16, 1000#16)) := by decide +kernel

/-- V-PB-4 (a): the last sample of an arc through 360 degrees. -/
theorem test_frame_wraps :
    (after (.bFrame 0x2#4 0x8#4 (0x80#8 :: 0x02#8 :: (List.replicate 20 [0x07#8, 0x00#8]).flatten))
        { armed with protoB := { armed := true, prevStart := 250 } }).map
        (fun t => (memFind t.protoB.work 18, memFind t.protoB.work 19)) =
      some (some (35800#16, 7#16), some (400#16, 7#16)) := by decide +kernel

/-- V-PB-6: the two commands the block sends. -/
theorem test_sent_commands :
    (after .bStart armed).map (·.out.bTx) = some [0xA5#8, 0x82#8, 0#8, 0#8, 0#8, 0#8, 0#8, 0#8, 0x22#8] ∧
      (after .txBStop armed).map (·.out.bTx) = some [0xA5#8, 0x25#8, 0xCA#8] := by decide +kernel

/-! ### One step: system -/

/-- RESET from the fatal state brings every register back (R230, R231). -/
theorem test_reset_leaves_halted :
    after .reset { stopped with motion := { cspeed := 300 }, act := ⟨1, 0, 0, 1⟩ } = some State.reset := by
  decide +kernel

/-- FATAL freezes the actuators at their last values (R232, R256). -/
theorem test_fatal :
    (after .fatal { armed with act := ⟨400, 0, 410, 0⟩ }).map (fun t => (t.sys.halted, t.act, t.out.status)) =
      some (true, ⟨400, 0, 410, 0⟩, [.fatalConfig]) := by decide +kernel

/-- IMU_STATUS 0 is reported once (R233). -/
theorem test_imu :
    (after (.imuStatus false) armed).map (fun t => (t.sys.imuFault, t.out.status)) = some (true, [.imuInitFail]) ∧
      (after (.imuStatus false) { armed with sys := ⟨false, true⟩ }).map (·.out.status) = some [] := by decide +kernel

/-- SAMPLE is six events in the order of R235. -/
theorem test_sample_order :
    (sampleEvents c0 100 18 7 50).map (decode c0) =
      [.ok (.est 18 7), .ok (.mtick 100), .ok .drive, .ok (.gyro 50), .ok (.apoll 100), .ok .notify] := by
  rfl

/-! ### Witnesses: the hypotheses of the statements are met, clause by clause, at the ends of their ranges -/

theorem witness_HaltedMachineIsFrozen :
    stopped.sys.halted = true ∧ (Instr.drive ≠ .reset) ∧ exec .drive stopped = .next stopped ∧
      (∃ t, exec .reset stopped = .next t ∧ t.sys.halted = false) :=
  ⟨rfl, by decide, rfl, _, rfl, rfl⟩

theorem witness_FatalAloneHalts :
    running armed ∧ (after .fatal armed).map (·.sys.halted) = some true ∧
      (after .estop armed).map (·.sys.halted) = some false := ⟨rfl, rfl, rfl⟩

/-- The failing report, and each kind of report that changes nothing. -/
theorem witness_ImuFailureIsReportedOnce :
    running armed ∧ (after (.imuStatus false) armed).map (·.sys.imuFault) = some true ∧
      after (.imuStatus true) armed = some armed ∧
      after (.imuStatus false) { armed with sys := ⟨false, true⟩ } = some { armed with sys := ⟨false, true⟩ } ∧
      after (.imuStatus false) stopped = some stopped ∧
      (after .fatal { armed with sys := ⟨false, true⟩ }).map (·.sys.imuFault) = some true := by decide +kernel

/-- Below, at and above both ends of the clamp. -/
theorem witness_SetIntentRecordsClampedIntent :
    running armed ∧ 0 ≤ armed.cfg.maxSpeed ∧
      (after (.setIntent .left (-1)) armed).map (·.motion.tspeed) = some 0 ∧
      (after (.setIntent .left 0) armed).map (·.motion.tspeed) = some 0 ∧
      (after (.setIntent .left 500) armed).map (·.motion.tspeed) = some 500 ∧
      (after (.setIntent .left 501) armed).map (·.motion.tspeed) = some 500 ∧
      after (.setIntent .left 501) stopped = some stopped := by decide +kernel

theorem witness_EmergencyStopIsTotal :
    running (moving .left .left 300 300 7) ∧
      after .estop (moving .left .left 300 300 7) = some (moving .stop .stop 0 0 7) ∧
      ¬ running stopped ∧ after .estop stopped = some stopped := by decide +kernel

/-- One millisecond short of the interval, also across the clock's wrap. -/
theorem witness_MtickBeforeIntervalIsNoOp :
    running (moving .forward .stop 500 0 0) ∧
      ((49 : Int) - 0) % 2 ^ 32 < 50 ∧
      after (.mtick 49) (moving .forward .stop 500 0 0) = some (moving .forward .stop 500 0 0) ∧
      ((9 : Int) - 4294967256) % 2 ^ 32 < 50 ∧
      after (.mtick 9) (moving .forward .stop 500 0 4294967256) = some (moving .forward .stop 500 0 4294967256) := by
  decide +kernel

/-- At the interval exactly: STOP at rest; the last partial step up; the last partial step down; a step at equality. -/
theorem witness_MtickRampsTowardTarget :
    running (moving .stop .stop 0 0 0) ∧ c0.rnd = .exact ∧ 0 ≤ c0.speedStep ∧ (50 : Int) ≤ ((50 : Int) - 0) % 2 ^ 32 ∧
      after (.mtick 50) (moving .stop .stop 0 0 0) = some (moving .stop .stop 0 0 50) ∧
      after (.mtick 50) (moving .forward .forward 500 450 0) = some (moving .forward .forward 500 500 50) ∧
      after (.mtick 50) (moving .left .left 300 350 0) = some (moving .left .left 300 300 50) ∧
      after (.mtick 50) (moving .forward .forward 300 300 0) = some (moving .forward .forward 300 300 50) := by
  decide +kernel

/-- From STOP, from the other driven direction at full speed, and held during a turn. -/
theorem witness_MtickSwitchesToDrivenDirection :
    running armed ∧ c0.rnd = .exact ∧ 0 ≤ c0.speedStep ∧ (50 : Int) ≤ ((50 : Int) - 0) % 2 ^ 32 ∧
      after (.mtick 50) (moving .backward .stop 7 0 0) = some (moving .backward .backward 500 100 50) ∧
      after (.mtick 50) (moving .forward .backward 7 500 0) = some (moving .forward .forward 500 500 50) ∧
      after (.mtick 50) (moving .forward .left 500 300 0) = some (moving .forward .left 500 300 50) ∧
      after (.mtick 50) (moving .forward .uturn 500 300 0) = some (moving .forward .uturn 500 300 50) := by
  decide +kernel

/-- From STOP, from a driven direction and from another turn. -/
theorem witness_MtickSwitchesToTurn :
    running armed ∧ (50 : Int) ≤ ((50 : Int) - 0) % 2 ^ 32 ∧
      after (.mtick 50) (moving .left .stop 300 0 0) = some (moving .left .left 300 300 50) ∧
      after (.mtick 50) (moving .right .forward 300 500 0) = some (moving .right .right 300 300 50) ∧
      after (.mtick 50) (moving .uturn .left 300 300 0) = some (moving .uturn .uturn 300 300 50) := by decide +kernel

/-- One step above `SPEED_STEP`, at it and below it. -/
theorem witness_MtickRampsDownToStop :
    running armed ∧ c0.rnd = .exact ∧ (50 : Int) ≤ ((50 : Int) - 0) % 2 ^ 32 ∧
      after (.mtick 50) (moving .stop .forward 0 101 0) = some (moving .stop .forward 0 1 50) ∧
      after (.mtick 50) (moving .stop .forward 0 100 0) = some (moving .stop .stop 0 0 50) ∧
      after (.mtick 50) (moving .stop .right 0 99 0) = some (moving .stop .stop 0 0 50) := by decide +kernel

/-- FORWARD with one output clamped at each end; BACKWARD. -/
theorem witness_DriveRunsBothPids :
    running armed ∧ c0.rnd = .exact ∧ 0 ≤ c0.maxSpeed ∧
      (after .drive { moving .forward .forward 500 500 0 with wheel := ⟨{ rpm := 0 }, { rpm := 900 }⟩ }).map (·.act) =
        some ⟨500, 0, 0, 0⟩ ∧
      (after .drive { moving .backward .backward 100 100 0 with wheel := ⟨{ rpm := -80 }, { rpm := 80 }⟩ }).map (·.act) =
        some ⟨0, 70, 0, 70⟩ := by decide +kernel

/-- STOP and the three turns. -/
theorem witness_DriveTurnsOpenLoopAndStops :
    running armed ∧ 0 ≤ c0.turnSpeed ∧
      (after .drive { armed with act := ⟨1, 2, 3, 4⟩ }).map (·.act) = some ⟨0, 0, 0, 0⟩ ∧
      (after .drive (moving .right .right 300 10 0)).map (·.act) = some ⟨300, 0, 0, 300⟩ ∧
      (after .drive (moving .left .left 300 10 0)).map (·.act) = some ⟨0, 300, 300, 0⟩ ∧
      (after .drive (moving .uturn .uturn 300 10 0)).map (·.act) = some ⟨0, 300, 300, 0⟩ := by decide +kernel

theorem witness_PidOutputIsAlwaysClamped :
    running (moving .forward .forward 500 500 0) ∧ 0 ≤ c0.maxSpeed ∧
      driven (moving .forward .forward 500 500 0).motion.cdir = true ∧
      (after .drive (moving .forward .forward 500 500 0)).map (fun t => (t.pid.l.output, t.pid.r.output)) =
        some (500, 500) := by decide +kernel

/-- Each of the three turns. -/
theorem witness_EagerAndTickPathsConverge :
    running armed ∧ armed.cmd.armed = true ∧ (50 : Int) ≤ ((50 : Int) - 0) % 2 ^ 32 ∧ armed.motion.cdir ≠ .left ∧
      (after .cmdLeft armed).map (·.act) =
        (((after (.setIntent .left 9) armed).bind (after (.mtick 50))).bind (after .drive)).map (·.act) ∧
      (after .cmdRight armed).map (·.act) =
        (((after (.setIntent .right 9) armed).bind (after (.mtick 50))).bind (after .drive)).map (·.act) ∧
      (after .cmdUturn armed).map (·.act) =
        (((after (.setIntent .uturn 9) armed).bind (after (.mtick 50))).bind (after .drive)).map (·.act) := by
  decide +kernel

/-- A turn command, its byte, and the command byte below the three. -/
theorem witness_OnlyMotionControllerWritesActuators :
    (∃ t, exec .cmdLeft armed = .next t ∧ t.act ≠ armed.act) ∧
      (∃ t, exec (.cmdRx 0x33#8) armed = .next t ∧ t.act ≠ armed.act) ∧ commandDirection c0 0x33#8 = some .left ∧
      (after (.cmdRx 0x32#8) { armed with act := ⟨1, 2, 3, 4⟩ }).map (·.act) = some ⟨1, 2, 3, 4⟩ :=
  ⟨⟨_, rfl, by decide +kernel⟩, ⟨_, rfl, by decide +kernel⟩, rfl, by decide +kernel⟩

/-- Forward, backward, and the two counts at which the sign turns. -/
theorem witness_EstReportsSignedRates :
    running armed ∧ c0.rnd = .exact ∧
      (after (.est 18 65518) armed).map (fun t => (t.wheel.l.rpm, t.wheel.r.rpm)) = some (30, -30) ∧
      (after (.est 32767 32768) armed).map (fun t => (t.wheel.l.rpm, t.wheel.r.rpm)) =
        some (163835/3, -163840/3) := by decide +kernel

/-- The narrowest counter and the default one, at the counts where the sign turns. -/
theorem witness_EncoderDeltaIsWrappedDifference :
    2 ≤ c0.encBits ∧ encoderDelta { c0 with encBits := 2 } 1 0 = 1 ∧ encoderDelta { c0 with encBits := 2 } 2 0 = -2 ∧
      encoderDelta c0 32767 0 = 32767 ∧ encoderDelta c0 32768 0 = -32768 := by decide +kernel

/-- A LEFT turn one step short of its bound and at it; a RIGHT turn at its bound; the U-turn at either sign; the signed
U-turn at `-180` (still turning) and at `+180`; no tracker active. -/
theorem witness_GyroIntegratesAndCompletes :
    running armed ∧ c0.rnd = .exact ∧
      (after (.gyro 99) { armed with turn := { atActive := true, atAcc := 80 } }).map (·.turn) =
        some { atActive := true, atAcc := 899/10 } ∧
      (after (.gyro 100) { armed with turn := { atActive := true, atAcc := 80 } }).map (·.turn) = some {} ∧
      (after (.gyro (-100)) { armed with turn := { atActive := true, atAcc := -80, atDir := .right } }).map (·.turn) =
        some { atDir := .right } ∧
      (after (.gyro (-100)) { armed with turn := { utActive := true, utAcc := -170 } }).map (·.turn) = some {} ∧
      (after (.gyro 100) { armed with turn := { utActive := true, utAcc := 170 } }).map (·.turn) = some {} ∧
      (after (.gyro (-100)) { armed with cfg := { c0 with uturnSigned := true }
                                         turn := { utActive := true, utAcc := -170 } }).map (·.turn) =
        some { utActive := true, utAcc := -180 } ∧
      (after (.gyro 100) { armed with cfg := { c0 with uturnSigned := true }
                                      turn := { utActive := true, utAcc := 170 } }).map (·.turn) = some {} ∧
      after (.gyro 100) armed = some armed := by decide +kernel

theorem witness_DriveCommandsSetTheIntent :
    running armed ∧ armed.cmd.armed = true ∧ (after .cmdStop armed).map (·.motion.tspeed) = some 0 ∧
      (after .cmdForward armed).map (·.motion.tdir) = some .forward ∧
      (after .cmdBackward armed).map (·.motion.tdir) = some .backward := by decide +kernel

theorem witness_TurnCommandsActuateAtOnce :
    running armed ∧ armed.cmd.armed = true ∧ 0 ≤ c0.turnSpeed ∧
      (after .cmdLeft armed).map (·.act) = some ⟨0, 300, 300, 0⟩ ∧
      (after .cmdRight armed).map (·.act) = some ⟨300, 0, 0, 300⟩ ∧
      (after .cmdUturn armed).map (·.turn.utActive) = some true := by decide +kernel

/-- The bytes on either side of the six. -/
theorem witness_IgnoredByteOnlyLatchesConnected :
    running armed ∧ armed.cmd.armed = true ∧
      after (.cmdIgnored 0x36#8) armed = some { armed with cmd := ⟨true, false, true⟩ } ∧
      after (.cmdRx 0x2F#8) armed = some { armed with cmd := ⟨true, false, true⟩ } := by decide +kernel

theorem witness_UnarmedBytesAreLost :
    State.reset.cmd.armed = false ∧ State.reset.protoB.armed = false ∧
      after (.cmdRx 0x33#8) State.reset = some State.reset ∧ after (.bRx 0xA2#8) State.reset = some State.reset := by
  decide +kernel

theorem witness_AcceptedBytesRearmTheirChannel :
    running armed ∧ armed.cmd.armed = true ∧ armed.protoB.armed = true ∧
      (∃ t, exec (.cmdRx 0x41#8) armed = .next t ∧ t.cmd.armed = true) ∧
      ∃ t, exec (.bRx 0x41#8) armed = .next t ∧ t.protoB.armed = true :=
  ⟨rfl, rfl, rfl, ⟨_, rfl, rfl⟩, _, rfl, rfl⟩

/-- Announced, already announced, not connected, halted; a step once announced, and a RESET. -/
theorem witness_NotifyAnnouncesOnce :
    (after .notify { armed with cmd := ⟨true, false, true⟩ }).map (·.cmd.announced) = some true ∧
      (after .notify { armed with cmd := ⟨true, true, true⟩ }).map (·.out.note) = some [] ∧
      after .notify armed = some armed ∧ after .notify stopped = some stopped ∧
      step { armed with cmd := ⟨true, true, true⟩, inbox := [.ev { op := 6#4 }] } =
        .next { armed with cmd := ⟨true, true, true⟩ } ∧
      (after .reset { armed with cmd := ⟨true, true, true⟩ }).map (·.cmd.announced) = some false :=
  ⟨rfl, rfl, rfl, rfl, rfl, rfl⟩

theorem witness_ArmSetsOneChannel :
    running State.reset ∧ (after (.arm .command) State.reset).map (fun t => (t.cmd.armed, t.protoB.armed)) =
        some (true, false) ∧
      (after (.arm .protocolB) State.reset).map (fun t => (t.cmd.armed, t.protoB.armed)) = some (false, true) ∧
      ¬ running stopped ∧ after (.arm .command) stopped = some stopped := by decide +kernel

/-- The first entry and the last one. -/
theorem witness_FillStoresThenAdvances :
    running armed ∧ armed.protoA.wr < c0.aBufSize ∧
      (after (.aFill 1#8) armed).map (fun t => (t.protoA.wr, t.protoA.cycle)) = some (1, false) ∧
      (after (.aFill 1#8) (ringed 0 [] { wr := 15 })).map (fun t => (t.protoA.wr, t.protoA.cycle)) =
        some (0, true) := by decide +kernel

/-- A full ring whose entry 0 holds a sync byte, at the end of a fill cycle. -/
def lapped : State := ringed 0 (0xA5#8 :: List.replicate 15 0x33#8) { wr := 3, rd := 10, cycle := true }

theorem lapped_ringInv : ringInv lapped := by
  refine ⟨by decide, by decide, by decide, by decide, by decide +kernel, .inl ?_⟩
  have all : ∀ i ∈ List.range 16, ringWritten lapped i := by decide +kernel
  exact fun i hi => all i (List.mem_range.2 hi)

/-- Two bytes behind the cursor, no cycle. -/
def two : State := ringed 0 [1#8, 2#8] { wr := 2 }

theorem two_ringInv : ringInv two := by
  refine ⟨by decide, by decide, by decide, by decide, by decide +kernel, .inr ⟨rfl, by decide, ?_⟩⟩
  have all : ∀ i ∈ List.range 2, ringWritten two i := by decide +kernel
  exact fun i hi => all i (List.mem_range.2 hi)

/-- `two` with a packet of three bytes whose last came at time 0. -/
def midPacket : State := { two with protoA := { two.protoA with inpkt := true, idx := 3, pkt := #v[9, 9, 9, 0, 0] } }

theorem midPacket_ringInv : ringInv midPacket := by
  obtain ⟨hw, hr, -, -, hm, hb⟩ := two_ringInv
  exact ⟨hw, hr, by decide, by decide, hm, hb⟩

/-- With the overrun recovery and without it; a packet completed by the new bytes at the stall threshold, and abandoned
one millisecond later. -/
theorem witness_PollCatchesUpWithTheFiller :
    running lapped ∧ lapped.cfg.wf = true ∧ ringInv lapped ∧ ringInv two ∧ ringInv midPacket ∧
      (after (.apoll 5) lapped).map (fun t => (t.protoA.rd, t.protoA.wr, t.out.status)) = some (0, 0, [.aOverrun]) ∧
      (after (.apoll 5) two).map (fun t => (t.protoA.rd, t.protoA.wr, t.out.status)) = some (2, 2, []) ∧
      (after (.apoll 500) midPacket).map (fun t => (t.protoA.inpkt, t.protoA.idx, t.protoA.pkt, t.protoA.lastTime)) =
        some (false, 0, #v[9, 9, 9, 1, 2], 500) ∧
      (after (.apoll 501) midPacket).map (fun t => (t.protoA.inpkt, t.protoA.idx, t.protoA.pkt, t.protoA.rd)) =
        some (false, 0, #v[9, 9, 9, 0, 0], 2) :=
  ⟨rfl, by decide, lapped_ringInv, two_ringInv, midPacket_ringInv, by decide +kernel, by decide +kernel,
    by decide +kernel, by decide +kernel⟩

/-- Two other bytes and a sync byte at entries 13 to 15, the packet of T4 at 0 to 4: at the end of a fill cycle, while a
packet is open. -/
def wrapped : State :=
  ringed 13 [0x11#8, 0x22#8, 0xA5#8, 0xAF#8, 0x01#8, 0x2D#8, 0xA0#8, 0x0F#8]
    { rd := 13, wr := 5, cycle := true, inpkt := true, idx := 4 }

/-- One millisecond past the stall threshold, entry 0 no sync byte; both disjuncts of the angle's test, at their
boundaries: a whole step, and any smaller angle. -/
theorem witness_PacketInTheRingIsEmitted :
    running wrapped ∧ c0.rnd = .exact ∧ c0.aPktLen = 5 ∧ c0.aSyncStored = false ∧ 2 + 7 ≤ c0.aBufSize ∧
      wrapped.protoA.wr = (wrapped.protoA.rd + 2 + 6) % c0.aBufSize ∧
      memGet (unlistedByte .aBuf) wrapped.protoA.buf 0 = some 0xAF#8 ∧
      (c0.lidarTimeout : Int) < ((501 : Int) - (wrapped.protoA.lastTime : Int)) % 2 ^ c0.timeBits ∧
      (∀ k b, ([0x11#8, 0x22#8] ++ c0.aSync :: packet90.toBytes)[k]? = some b →
        memGet (unlistedByte .aBuf) wrapped.protoA.buf ((wrapped.protoA.rd + k) % c0.aBufSize) = some b) ∧
      (after (.apoll 501) { wrapped with protoA := { wrapped.protoA with lastAngle := 89 } }).map (·.out.range) =
        some [⟨47#7, 90, 1000, true, true, true⟩] ∧
      (after (.apoll 501) { wrapped with protoA := { wrapped.protoA with lastAngle := 5761/64 } }).map (·.out.range) =
        some [⟨47#7, 90, 1000, true, true, true⟩] := by
  refine ⟨rfl, rfl, rfl, rfl, by decide, rfl, by decide +kernel, by decide, ?_, by decide +kernel, by decide +kernel⟩
  intro k b h
  have bytes : ∀ k ∈ List.range 8, memGet (unlistedByte .aBuf) wrapped.protoA.buf ((13 + k) % 16) =
      ([0x11#8, 0x22#8] ++ c0.aSync :: packet90.toBytes)[k]? := by decide +kernel
  have hk : k < 8 := by
    have := (List.getElem?_eq_some_iff.1 h).1
    simpa [APacket.toBytes] using this
  exact (bytes k (List.mem_range.2 hk)).trans h

/-- 500 ms old (kept), 501 ms old (abandoned), and no packet; with new bytes, one of them a sync byte, abandoned before
they are looked at. -/
theorem witness_StallAbandonsThePacket :
    running armed ∧ armed.protoA.cycle = false ∧ armed.protoA.rd = armed.protoA.wr ∧
      (after (.apoll 500) (ringed 0 [] { inpkt := true, idx := 2 })).map (·.protoA.idx) = some 2 ∧
      (after (.apoll 501) (ringed 0 [] { inpkt := true, idx := 2 })).map (fun t => (t.protoA.inpkt, t.protoA.idx)) =
        some (false, 0) ∧
      after (.apoll 501) armed = some armed ∧
      (after (.apoll 501) (ringed 0 [0x01#8, 0xA5#8, 0xAF#8] { wr := 3, inpkt := true, idx := 2 })).map
        (fun t => (t.protoA.inpkt, t.protoA.idx, t.protoA.pkt)) = some (true, 1, #v[0xAF#8, 0, 0, 0, 0]) := by
  decide +kernel

/-- Outside a packet, with and without A_SYNC_STORED; inside one, at the first index, the last but one and the last. -/
theorem witness_SyncByteStartsAPacketOrIsData :
    running armed ∧ armed.protoA.inpkt = false ∧
      (after (.aSync 9) armed).map (fun t => (t.protoA.inpkt, t.protoA.idx)) = some (true, 0) ∧
      (after (.aSync 9) { armed with cfg := { c0 with aSyncStored := true } }).map
        (fun t => (t.protoA.idx, t.protoA.pkt)) = some (1, #v[0xA5#8, 0, 0, 0, 0]) ∧
      (after (.aSync 9) (ringed 0 [] { inpkt := true })).map (fun t => (t.protoA.idx, t.protoA.pkt)) =
        some (1, #v[0xA5#8, 0, 0, 0, 0]) ∧
      (after (.aSync 9) (ringed 0 [] { inpkt := true, idx := 3 })).map (fun t => (t.protoA.idx, t.protoA.pkt)) =
        some (4, #v[0, 0, 0, 0xA5#8, 0]) ∧ c0.rnd = .exact ∧ 4 + 1 = c0.aPktLen ∧
      (after (.aSync 9) (ringed 0 [] { inpkt := true, idx := 4, pkt := #v[0xAF#8, 0x01#8, 0x2D#8, 0, 0] })).map
        (fun t => (t.protoA.inpkt, t.out.range)) = some (false, [⟨47#7, 90, 10560, true, true, true⟩]) := by
  decide +kernel

/-- Both distance bounds are included; one quarter millimetre beyond either, quality 0 and a clear check bit are
dropped. Outside a packet nothing is taken; at the last index the first byte ends the packet; with A_SYNC_STORED the five
bytes of a stored reading start with the sync byte. -/
theorem witness_PacketIsValidatedAndEmitted :
    running armed ∧ c0.rnd = .exact ∧ c0.aPktLen = 5 ∧
      ([200#16, 48000#16].map fun d =>
        (after (.aPacket 9 { packet90 with distQ2 := d }) (ringed 0 [] { inpkt := true })).map (·.out.range.length)) =
          [some 1, some 1] ∧
      ([{ packet90 with distQ2 := 199#16 }, { packet90 with distQ2 := 48001#16 }, { packet90 with quality := 0#7 },
          { packet90 with check := 0#1 }].map fun p =>
        (after (.aPacket 9 p) (ringed 0 [] { inpkt := true })).map (·.out.range.length)) =
          [some 0, some 0, some 0, some 0] ∧
      after (.aPacket 9 packet90) armed = some armed ∧
      (after (.aPacket 9 packet90) (ringed 0 [] { inpkt := true, idx := 4 })).map
        (fun t => (t.protoA.inpkt, t.protoA.pkt)) = some (false, #v[0, 0, 0, 0, 0xAF#8]) ∧
      { packet90 with quality := 0x25#7 }.toBytes.head? = some c0.aSync ∧
      (after (.aPacket 9 { packet90 with quality := 0x25#7 }) { armed with cfg := { c0 with aSyncStored := true } }).map
        (·.out.range) = some [⟨37#7, 90, 1000, true, true, true⟩] := by decide +kernel

/-- Entry 0 at the end of a fill cycle; the first unread entry, also inside a packet; the third one, across the wrap and
after two bytes of a packet, at the last index; the write cursor outside the buffer. -/
theorem witness_RingMisuseFaultsByName :
    running armed ∧ exec (.apoll 9) (ringed 0 [] { cycle := true }) = .fault (.unwrittenEntry .aBuf 0) ∧
      exec (.apoll 9) (ringed 0 [] { wr := 1 }) = .fault (.unwrittenEntry .aBuf 0) ∧
      exec (.apoll 9) (ringed 0 [] { wr := 1, inpkt := true, idx := 5 }) = .fault (.unwrittenEntry .aBuf 0) ∧
      exec (.apoll 9) (ringed 14 [1#8, 2#8] { rd := 14, wr := 1, inpkt := true, idx := 4 }) =
        .fault (.unwrittenEntry .aBuf 0) ∧
      exec (.aFill 9#8) (ringed 0 [] { wr := 16 }) = .fault (.noSuchEntry .aBuf 16) :=
  ⟨rfl, rfl, rfl, rfl, rfl, rfl⟩

/-- Both header states, a byte that passes and one that does not. -/
theorem witness_HeaderTestsMoveTheFrameMachine :
    running armed ∧ armed.protoB.armed = true ∧ armed.protoB.phase = .waitHeader1 ∧
      (after (.bRx 0xAF#8) armed).map (fun t => (t.protoB.phase, t.protoB.h1)) = some (.waitHeader2, 0xAF#8) ∧
      after (.bRx 0x5F#8) armed = some armed ∧
      (after (.bRx 0x5F#8) { armed with protoB := { armed := true, phase := .waitHeader2 } }).map
        (fun t => (t.protoB.phase, t.protoB.h2)) = some (.collect, 0x5F#8) ∧
      (after (.bRx 0xAF#8) { armed with protoB := { armed := true, phase := .waitHeader2 } }).map (·.protoB) =
        some { armed := true } := by decide +kernel

theorem witness_HeaderUnitsAreKept :
    running armed ∧ armed.protoB.armed = true ∧
      (after (.bHdr1 0xF#4) armed).map (·.protoB.h1) = some 0xAF#8 ∧
      (after (.bHdr2 0xF#4) { armed with protoB := { armed := true, phase := .waitHeader2 } }).map (·.protoB.h2) =
        some 0x5F#8 ∧
      (after (.bHdr1 0xF#4) { armed with protoB := { armed := true, phase := .waitHeader2 } }).map (·.protoB) =
        some { armed := true } ∧
      after (.bHdr2 0xF#4) armed = some armed := by decide +kernel

/-- A frame half collected under the small configuration: `n` bytes of value 1. -/
def collecting (n : Nat) (x : Byte) (pb : ProtocolB) : State :=
  small { pb with phase := .collect, cnt := n, xor := x, buf := (List.range n).map fun i => ⟨i, 1#8⟩ }

/-- The first byte and the last byte but one. -/
theorem witness_CollectedByteIsStoredAndXored :
    running (collecting 0 0#8 {}) ∧ (collecting 0 0#8 {}).protoB.cnt + 1 < tiny.bCollectLen ∧
      Memory.wf (unlistedByte .bBuf) tiny.bCollectLen (collecting 2 0#8 {}).protoB.buf = true ∧
      (after (.bRx 0x80#8) (collecting 0 0#8 {})).map (fun t => (t.protoB.xor, t.protoB.cnt)) = some (0x80#8, 1) ∧
      (collecting 2 0#8 {}).protoB.cnt + 1 < tiny.bCollectLen ∧
      (after (.bRx 0x80#8) (collecting 2 0#8 {})).map (fun t => (t.protoB.xor, t.protoB.cnt)) =
        some (0x80#8, 3) := by decide +kernel

theorem witness_CorruptedFrameIsDropped :
    running (collecting 3 1#8 {}) ∧ (collecting 3 1#8 {}).protoB.cnt + 1 = tiny.bCollectLen ∧
      Memory.wf (unlistedByte .bBuf) tiny.bCollectLen (collecting 3 1#8 {}).protoB.buf = true ∧
      (collecting 3 1#8 {}).protoB.xor ^^^ 2#8 ≠
        (collecting 3 1#8 {}).protoB.h2.extractLsb' 0 4 ++ (collecting 3 1#8 {}).protoB.h1.extractLsb' 0 4 ∧
      (after (.bRx 2#8) (collecting 3 1#8 {})).map (fun t => (t.protoB.phase, t.protoB.samples, t.out)) =
        some (.waitHeader1, 0, {}) := by decide +kernel

/-- A scan one frame short of the publication under the small configuration. -/
def ready : State := small { samples := 1, work := [⟨0, (7#16, 8#16)⟩] }

theorem ready_frameInv : frameInv ready := by
  refine ⟨by decide, by decide, by decide, by decide, by decide +kernel, by decide +kernel, by decide +kernel, ?_,
    .inl rfl⟩
  intro i hi
  obtain rfl : i = 0 := Nat.lt_one_iff.1 hi
  decide +kernel

theorem fresh_frameInv : frameInv (small {}) :=
  ⟨by decide, by decide, by decide, by decide, by decide +kernel, by decide +kernel, by decide +kernel,
    fun _ hi => absurd hi (Nat.not_lt_zero _), .inl rfl⟩

/-- `ready` with all bytes but one of an accepted frame collected. -/
def almost : State :=
  { ready with
    protoB := { ready.protoB with
      phase := .collect, cnt := 3, xor := 0x6A#8, h1 := 0xA9#8, h2 := 0x56#8
      buf := [⟨0, 0x80#8⟩, ⟨1, 0x02#8⟩, ⟨2, 0xE8#8⟩] } }

theorem almost_frameInv : frameInv almost := by
  obtain ⟨-, -, hd, hs, -, hw, hp, hi, hu⟩ := ready_frameInv
  exact ⟨by decide, by decide, hd, hs, by decide +kernel, hw, hp, hi, hu⟩

/-- A frame at the threshold is not published, the next one is, as one unit and by its last byte; a corrupted unit, and
one that starts in COLLECT, are their bytes. -/
theorem witness_AcceptedFrameIsExtractedAndPublished :
    running ready ∧ tiny.wf = true ∧ frameInv ready ∧ frameInv (small {}) ∧
      ([0x80#8, 0x02#8, 0xE8#8, 0x03#8].foldl (· ^^^ ·) 0#8 = 0x6#4 ++ 0x9#4) ∧
      (after (.bFrame 0x9#4 0x6#4 [0x80#8, 0x02#8, 0xE8#8, 0x03#8]) (small {})).map
        (fun t => (t.protoB.samples, t.out.pub)) = some (1, []) ∧
      (after (.bFrame 0x9#4 0x6#4 [0x80#8, 0x02#8, 0xE8#8, 0x03#8]) ready).map
        (fun t => (t.protoB.samples, t.out.pub)) = some (0, [.newScan]) ∧
      (after (.bFrame 0x9#4 0x6#4 [0x80#8, 0x02#8, 0xE8#8, 0x03#8]) ready).map (fun t => memFind t.protoB.pub 0) =
        some (some (7#16, 8#16)) ∧
      running almost ∧ frameInv almost ∧ almost.protoB.cnt + 1 = tiny.bCollectLen ∧
      (∀ k ∈ List.range 3, memGet (unlistedByte .bBuf) almost.protoB.buf k = [0x80#8, 0x02#8, 0xE8#8, 0x03#8][k]?) ∧
      almost.protoB.xor ^^^ 0x03#8 = almost.protoB.h2.extractLsb' 0 4 ++ almost.protoB.h1.extractLsb' 0 4 ∧
      (after (.bRx 0x03#8) almost).map (fun t => (t.protoB.samples, t.protoB.prevStart, t.out.pub)) =
        some (0, 10, [.newScan]) ∧
      (after (.bFrame 0x8#4 0x6#4 [0x80#8, 0x02#8, 0xE8#8, 0x03#8]) ready).map (fun t => (t.protoB.samples, t.out)) =
        some (1, {}) ∧
      (after (.bFrame 0x9#4 0x6#4 []) (collecting 0 0#8 {})).map (fun t => (t.protoB.cnt, t.protoB.xor)) =
        some (2, 0xA9#8 ^^^ 0x56#8) :=
  ⟨rfl, by decide, ready_frameInv, fresh_frameInv, by decide, by decide +kernel, by decide +kernel, by decide +kernel,
    rfl, almost_frameInv, rfl, by decide +kernel, by decide, by decide +kernel, by decide +kernel, by decide +kernel⟩

/-- A byte that publishes and one that does not. -/
theorem witness_PublicationReplacesTheWholeScan :
    (after (.bRx 0x03#8) (collecting 3 1#8 { samples := 1, h1 := 0xA2#8, h2 := 0x50#8, work := [⟨0, (7#16, 8#16)⟩] })).map
        (fun t => (t.protoB.pub.length, t.out.pub)) = some (1, [.newScan]) ∧
      (after (.bRx 0x80#8) (collecting 2 0#8 {})).map (fun t => (t.protoB.pub.length, t.out.pub)) = some (0, []) := by
  decide +kernel

/-- The largest angle, and the wrap at 360. -/
theorem witness_SampleAngleFitsItsField :
    c0.rnd = .exact ∧ sampleAngle c0 (35999/100) 0 0 = 35999#16 ∧ sampleAngle c0 360 0 0 = 0#16 := by decide +kernel

theorem witness_ProtocolBCommandsAreSentAsPrinted :
    running armed ∧ after .bStart armed = after .txBStart armed ∧
      (after .bStop armed).map (·.out.bTx) = some [0xA5#8, 0x25#8, 0xCA#8] ∧
      after .txBStop stopped = some stopped := by decide +kernel

/-- The first and the last entry of a scan, and a scan never published. -/
theorem witness_PublishedEntriesReadAsPublished :
    0 < c0.bPublishLen ∧ 249 < c0.bPublishLen ∧ memFind armed.protoB.pub 249 = none ∧
      memFind (small { pub := [⟨0, (7#16, 8#16)⟩] }).protoB.pub 0 = some (7#16, 8#16) := by decide +kernel

theorem witness_DecodersIgnoreTheMotionHalf :
    (after (.aFill 1#8) armed).isSome ∧ (after (.apoll 9) wrapped).isSome ∧ (after (.bRx 0xA2#8) armed).isSome ∧
      withMotionHalf armed (moving .left .left 300 300 7) ≠ armed := by decide +kernel

theorem witness_BuffersHaveOneWriter :
    (after (.aFill 1#8) armed).map (fun t => decide (t.protoA.buf = armed.protoA.buf)) = some false ∧
      (after (.bRx 0x80#8) (collecting 0 0#8 {})).map
        (fun t => decide (t.protoB.buf = (collecting 0 0#8 {}).protoB.buf)) = some false := by decide +kernel

theorem witness_MotionLeavesTheDecodersAlone :
    (after (.est 18 65518) armed).map (·.protoB) = some armed.protoB ∧
      (after (.cmdRx 0x33#8) wrapped).map (·.protoA) = some wrapped.protoA := by decide +kernel

/-- A step with a word waiting and a step with none. -/
theorem witness_ConfigurationNeverChanges :
    (∃ t, step (State.reset.withFetchWord 8 0x3) = .next t) ∧ ∃ t, step State.reset = .next t := ⟨⟨_, rfl⟩, _, rfl⟩

/-- A step that emits, and one that emits nothing. -/
theorem witness_OutputsOnlyGrow :
    (∃ t, step (State.reset.withFetchWord 8 0xD) = .next t ∧ t.out.bTx.length = 9) ∧
      ∃ t, step (State.reset.withFetchWord 8 0x0) = .next t ∧ t.out = {} := ⟨⟨_, rfl, rfl⟩, _, rfl, rfl⟩

theorem witness_DecodedInstructionsAreWellFormed :
    decode c0 (.ev { op := 1#4, now := 2 ^ 32 - 1 }) = .ok (.mtick (2 ^ 32 - 1)) ∧
      (Instr.mtick (2 ^ 32 - 1)).wf c0 = true := ⟨rfl, by decide⟩

/-- Both clauses: two different header constants, and two equal ones. -/
theorem witness_DecodeInvertsEncode :
    (Instr.bHdr2 0x8#4).wf c0 = true ∧ c0.hdr1 ≠ c0.hdr2 ∧
      decode c0 (encode c0 (.bHdr2 0x8#4)) = .ok (.bHdr2 0x8#4) ∧
      decode { c0 with hdr2 := 0xA#4 } (encode { c0 with hdr2 := 0xA#4 } (.bHdr2 0x8#4)) = .ok (.bHdr1 0x8#4) := by
  decide

/-- A word that decodes. Of the words that are no unit: one of Protocol B; of Protocol A, a sync byte with a packet
behind it, another byte outside a packet, at a halted block, and inside a packet as its last byte; empty words and bytes
that are not sent. -/
theorem witness_WireWordsHaveOneMeaning :
    decode c0 (.pa [0xA5#8] 7) = .ok (.aSync 7) ∧ encode c0 (.aSync 7) = .pa [0xA5#8] 7 ∧
      decode c0 (.pb [0x00#8, 0xA2#8]) = .error .notProtocolB ∧
      step { armed with inbox := [.pb [0x00#8, 0xA2#8]] } = .next { armed with inbox := [.pb [0xA2#8]] } ∧
      decode c0 (.pa (c0.aSync :: packet90.toBytes) 7) = .error .notProtocolA ∧
      step { armed with inbox := [.pa (c0.aSync :: packet90.toBytes) 7] } =
        exec (.aSync 7) { armed with inbox := [.pa packet90.toBytes 7] } ∧
      step { armed with inbox := [.pa [0x00#8] 7] } = .next armed ∧
      step { stopped with inbox := [.pa [0x00#8] 7] } = .next stopped ∧
      (∃ t, step { midPacket with protoA := { midPacket.protoA with idx := 4 }, inbox := [.pa [0x00#8] 7] } = .next t ∧
        t.protoA.inpkt = false ∧ t.protoA.lastTime = 7) ∧
      step { armed with inbox := [.pa [] 7, .pb []] } = .next { armed with inbox := [.pb []] } ∧
      step { armed with inbox := [.tx [0xA5#8]] } = .next armed :=
  ⟨by decide, by decide, by decide, rfl, by decide, rfl, rfl, rfl, ⟨_, rfl, by decide +kernel, by decide +kernel⟩, rfl,
    rfl⟩

/-- A word that decodes, and an event word that does not. -/
theorem witness_StepRunsTheDecodedInstruction :
    decode c0 (.cb 0x33#8) = .ok .cmdLeft ∧
      step { armed with inbox := [.cb 0x33#8, .tx [0xA5#8]] } = exec .cmdLeft { armed with inbox := [.tx [0xA5#8]] } ∧
      decode c0 (.ev { op := 0xA#4, dir := 7#3 }) = .error (.reservedDirection 7#3) ∧
      step { armed with inbox := [.ev { op := 0xA#4, dir := 7#3 }] } =
        .refused (.undecodable (.reservedDirection 7#3)) := ⟨by decide, rfl, rfl, rfl⟩

/-- The two reserved codes and the two ends of the others. -/
theorem witness_ReservedDirectionIsRefused :
    step { armed with inbox := [.ev { op := 0xA#4, dir := 6#3 }] } =
        .refused (.undecodable (.reservedDirection 6#3)) ∧
      step { armed with inbox := [.ev { op := 0xA#4, dir := 7#3 }] } =
        .refused (.undecodable (.reservedDirection 7#3)) ∧
      step { armed with inbox := [.ev { op := 0xA#4, dir := 0#3 }] } = exec (.setIntent .stop 0) armed ∧
      step { armed with inbox := [.ev { op := 0xA#4, dir := 5#3 }] } = exec (.setIntent .uturn 0) armed :=
  ⟨rfl, rfl, rfl, rfl⟩

/-- The default configuration's rounding has what the ranges need. -/
theorem default_roundsMonotonically : roundsMonotonically c0 :=
  ⟨fun _ _ h => h, rfl, rfl, rfl⟩

theorem witness_SoundAfterReset : c0.wf = true ∧ (State.initial c0).cfg = c0 := ⟨by decide, rfl⟩

theorem witness_EveryStepKeepsMotionSound :
    armed.cfg.wf = true ∧ roundsMonotonically armed.cfg ∧ motionInv (moving .left .left 300 300 7) ∧
      pidInv (moving .left .left 300 300 7) ∧ actuatorInv (moving .left .left 300 300 7) ∧
      ∃ t, step ({ moving .left .left 300 300 7 with inbox := [.ev { op := 3#4 }] }) = .next t :=
  ⟨by decide, default_roundsMonotonically, by decide +kernel, by decide +kernel, by decide +kernel, _, rfl⟩

theorem witness_EveryStepKeepsTheRingSound :
    lapped.cfg.wf = true ∧ ringInv { lapped with inbox := [.ev { op := 9#4 }] } ∧
      ∃ t, step { lapped with inbox := [.ev { op := 9#4 }] } = .next t :=
  ⟨by decide, lapped_ringInv, _, rfl⟩

theorem witness_EveryStepKeepsTheFrameSound :
    ready.cfg.wf = true ∧ frameInv { ready with inbox := [.ev { op := 8#4, byte := 0xA2#8 }] } ∧ checksumInv ready ∧
      ∃ t, step { ready with inbox := [.ev { op := 8#4, byte := 0xA2#8 }] } = .next t :=
  ⟨by decide, ready_frameInv, rfl, _, rfl⟩

/-- The widest time stamp and counter. -/
theorem witness_EveryStepKeepsRegisterWidths :
    widthInv (moving .stop .stop 0 0 (2 ^ 32 - 1)) ∧
      (after (.est 65535 65535) armed).map (·.wheel.l.prev) = some 65535 := by decide +kernel

theorem witness_SoundStatesNeverFault : lapped.cfg.wf = true ∧ ringInv lapped ∧ frameInv lapped :=
  ⟨by decide, lapped_ringInv,
    by decide, by decide, by decide, by decide, by decide +kernel, by decide +kernel, by decide +kernel,
    fun _ hi => absurd hi (Nat.not_lt_zero _), .inl rfl⟩

end Sys2Proof.Tests
end

/-! PROOFS. Two statements of spec/00_scope.md: a byte at an unarmed channel is lost (R13), and what was emitted stays
emitted (R12). -/

namespace Sys2Proof.Machine

/-! ### Bytes at an unarmed channel -/

/-- An operation that leaves the state alone answers it, halted or not. -/
theorem runs_of_unchanged {op : State → State} {s : State} (h : op s = s) : runs op s = .next s := by
  unfold runs
  rw [h, ite_self]

/-- An operation on a buffer that leaves the state alone answers it, halted or not. -/
theorem attempts_of_unchanged {op : State → Except Fault State} {s : State} (h : op s = .ok s) :
    attempts op s = .next s := by
  cases hh : s.sys.halted with
  | true => exact attempts_of_halted hh
  | false => exact attempts_of_ok hh h

/-- A handler at the unarmed command channel drops its byte (R161). -/
theorem acceptCommand_of_unarmed (body : State → State) {s : State} (h : s.cmd.armed = false) :
    acceptCommand body s = s := by
  simp [acceptCommand, h]

/-- Whatever a command's own writes are, at the unarmed command channel it makes none of them. -/
theorem runs_acceptCommand_of_unarmed (body : State → State) {s : State} (h : s.cmd.armed = false) :
    runs (acceptCommand body) s = .next s :=
  runs_of_unchanged (acceptCommand_of_unarmed body h)

/-- A byte at Protocol B's unarmed channel is dropped (R201). -/
theorem receiveFrameByte_of_unarmed (b : Byte) {s : State} (h : s.protoB.armed = false) :
    receiveFrameByte b s = .ok s := by
  simp [receiveFrameByte, h]

/-- The bytes at Protocol B's unarmed channel are all dropped: none of them arms it for the next. -/
theorem receiveFrameBytes_of_unarmed (bs : List Byte) {s : State} (h : s.protoB.armed = false) :
    receiveFrameBytes bs s = .ok s := by
  induction bs with
  | nil => rfl
  | cons b bs ih => simpa [receiveFrameBytes, receiveFrameByte_of_unarmed b h] using ih

/-- Settles O24: every handler tests its channel's armed bit first, and a unit is the arrival of its bytes. -/
theorem unarmedBytesAreLost : Obligations.UnarmedBytesAreLost := by
  intro s b
  constructor
  · intro hc
    have lost : ∀ body, runs (acceptCommand body) s = .next s := fun body => runs_acceptCommand_of_unarmed body hc
    exact ⟨lost _, lost _, lost _, lost _, lost _, lost _, lost _, lost _⟩
  · intro hb
    have byteLost : ∀ c, attempts (receiveFrameByte c) s = .next s :=
      fun c => attempts_of_unchanged (receiveFrameByte_of_unarmed c hb)
    have bytesLost : ∀ cs, attempts (receiveFrameBytes cs) s = .next s :=
      fun cs => attempts_of_unchanged (receiveFrameBytes_of_unarmed cs hb)
    exact ⟨byteLost b, fun _ => ⟨byteLost _, byteLost _⟩, fun _ _ _ => bytesLost _⟩

/-! ### Output streams -/

/-- Each of the six streams of `o` is the beginning of the same stream of `o'` (R12, R32). -/
structure OutputsExtend (o o' : Outputs) : Prop where
  range : o.range <+: o'.range
  pub : o.pub <+: o'.pub
  tlm : o.tlm <+: o'.tlm
  note : o.note <+: o'.note
  status : o.status <+: o'.status
  bTx : o.bTx <+: o'.bTx

theorem outputsExtend_refl (o : Outputs) : OutputsExtend o o :=
  ⟨List.prefix_rfl, List.prefix_rfl, List.prefix_rfl, List.prefix_rfl, List.prefix_rfl, List.prefix_rfl⟩

theorem outputsExtend_pub (o : Outputs) (strobes : List ScanStrobe) :
    OutputsExtend o { o with pub := o.pub ++ strobes } :=
  { outputsExtend_refl o with pub := List.prefix_append _ _ }

theorem outputsExtend_tlm (o : Outputs) (records : List Telemetry) :
    OutputsExtend o { o with tlm := o.tlm ++ records } :=
  { outputsExtend_refl o with tlm := List.prefix_append _ _ }

theorem outputsExtend_note (o : Outputs) (records : List Notice) :
    OutputsExtend o { o with note := o.note ++ records } :=
  { outputsExtend_refl o with note := List.prefix_append _ _ }

theorem outputsExtend_status (o : Outputs) (reports : List Condition) :
    OutputsExtend o { o with status := o.status ++ reports } :=
  { outputsExtend_refl o with status := List.prefix_append _ _ }

theorem outputsExtend_bTx (o : Outputs) (bytes : List Byte) :
    OutputsExtend o { o with bTx := o.bTx ++ bytes } :=
  { outputsExtend_refl o with bTx := List.prefix_append _ _ }

/-- The two streams an APOLL emits on. -/
theorem outputsExtend_range_status (o : Outputs) (readings : List RangeReading) (reports : List Condition) :
    OutputsExtend o { o with range := o.range ++ readings, status := o.status ++ reports } :=
  { outputsExtend_refl o with range := List.prefix_append _ _, status := List.prefix_append _ _ }

/-- What the Protocol-A assembly does extends the outputs. -/
theorem assemblyOnly_outputsExtend {s t : State} (h : AssemblyOnly s t) : OutputsExtend s.out t.out := by
  obtain ⟨_, readings, rfl, -⟩ := h
  exact { outputsExtend_refl s.out with range := List.prefix_append _ _ }

/-- What the Protocol-B frame machine does extends the outputs. -/
theorem frameOnly_outputsExtend {s t : State} (h : FrameOnly s t) : OutputsExtend s.out t.out := by
  obtain ⟨_, strobes, rfl, -⟩ := h
  exact outputsExtend_pub s.out strobes

theorem exec_sent_outputsExtend {i : Instr} (hi : i = .bStart ∨ i = .bStop ∨ i = .txBStart ∨ i = .txBStop)
    {s t : State} (h : exec i s = .next t) : OutputsExtend s.out t.out := by
  obtain ⟨bytes, rfl⟩ := exec_sent_frame hi h
  exact outputsExtend_bTx s.out bytes

/-- Every instruction leaves the outputs alone or appends to them; RESET leaves them (R12, R32). -/
theorem exec_outputsExtend {i : Instr} {s t : State} (h : exec i s = .next t) : OutputsExtend s.out t.out := by
  have silent : t.out = s.out → OutputsExtend s.out t.out := fun e => e ▸ outputsExtend_refl s.out
  cases i with
  | reset => exact silent (exec_reset_eq h ▸ rfl)
  | mtick now => obtain ⟨_, _, rfl⟩ := exec_mtick_frame h; exact silent rfl
  | est encL encR => obtain ⟨_, records, rfl⟩ := exec_est_frame h; exact outputsExtend_tlm _ records
  | drive => obtain ⟨_, _, rfl⟩ := exec_drive_frame h; exact silent rfl
  | gyro gz => obtain ⟨_, records, _, _, _, rfl⟩ := exec_gyro_frame h; exact outputsExtend_tlm _ records
  | apoll now =>
    obtain ⟨_, readings, reports, rfl, -⟩ := exec_apoll_frame h
    exact outputsExtend_range_status _ readings reports
  | notify => obtain ⟨_, records, rfl⟩ := exec_notify_frame h; exact outputsExtend_note _ records
  | cmdRx b => obtain ⟨_, _, _, _, _, rfl⟩ := exec_cmdRx_frame h; exact silent rfl
  | bRx b => exact frameOnly_outputsExtend (exec_bRx_frame h)
  | aFill b => obtain ⟨_, _, _, rfl⟩ := exec_aFill_frame h; exact silent rfl
  | setIntent d v => obtain ⟨_, rfl⟩ := exec_setIntent_frame h; exact silent rfl
  | estop => obtain ⟨_, _, _, _, rfl⟩ := exec_estop_frame h; exact silent rfl
  | arm ch => obtain ⟨_, _, rfl⟩ := exec_arm_frame h; exact silent rfl
  | bStart => exact exec_sent_outputsExtend (by simp) h
  | bStop => exact exec_sent_outputsExtend (by simp) h
  | imuStatus ok => obtain ⟨_, reports, rfl⟩ := exec_imuStatus_frame h; exact outputsExtend_status _ reports
  | fatal => obtain ⟨_, reports, rfl⟩ := exec_fatal_frame h; exact outputsExtend_status _ reports
  | cmdStop => obtain ⟨_, _, _, rfl⟩ := exec_cmdStop_frame h; exact silent rfl
  | cmdForward => obtain ⟨_, _, _, rfl⟩ := exec_cmdForward_frame h; exact silent rfl
  | cmdBackward => obtain ⟨_, _, _, rfl⟩ := exec_cmdBackward_frame h; exact silent rfl
  | cmdLeft => obtain ⟨_, _, _, _, _, rfl⟩ := exec_cmdLeft_frame h; exact silent rfl
  | cmdRight => obtain ⟨_, _, _, _, _, rfl⟩ := exec_cmdRight_frame h; exact silent rfl
  | cmdUturn => obtain ⟨_, _, _, _, _, rfl⟩ := exec_cmdUturn_frame h; exact silent rfl
  | cmdIgnored b => obtain ⟨_, rfl⟩ := exec_cmdIgnored_frame h; exact silent rfl
  | aSync now => exact assemblyOnly_outputsExtend (exec_aSync_frame h)
  | aPacket now p => exact assemblyOnly_outputsExtend (exec_aPacket_frame h)
  | bHdr1 n => exact frameOnly_outputsExtend (exec_bHdr1_frame h)
  | bHdr2 n => exact frameOnly_outputsExtend (exec_bHdr2_frame h)
  | bFrame lo hi body => exact frameOnly_outputsExtend (exec_bFrame_frame h)
  | txBStart => exact exec_sent_outputsExtend (by simp) h
  | txBStop => exact exec_sent_outputsExtend (by simp) h

/-- Taking a word off `inbox` emits nothing, so a step extends the outputs as what it runs does. -/
theorem step_outputsExtend {s t : State} (h : step s = .next t) : OutputsExtend s.out t.out := by
  rcases step_cases h with ⟨_, rfl⟩ | ⟨_, _, inbox, -, -, he⟩ | ⟨_, _, inbox, hs⟩
  · exact outputsExtend_refl s.out
  · exact exec_outputsExtend (s := { s with inbox := inbox }) he
  · exact assemblyOnly_outputsExtend (s := { s with inbox := inbox }) (receiveStrayByte_frame hs)

/-- Settles O48, by cases on what a step runs and what that can emit. -/
theorem outputsOnlyGrow : Obligations.OutputsOnlyGrow := by
  intro s t h
  obtain ⟨range, pub, tlm, note, status, bTx⟩ := step_outputsExtend h
  exact ⟨range, pub, tlm, note, status, bTx⟩

end Sys2Proof.Machine

/-! PROOFS. Statements of spec/10_state.md about every step. First, once: the words a step decodes carry nothing wider
than their ports (R82), and what an instruction can have done when it answers a next state. -/

namespace Sys2Proof.Machine

/-! ### Decoded operands -/

/-- An event's numbers are what its ports carry (R82). -/
theorem decodeEvent_wf {c : Config} {e : EventWord} {i : Instr} (h : decodeEvent c e = .ok i) : i.wf c = true := by
  have time : portTime c e.now < 2 ^ c.timeBits := Nat.mod_lt _ (Nat.two_pow_pos _)
  have count : ∀ n, portCount c n < 2 ^ c.encBits := fun n => Nat.mod_lt _ (Nat.two_pow_pos _)
  unfold decodeEvent at h
  split at h
  case h_11 => split at h <;> cases h; rfl
  case h_14 => split at h <;> cases h <;> rfl
  all_goals cases h; simp [Instr.wf, time, count]

/-- A byte that spells no direction is none of the six command bytes (R86). -/
theorem six_le_of_commandDirection_none {c : Config} {b : Byte} (h : commandDirection c b = none) :
    6 ≤ (b - c.cmdBase).toNat := by
  unfold commandDirection at h
  split at h
  case h_7 => simp only [imp_false] at *; omega
  all_goals cases h

theorem decodeCommand_wf (c : Config) (b : Byte) : (decodeCommand c b).wf c = true := by
  unfold decodeCommand
  split
  case h_7 h => simpa [Instr.wf] using six_le_of_commandDirection_none h
  all_goals rfl

theorem decodeProtocolA_wf {c : Config} {bytes : List Byte} {now : Nat} {i : Instr}
    (h : decodeProtocolA c bytes now = .ok i) : i.wf c = true := by
  have time : portTime c now < 2 ^ c.timeBits := Nat.mod_lt _ (Nat.two_pow_pos _)
  unfold decodeProtocolA at h
  split at h
  · split at h <;> cases h
    simpa [Instr.wf] using time
  · cases h
    simpa [Instr.wf] using time
  · cases h

theorem decodeProtocolB_wf {c : Config} {bytes : List Byte} {i : Instr} (h : decodeProtocolB c bytes = .ok i) :
    i.wf c = true := by
  unfold decodeProtocolB at h
  split at h
  · cases h
  · split at h
    · cases h; rfl
    · split at h <;> cases h; rfl
  · split at h <;> cases h
    rename_i hf
    simpa [Instr.wf] using hf.2.2

theorem decodeTransmitted_wf {c : Config} {bytes : List Byte} {i : Instr} (h : decodeTransmitted bytes = .ok i) :
    i.wf c = true := by
  unfold decodeTransmitted at h
  split at h
  · cases h; rfl
  · split at h <;> cases h; rfl

/-- What a word decodes to is well formed: its operands lie within their widths. -/
theorem decode_wf {c : Config} {w : PortWord} {i : Instr} (h : decode c w = .ok i) : i.wf c = true := by
  cases w with
  | ev e => exact decodeEvent_wf h
  | cb b => cases h; exact decodeCommand_wf c b
  | pa bytes now => exact decodeProtocolA_wf h
  | pb bytes => exact decodeProtocolB_wf h
  | tx bytes => exact decodeTransmitted_wf h

/-! ### What an instruction did -/

/-- The own writes of the command that spells direction `d` (R162 to R167). -/
def commandFor : Direction → State → State
  | .stop => commandStop
  | .forward => commandForward
  | .backward => commandBackward
  | .left => commandLeft
  | .right => commandRight
  | .uturn => commandUturn

theorem commandBody_of_direction {s : State} {b : Byte} {d : Direction} (h : commandDirection s.cfg b = some d) :
    commandBody b s = commandFor d s := by
  unfold commandBody
  rw [h]
  cases d <;> rfl

/-- A command does not look at the command registers, nor write them. -/
theorem commandFor_cmd (d : Direction) (cmd : CommandRegs) (s : State) :
    commandFor d { s with cmd := cmd } = { commandFor d s with cmd := cmd } := by
  cases d <;> rfl

/-- The row of format CB with direction `d` (R85). -/
def commandInstr : Direction → Instr
  | .stop => .cmdStop
  | .forward => .cmdForward
  | .backward => .cmdBackward
  | .left => .cmdLeft
  | .right => .cmdRight
  | .uturn => .cmdUturn

/-- `i` is the command of direction `d`: its row of format CB, or CMD_RX of a byte that spells `d` (R96). -/
def SpellsCommand (c : Config) (i : Instr) (d : Direction) : Prop :=
  i = commandInstr d ∨ ∃ b, i = .cmdRx b ∧ commandDirection c b = some d

/-- What instruction `i` can have done when it took `s` to `t`. Nothing at all, as when halted, is the case `kept`. -/
inductive Effect (s t : State) : Instr → Prop
  /-- at most the command registers, the armed bits, the status registers and the outputs were written -/
  | kept {i : Instr} (h : ∃ cmd armed sys out,
      t = { s with cmd := cmd, protoB := { s.protoB with armed := armed }, sys := sys, out := out }) : Effect s t i
  | reset (h : t = resetRegisters s) : Effect s t .reset
  | mtick {now : Nat} (h : t = motionTick now s) : Effect s t (.mtick now)
  | est {encL encR : Nat} (h : t = estimateSpeeds encL encR s) : Effect s t (.est encL encR)
  | drive (h : t = driveActuators s) : Effect s t .drive
  | gyro {gz : Rat} (h : t = trackTurns gz s) : Effect s t (.gyro gz)
  | setIntent {d : Direction} {v : Rat} (h : t = recordIntent d v s) : Effect s t (.setIntent d v)
  | estop (h : t = emergencyStop s) : Effect s t .estop
  | command {i : Instr} {d : Direction} (hi : SpellsCommand s.cfg i d)
      (h : ∃ cmd, t = { commandFor d s with cmd := cmd }) : Effect s t i
  | fill {b : Byte} (h : fillByte b s = .ok t) : Effect s t (.aFill b)
  | poll {now : Nat} (h : pollRing now s = .ok t) : Effect s t (.apoll now)
  | assembled {i : Instr} {now : Nat} {bs : List Byte} (hi : i = .aSync now ∨ ∃ p, i = .aPacket now p)
      (h : assembleBytes now bs s = .ok t) : Effect s t i
  | received {i : Instr} {bs : List Byte} (h : receiveFrameBytes bs s = .ok t) : Effect s t i

theorem Effect.refl (s : State) (i : Instr) : Effect s s i := .kept ⟨s.cmd, s.protoB.armed, s.sys, s.out, rfl⟩

/-- An operation that cannot stop did nothing, halted, or what it does. -/
theorem Effect.of_runs {op : State → State} {i : Instr} {s t : State} (h : runs op s = .next t)
    (effect : t = op s → Effect s t i) : Effect s t i := by
  rcases runs_cases h with ⟨-, rfl⟩ | ⟨-, h⟩
  · exact .refl t i
  · exact effect h

/-- An operation on a buffer did nothing, halted, or what it does. -/
theorem Effect.of_attempts {op : State → Except Fault State} {i : Instr} {s t : State} (h : attempts op s = .next t)
    (effect : op s = .ok t → Effect s t i) : Effect s t i := by
  rcases attempts_cases h with ⟨-, rfl⟩ | ⟨-, h⟩
  · exact .refl t i
  · exact effect h

/-- A command's handler drops its byte, or makes the command's own writes between disarm and re-arm (R161, R172). -/
theorem Effect.of_command {d : Direction} {i : Instr} {s t : State} (hi : SpellsCommand s.cfg i d)
    (h : runs (acceptCommand (commandFor d)) s = .next t) : Effect s t i := by
  refine .of_runs h fun h => ?_
  unfold acceptCommand at h
  split at h
  · rw [commandFor_cmd] at h
    exact .command hi ⟨_, h⟩
  · exact h ▸ .refl s i

theorem exec_cmdIgnored_effect {b : Byte} {i : Instr} {s t : State} (h : exec (.cmdIgnored b) s = .next t) :
    Effect s t i := by
  obtain ⟨cmd, rfl⟩ := exec_cmdIgnored_frame h
  exact .kept ⟨cmd, s.protoB.armed, s.sys, s.out, rfl⟩

/-- CMD_RX is the command its byte spells, or the ignored byte. -/
theorem exec_cmdRx_effect {b : Byte} {s t : State} (h : exec (.cmdRx b) s = .next t) : Effect s t (.cmdRx b) := by
  cases hd : commandDirection s.cfg b with
  | none =>
    rw [show exec (.cmdRx b) s = exec (.cmdIgnored b) s by
      rw [show exec (.cmdRx b) s = execCmdRx b s from rfl, execCmdRx_eq, decodeCommand, hd]] at h
    exact exec_cmdIgnored_effect h
  | some d =>
    refine .of_runs h fun h => ?_
    unfold acceptCommand at h
    split at h
    · rw [commandBody_of_direction (s := { s with cmd := { s.cmd with armed := false, connected := true } }) hd,
        commandFor_cmd] at h
      exact .command (.inr ⟨b, rfl, hd⟩) ⟨_, h⟩
    · exact h ▸ .refl s _

theorem exec_sent_effect {i : Instr} (hi : i = .bStart ∨ i = .bStop ∨ i = .txBStart ∨ i = .txBStop) {s t : State}
    (h : exec i s = .next t) : Effect s t i := by
  obtain ⟨bytes, rfl⟩ := exec_sent_frame hi h
  exact .kept ⟨s.cmd, s.protoB.armed, s.sys, _, rfl⟩

theorem assembleBytes_singleton (b : Byte) (now : Nat) (s : State) :
    assembleBytes now [b] s = assembleByte b now s := by
  simp only [assembleBytes]
  cases assembleByte b now s <;> rfl

theorem receiveFrameBytes_singleton (b : Byte) (s : State) : receiveFrameBytes [b] s = receiveFrameByte b s := by
  simp only [receiveFrameBytes]
  cases receiveFrameByte b s <;> rfl

/-- A byte on Protocol B's channel, as an event or as a header unit. -/
theorem Effect.of_receiveFrameByte {b : Byte} {i : Instr} {s t : State}
    (h : attempts (receiveFrameByte b) s = .next t) : Effect s t i :=
  .of_attempts h fun h => .received ((receiveFrameBytes_singleton b s).trans h)

/-- What an instruction that answers a next state did. -/
theorem exec_effect {i : Instr} {s t : State} (h : exec i s = .next t) : Effect s t i := by
  cases i with
  | reset => exact .reset (exec_reset_eq h)
  | mtick now => exact .of_runs h .mtick
  | est encL encR => exact .of_runs h .est
  | drive => exact .of_runs h .drive
  | gyro gz => exact .of_runs h .gyro
  | apoll now => exact .of_attempts h .poll
  | notify => obtain ⟨cmd, _, rfl⟩ := exec_notify_frame h; exact .kept ⟨cmd, s.protoB.armed, s.sys, _, rfl⟩
  | cmdRx b => exact exec_cmdRx_effect h
  | bRx b => exact .of_receiveFrameByte h
  | aFill b => exact .of_attempts h .fill
  | setIntent d v => exact .of_runs h .setIntent
  | estop => exact .of_runs h .estop
  | arm ch => obtain ⟨_, armed, rfl⟩ := exec_arm_frame h; exact .kept ⟨_, armed, s.sys, s.out, rfl⟩
  | bStart => exact exec_sent_effect (by simp) h
  | bStop => exact exec_sent_effect (by simp) h
  | imuStatus ok => obtain ⟨_, _, rfl⟩ := exec_imuStatus_frame h; exact .kept ⟨s.cmd, s.protoB.armed, _, _, rfl⟩
  | fatal => obtain ⟨_, _, rfl⟩ := exec_fatal_frame h; exact .kept ⟨s.cmd, s.protoB.armed, _, _, rfl⟩
  | cmdStop => exact .of_command (d := .stop) (.inl rfl) h
  | cmdForward => exact .of_command (d := .forward) (.inl rfl) h
  | cmdBackward => exact .of_command (d := .backward) (.inl rfl) h
  | cmdLeft => exact .of_command (d := .left) (.inl rfl) h
  | cmdRight => exact .of_command (d := .right) (.inl rfl) h
  | cmdUturn => exact .of_command (d := .uturn) (.inl rfl) h
  | cmdIgnored b => exact exec_cmdIgnored_effect h
  | aSync now =>
    exact .of_attempts h fun h => .assembled (.inl rfl) ((assembleBytes_singleton s.cfg.aSync now s).trans h)
  | aPacket now p => exact .of_attempts h (.assembled (.inr ⟨p, rfl⟩))
  | bHdr1 n => exact .of_receiveFrameByte h
  | bHdr2 n => exact .of_receiveFrameByte h
  | bFrame lo hi body => exact .of_attempts h .received
  | txBStart => exact exec_sent_effect (by simp) h
  | txBStop => exact exec_sent_effect (by simp) h

theorem cfg_of_assembleBytes {now : Nat} {bs : List Byte} {s t : State} (h : assembleBytes now bs s = .ok t) :
    t.cfg = s.cfg := by
  obtain ⟨_, _, rfl, -⟩ := assembleBytes_frame h
  rfl

/-- An instruction does not write the configuration (R7 to R9). -/
theorem cfg_of_effect {i : Instr} {s t : State} (h : Effect s t i) : t.cfg = s.cfg := by
  cases h with
  | kept h => obtain ⟨_, _, _, _, rfl⟩ := h; rfl
  | reset h => subst h; rfl
  | mtick h => obtain ⟨_, _, e⟩ := motionTick_frame _ s; rw [h, e]
  | est h => subst h; rfl
  | drive h => obtain ⟨_, _, e⟩ := driveActuators_frame s; rw [h, e]
  | gyro h => obtain ⟨_, _, _, _, _, e⟩ := trackTurns_frame _ s; rw [h, e]
  | setIntent h => subst h; rfl
  | estop h => subst h; rfl
  | @command _ d hi h => obtain ⟨_, rfl⟩ := h; cases d <;> rfl
  | fill h => rw [(fillByte_eq_ok.1 h).2]
  | poll h => obtain ⟨_, _, _, rfl, -⟩ := pollRing_frame h; rfl
  | assembled hi h => exact cfg_of_assembleBytes h
  | received h => obtain ⟨_, _, rfl, -⟩ := receiveFrameBytes_frame h; rfl

/-- What holds of the state whatever waits in `inbox`, and is kept by every effect of a well-formed instruction and by a
stray byte at the assembly, is kept by every step. -/
theorem step_keeps {P : State → Prop} (waiting : ∀ s inbox, P s → P { s with inbox := inbox })
    (effect : ∀ i s t, i.wf s.cfg = true → P s → Effect s t i → P t)
    (stray : ∀ now bs s t, now < 2 ^ s.cfg.timeBits → P s → assembleBytes now bs s = .ok t → P t)
    {s t : State} (hs : P s) (h : step s = .next t) : P t := by
  rcases step_cases h with ⟨inbox, rfl⟩ | ⟨w, i, inbox, hd, -, he⟩ | ⟨b, now, inbox, hb⟩
  · exact waiting s inbox hs
  · exact effect i { s with inbox := inbox } t (decode_wf hd) (waiting s inbox hs) (exec_effect he)
  · rcases attempts_cases (op := assembleByte b (portTime s.cfg now)) hb with ⟨-, rfl⟩ | ⟨-, hb⟩
    · exact waiting s inbox hs
    · exact stray _ [b] _ t (Nat.mod_lt _ (Nat.two_pow_pos _)) (waiting s inbox hs)
        ((assembleBytes_singleton b _ _).trans hb)

/-! ### The writers of the actuator channels -/

/-- The writers of the actuator channels (R30): DRIVE, GYRO, ESTOP, RESET and the three turn commands. -/
theorem effect_act {i : Instr} {s t : State} (h : Effect s t i) (hact : t.act ≠ s.act) :
    i = .drive ∨ (∃ d, SpellsCommand s.cfg i d ∧ (d = .left ∨ d = .right ∨ d = .uturn)) ∨ (∃ gz, i = .gyro gz) ∨
      i = .estop ∨ i = .reset := by
  have silent : t.act = s.act → i = .drive ∨
      (∃ d, SpellsCommand s.cfg i d ∧ (d = .left ∨ d = .right ∨ d = .uturn)) ∨ (∃ gz, i = .gyro gz) ∨
      i = .estop ∨ i = .reset := fun e => absurd e hact
  cases h with
  | kept h => obtain ⟨_, _, _, _, rfl⟩ := h; exact silent rfl
  | reset h => simp
  | mtick h => obtain ⟨_, _, e⟩ := motionTick_frame _ s; exact silent (by rw [h, e])
  | est h => exact silent (h ▸ rfl)
  | drive h => simp
  | gyro h => simp
  | setIntent h => exact silent (h ▸ rfl)
  | estop h => simp
  | @command _ d hi h =>
    obtain ⟨cmd, rfl⟩ := h
    cases d with
    | stop => exact silent rfl
    | forward => exact silent rfl
    | backward => exact silent rfl
    | left => exact .inr (.inl ⟨_, hi, by simp⟩)
    | right => exact .inr (.inl ⟨_, hi, by simp⟩)
    | uturn => exact .inr (.inl ⟨_, hi, by simp⟩)
  | fill h => exact silent ((fillByte_eq_ok.1 h).2 ▸ rfl)
  | poll h => obtain ⟨_, _, _, rfl, -⟩ := pollRing_frame h; exact silent rfl
  | assembled hi h => obtain ⟨_, _, rfl, -⟩ := assembleBytes_frame h; exact silent rfl
  | received h => obtain ⟨_, _, rfl, -⟩ := receiveFrameBytes_frame h; exact silent rfl

/-- Settles O16, by cases on what an instruction can have done. -/
theorem onlyMotionControllerWritesActuators : Obligations.OnlyMotionControllerWritesActuators := by
  intro i s t h hact
  rcases effect_act (exec_effect h) hact with rfl | ⟨d, hi | ⟨b, rfl, hb⟩, hd⟩ | ⟨gz, rfl⟩ | rfl | rfl
  · simp
  · rcases hd with rfl | rfl | rfl <;> simp [hi, commandInstr]
  · exact .inr (.inr (.inr (.inr (.inl ⟨b, d, rfl, hb, hd⟩))))
  · simp
  · simp
  · simp

end Sys2Proof.Machine

/-! PROOFS. The motion half of a sound state (spec/10_state.md R35 items 1 to 4 and 9): every operation keeps it, for
every rounding that is monotone and fixes 0 and the ends of the speed range. -/

namespace Sys2Proof.Machine

/-! ### Ranges under rounding -/

/-- The constraints on the speeds of a configuration (R9). -/
theorem config_wf_speeds {c : Config} (h : c.wf = true) :
    0 ≤ c.maxSpeed ∧ 0 ≤ c.speedStep ∧ inSpeedRange c c.turnSpeed := by
  simp only [Config.wf, Bool.and_eq_true, decide_eq_true_eq] at h
  tauto

theorem inSpeedRange_zero {c : Config} (h : 0 ≤ c.maxSpeed) : inSpeedRange c 0 := ⟨le_refl 0, h⟩

theorem applyRnd_nonneg {c : Config} (hr : roundsMonotonically c) {x : Rat} (h : 0 ≤ x) : 0 ≤ applyRnd c x := by
  obtain ⟨mono, zero, -, -⟩ := hr
  simpa [zero] using mono 0 x h

theorem applyRnd_le_maxSpeed {c : Config} (hr : roundsMonotonically c) {x : Rat} (h : x ≤ c.maxSpeed) :
    applyRnd c x ≤ c.maxSpeed := by
  obtain ⟨mono, -, top, -⟩ := hr
  simpa [top] using mono x _ h

theorem neg_maxSpeed_le_applyRnd {c : Config} (hr : roundsMonotonically c) {x : Rat} (h : -c.maxSpeed ≤ x) :
    -c.maxSpeed ≤ applyRnd c x := by
  obtain ⟨mono, -, -, bottom⟩ := hr
  simpa [bottom] using mono _ x h

/-- A duty within the speed range, of either sign, drives at most one channel of its wheel, within the range (R117). -/
theorem duty_channels {c : Config} {v : Rat} (hlo : -c.maxSpeed ≤ v) (hhi : v ≤ c.maxSpeed) :
    inSpeedRange c (if 0 < v then v else 0) ∧ inSpeedRange c (if v < 0 then -v else 0) ∧
      ((if 0 < v then v else 0) = 0 ∨ (if v < 0 then -v else 0) = 0) := by
  rcases lt_trichotomy v 0 with h | rfl | h
  · rw [if_neg h.not_gt, if_pos h]
    exact ⟨⟨le_refl 0, by linarith⟩, ⟨by linarith, by linarith⟩, .inl rfl⟩
  · simpa [inSpeedRange] using hhi
  · rw [if_pos h, if_neg h.not_gt]
    exact ⟨⟨h.le, hhi⟩, ⟨le_refl 0, by linarith⟩, .inr rfl⟩

/-- A wheel's duty within the speed range keeps the channels sound. -/
theorem actuatorInv_actuate {s : State} (w : Wheel) {v : Rat} (hs : actuatorInv s) (hlo : -s.cfg.maxSpeed ≤ v)
    (hhi : v ≤ s.cfg.maxSpeed) : actuatorInv (actuate w v s) := by
  obtain ⟨la, lb, ra, rb, l, r⟩ := hs
  obtain ⟨hf, hr, one⟩ := duty_channels hlo hhi
  cases w with
  | l => exact ⟨hf, hr, ra, rb, one, r⟩
  | r => exact ⟨la, lb, hf, hr, l, one⟩

theorem actuatorInv_stopAct {s : State} (h : 0 ≤ s.cfg.maxSpeed) : actuatorInv (stopAct s) :=
  ⟨inSpeedRange_zero h, inSpeedRange_zero h, inSpeedRange_zero h, inSpeedRange_zero h, .inl rfl, .inl rfl⟩

/-- A turn's pattern is sound, whatever drove the channels before (R116). -/
theorem actuatorInv_turnAct {s : State} (h : inSpeedRange s.cfg s.cfg.turnSpeed) {d : Direction}
    (hd : d = .left ∨ d = .right ∨ d = .uturn) : actuatorInv (turnAct d s) := by
  have zero : inSpeedRange s.cfg 0 := inSpeedRange_zero (h.1.trans h.2)
  unfold actuatorInv
  rw [turnAct_act h.1 d hd, turnAct_cfg]
  split
  · exact ⟨h, zero, zero, h, .inr rfl, .inl rfl⟩
  · exact ⟨zero, h, h, zero, .inl rfl, .inr rfl⟩

/-! ### The invariant of the motion half -/

/-- The motion half is sound, under a configuration and a rounding that let it stay so. -/
structure MotionSound (s : State) : Prop where
  wf : s.cfg.wf = true
  rounds : roundsMonotonically s.cfg
  motion : motionInv s
  pid : pidInv s
  act : actuatorInv s

theorem motionInv_initial {c : Config} (hc : c.wf = true) : motionInv (State.initial c) := by
  have zero : inSpeedRange c 0 := inSpeedRange_zero (config_wf_speeds hc).1
  exact ⟨zero, zero, fun _ => rfl, fun _ => ⟨rfl, rfl⟩⟩

theorem pidInv_initial {c : Config} (hc : c.wf = true) : pidInv (State.initial c) := by
  have zero : inSpeedRange c 0 := inSpeedRange_zero (config_wf_speeds hc).1
  exact ⟨zero, zero, zero, zero⟩

theorem actuatorInv_initial {c : Config} (hc : c.wf = true) : actuatorInv (State.initial c) :=
  actuatorInv_stopAct (s := State.initial c) (config_wf_speeds hc).1

namespace MotionSound

variable {s : State}

theorem setCspeed (h : MotionSound s) {v : Rat} (hv : inSpeedRange s.cfg v) (hd : s.motion.cdir ≠ .stop) :
    MotionSound { s with motion := { s.motion with cspeed := v } } := by
  obtain ⟨tspeed, -, -, integrals⟩ := h.motion
  exact ⟨h.wf, h.rounds, ⟨tspeed, hv, fun e => absurd e hd, integrals⟩, h.pid, h.act⟩

/-- Recording a target keeps the motion half sound. -/
theorem setTarget (h : MotionSound s) (d : Direction) {v : Rat} (hv : inSpeedRange s.cfg v) :
    MotionSound { s with motion := { s.motion with tdir := d, tspeed := v } } := by
  obtain ⟨-, cspeed, stop, integrals⟩ := h.motion
  exact ⟨h.wf, h.rounds, ⟨hv, cspeed, stop, integrals⟩, h.pid, h.act⟩

theorem setLast (h : MotionSound s) (now : Nat) :
    MotionSound { s with motion := { s.motion with last := now } } :=
  ⟨h.wf, h.rounds, h.motion, h.pid, h.act⟩

/-- SET_CDIR to a driven direction keeps the motion half sound, as nothing binds its speed or its integrals. -/
theorem setCdir_driven (h : MotionSound s) {d : Direction} (hd : driven d = true) : MotionSound (setCdir d s) := by
  obtain ⟨tspeed, cspeed, -, -⟩ := h.motion
  cases d with
  | forward => exact ⟨h.wf, h.rounds, ⟨tspeed, cspeed, nofun, nofun⟩, h.pid, h.act⟩
  | backward => exact ⟨h.wf, h.rounds, ⟨tspeed, cspeed, nofun, nofun⟩, h.pid, h.act⟩
  | stop | left | right | uturn => cases hd

/-- SET_CDIR to STOP keeps the motion half sound at speed 0: it zeroes the integrals. -/
theorem setCdir_stop (h : MotionSound s) (hv : s.motion.cspeed = 0) : MotionSound (setCdir .stop s) := by
  obtain ⟨tspeed, cspeed, -, -⟩ := h.motion
  exact ⟨h.wf, h.rounds, ⟨tspeed, cspeed, fun _ => hv, fun _ => ⟨rfl, rfl⟩⟩, h.pid, h.act⟩

/-- A step of the ramp stays between the current and the target speed, or at the target (R114). -/
theorem rampStep (h : MotionSound s) (hd : s.motion.cdir ≠ .stop) : MotionSound (rampStep s) := by
  obtain ⟨⟨t0, t1⟩, ⟨c0, c1⟩, -, -⟩ := h.motion
  obtain ⟨-, step0, -⟩ := config_wf_speeds h.wf
  unfold Machine.rampStep
  dsimp only
  split
  · have up : 0 ≤ numAdd s.cfg s.motion.cspeed s.cfg.speedStep := applyRnd_nonneg h.rounds (by linarith)
    exact h.setCspeed ⟨le_min t0 up, (min_le_left _ _).trans t1⟩ hd
  · split
    · have down : numSub s.cfg s.motion.cspeed s.cfg.speedStep ≤ s.cfg.maxSpeed :=
        applyRnd_le_maxSpeed h.rounds (by linarith)
      exact h.setCspeed ⟨t0.trans (le_max_left _ _), max_le t1 down⟩ hd
    · exact h

/-- The ramp to STOP reaches STOP only with speed 0 (R113). -/
theorem rampToStop (h : MotionSound s) (hd : s.motion.cdir ≠ .stop) : MotionSound (rampToStop s) := by
  obtain ⟨-, ⟨c0, c1⟩, -, -⟩ := h.motion
  obtain ⟨max0, step0, -⟩ := config_wf_speeds h.wf
  have down : numSub s.cfg s.motion.cspeed s.cfg.speedStep ≤ s.cfg.maxSpeed :=
    applyRnd_le_maxSpeed h.rounds (by linarith)
  have slower := h.setCspeed ⟨le_max_left 0 _, max_le max0 down⟩ hd
  unfold Machine.rampToStop
  dsimp only
  split
  · exact slower.setCdir_stop ‹_›
  · exact slower

/-- A switch to a turn direction at TURN_SPEED zeroes the integrals (R113, R111). -/
theorem switchToTurn (h : MotionSound s) {d : Direction} (hd : d = .left ∨ d = .right ∨ d = .uturn) :
    MotionSound (switchToTurn d s) := by
  obtain ⟨-, -, turn⟩ := config_wf_speeds h.wf
  rcases hd with rfl | rfl | rfl <;>
    exact ⟨h.wf, h.rounds, ⟨turn, turn, nofun, fun _ => ⟨rfl, rfl⟩⟩, h.pid, h.act⟩

theorem switchToDriven (h : MotionSound s) {d : Direction} (hd : driven d = true) :
    MotionSound (switchToDriven d s) := by
  obtain ⟨max0, -, -⟩ := config_wf_speeds h.wf
  have started := (h.setCdir_driven hd).setTarget (setCdir d s).motion.tdir (v := s.cfg.maxSpeed)
    (by rw [setCdir_cfg]; exact ⟨max0, le_refl _⟩)
  have ramped : MotionSound (Machine.rampStep
      { setCdir d s with motion := { (setCdir d s).motion with tspeed := (setCdir d s).cfg.maxSpeed } }) := by
    rw [setCdir_cfg]
    refine started.rampStep ?_
    rw [setCdir_motion]
    rintro rfl
    cases hd
  unfold Machine.switchToDriven
  split
  · exact ramped
  · exact ramped
  · exact ramped
  · exact h
  · exact h
  · exact h

theorem directionStep (h : MotionSound s) (hd : s.motion.tdir ≠ s.motion.cdir) : MotionSound (directionStep s) := by
  unfold Machine.directionStep
  split
  · exact h.switchToDriven rfl
  · exact h.switchToDriven rfl
  · exact h.switchToTurn (by simp)
  · exact h.switchToTurn (by simp)
  · exact h.switchToTurn (by simp)
  · exact h.rampToStop fun e => hd (Eq.trans ‹_› e.symm)

theorem motionTick (h : MotionSound s) (now : Nat) : MotionSound (motionTick now s) := by
  unfold Machine.motionTick
  dsimp only
  split
  · split
    · exact (h.setLast now).directionStep ‹_›
    · split
      · exact (h.setLast now).rampStep ‹_›
      · exact h.setLast now
  · exact h

/-- One wheel of DRIVE in a driven direction: the clamped output, with the direction's sign, is its duty (R115). -/
theorem driveWheel (h : MotionSound s) {sign : Rat} (hsign : sign = 1 ∨ sign = -1)
    (hd : driven s.motion.cdir = true) (w : Wheel) : MotionSound (driveWheel sign w s) := by
  obtain ⟨tspeed, cspeed, stop, -⟩ := h.motion
  obtain ⟨outL, outR, setL, setR⟩ := h.pid
  obtain ⟨max0, -, -⟩ := config_wf_speeds h.wf
  have duty : ∀ {v : Rat}, inSpeedRange s.cfg v →
      -s.cfg.maxSpeed ≤ numMul s.cfg sign v ∧ numMul s.cfg sign v ≤ s.cfg.maxSpeed := by
    rintro v ⟨v0, v1⟩
    have hv : -s.cfg.maxSpeed ≤ sign * v ∧ sign * v ≤ s.cfg.maxSpeed := by
      rcases hsign with rfl | rfl <;> constructor <;> linarith
    exact ⟨neg_maxSpeed_le_applyRnd h.rounds hv.1, applyRnd_le_maxSpeed h.rounds hv.2⟩
  have motion : motionInv (Machine.driveWheel sign w s) := by
    cases w <;> exact ⟨tspeed, cspeed, stop, fun e => by simp [Machine.driveWheel, pidCompute, hd] at e⟩
  cases w with
  | l =>
    obtain ⟨lo, hi⟩ := duty (clamp_mem max0 _)
    exact ⟨h.wf, h.rounds, motion, ⟨clamp_mem max0 _, outR, cspeed, setR⟩, actuatorInv_actuate .l h.act lo hi⟩
  | r =>
    obtain ⟨lo, hi⟩ := duty (clamp_mem max0 _)
    exact ⟨h.wf, h.rounds, motion, ⟨outL, clamp_mem max0 _, setL, cspeed⟩, actuatorInv_actuate .r h.act lo hi⟩

theorem zeroIntegrals (h : MotionSound s) : MotionSound (zeroIntegrals s) := by
  obtain ⟨tspeed, cspeed, stop, -⟩ := h.motion
  exact ⟨h.wf, h.rounds, ⟨tspeed, cspeed, stop, fun _ => ⟨rfl, rfl⟩⟩, h.pid, h.act⟩

theorem stopAct (h : MotionSound s) : MotionSound (stopAct s) :=
  ⟨h.wf, h.rounds, h.motion, h.pid, actuatorInv_stopAct (config_wf_speeds h.wf).1⟩

theorem turnAct (h : MotionSound s) {d : Direction} (hd : d = .left ∨ d = .right ∨ d = .uturn) :
    MotionSound (turnAct d s) := by
  have act : actuatorInv (Machine.turnAct d s) := actuatorInv_turnAct (config_wf_speeds h.wf).2.2 hd
  rcases hd with rfl | rfl | rfl <;> exact ⟨h.wf, h.rounds, h.motion, h.pid, act⟩

theorem driveActuators (h : MotionSound s) : MotionSound (driveActuators s) := by
  have both : ∀ sign : Rat, sign = 1 ∨ sign = -1 → driven s.motion.cdir = true →
      MotionSound (Machine.driveWheel sign .r (Machine.driveWheel sign .l s)) :=
    fun sign hsign hd => (h.driveWheel hsign hd .l).driveWheel hsign hd .r
  unfold Machine.driveActuators
  split
  · exact both 1 (.inl rfl) (by simp [*, driven])
  · exact both (-1) (.inr rfl) (by simp [*, driven])
  · exact h.zeroIntegrals.turnAct (by simp)
  · exact h.zeroIntegrals.turnAct (by simp)
  · exact h.zeroIntegrals.turnAct (by simp)
  · exact h.zeroIntegrals.stopAct

/-- FORCE_STOP leaves a sound motion half (R118). -/
theorem forceStop (h : MotionSound s) : MotionSound (forceStop s) := by
  obtain ⟨max0, -, -⟩ := config_wf_speeds h.wf
  exact ⟨h.wf, h.rounds, ⟨inSpeedRange_zero max0, inSpeedRange_zero max0, fun _ => rfl, fun _ => ⟨rfl, rfl⟩⟩, h.pid,
    actuatorInv_stopAct (s := s) max0⟩

theorem turnSwitch (h : MotionSound s) {d : Direction} (hd : d = .left ∨ d = .right ∨ d = .uturn) :
    MotionSound (turnSwitch d s) := by
  have act : actuatorInv (Machine.turnSwitch d s) :=
    actuatorInv_turnAct (by simpa using (config_wf_speeds h.wf).2.2) hd
  obtain ⟨-, -, turn⟩ := config_wf_speeds h.wf
  rcases hd with rfl | rfl | rfl <;>
    exact ⟨h.wf, h.rounds, ⟨turn, turn, nofun, fun _ => ⟨rfl, rfl⟩⟩, h.pid, act⟩

/-- The motion half does not depend on the trackers, the command registers and the outputs. -/
theorem trackersAndOutputs (h : MotionSound s) (turn : Turn) (cmd : CommandRegs) (out : Outputs) :
    MotionSound { s with turn := turn, cmd := cmd, out := out } :=
  ⟨h.wf, h.rounds, h.motion, h.pid, h.act⟩

theorem trackTurns (h : MotionSound s) (gz : Rat) : MotionSound (trackTurns gz s) := by
  obtain ⟨a, u, records, e⟩ := integrate_frame gz s
  unfold Machine.trackTurns
  dsimp only
  rw [e]
  split
  · exact (h.trackersAndOutputs _ s.cmd _).forceStop
  · exact h.trackersAndOutputs _ s.cmd _

theorem emergencyStop (h : MotionSound s) : MotionSound (emergencyStop s) :=
  (h.trackersAndOutputs (clearTrackers s).turn s.cmd s.out).forceStop

/-- STOP, FORWARD and BACKWARD record a target, the turns switch at once (R162 to R167). -/
theorem commandFor (h : MotionSound s) (d : Direction) : MotionSound (commandFor d s) := by
  obtain ⟨max0, -, -⟩ := config_wf_speeds h.wf
  have tracked := fun turn => h.trackersAndOutputs turn s.cmd s.out
  cases d with
  | stop => exact (tracked _).setTarget .stop (inSpeedRange_zero max0)
  | forward => exact (tracked _).setTarget .forward ⟨max0, le_refl _⟩
  | backward => exact (tracked _).setTarget .backward ⟨max0, le_refl _⟩
  | left => exact (tracked _).turnSwitch (d := .left) (by simp)
  | right => exact (tracked _).turnSwitch (d := .right) (by simp)
  | uturn => exact (tracked _).turnSwitch (d := .uturn) (by simp)

theorem recordIntent (h : MotionSound s) (d : Direction) (v : Rat) : MotionSound (recordIntent d v s) :=
  h.setTarget d (clamp_mem (config_wf_speeds h.wf).1 v)

/-- The decoders do not reach the motion half. -/
theorem decoders (h : MotionSound s) (protoA : ProtocolA) (protoB : ProtocolB) (out : Outputs) :
    MotionSound { s with protoA := protoA, protoB := protoB, out := out } :=
  ⟨h.wf, h.rounds, h.motion, h.pid, h.act⟩

theorem assembleBytes {t : State} {now : Nat} {bs : List Byte} (h : MotionSound s)
    (ht : assembleBytes now bs s = .ok t) : MotionSound t := by
  obtain ⟨protoA, _, rfl, -⟩ := assembleBytes_frame ht
  exact h.decoders protoA s.protoB _

end MotionSound

/-- Whatever an instruction did, the motion half stays sound. -/
theorem motionSound_of_effect {i : Instr} {s t : State} (hs : MotionSound s) (h : Effect s t i) : MotionSound t := by
  cases h with
  | kept h => obtain ⟨_, _, _, _, rfl⟩ := h; exact ⟨hs.wf, hs.rounds, hs.motion, hs.pid, hs.act⟩
  | reset h =>
    subst h
    exact ⟨hs.wf, hs.rounds, motionInv_initial hs.wf, pidInv_initial hs.wf, actuatorInv_initial hs.wf⟩
  | mtick h => exact h ▸ hs.motionTick _
  | est h => exact h ▸ ⟨hs.wf, hs.rounds, hs.motion, hs.pid, hs.act⟩
  | drive h => exact h ▸ hs.driveActuators
  | gyro h => exact h ▸ hs.trackTurns _
  | setIntent h => exact h ▸ hs.recordIntent _ _
  | estop h => exact h ▸ hs.emergencyStop
  | command hi h =>
    obtain ⟨cmd, rfl⟩ := h
    exact (hs.commandFor _).trackersAndOutputs _ cmd _
  | fill h => exact (fillByte_eq_ok.1 h).2 ▸ hs.decoders _ s.protoB s.out
  | poll h => obtain ⟨protoA, _, _, rfl, -⟩ := pollRing_frame h; exact hs.decoders protoA s.protoB _
  | assembled hi h => exact hs.assembleBytes h
  | received h => obtain ⟨protoB, _, rfl, -⟩ := receiveFrameBytes_frame h; exact hs.decoders s.protoA protoB _

/-- Settles O56: the soundness of the motion half is kept by what each instruction does. -/
theorem everyStepKeepsMotionSound : Obligations.EveryStepKeepsMotionSound := by
  intro s t wf rounds motion pid act h
  have ht : MotionSound t :=
    step_keeps (P := MotionSound) (fun s _ h => ⟨h.wf, h.rounds, h.motion, h.pid, h.act⟩)
      (fun _ _ _ _ => motionSound_of_effect) (fun _ _ _ _ _ => MotionSound.assembleBytes)
      ⟨wf, rounds, motion, pid, act⟩ h
  exact ⟨ht.motion, ht.pid, ht.act⟩

end Sys2Proof.Machine

/-! PROOFS. The ring and the packet assembly of a sound state (spec/10_state.md R35 items 5 and 8;
spec/93_implementation_defined.md U4): whatever fills and polls fall between, the entries a poll reads are written. -/

namespace Sys2Proof.Machine

/-- The constraints on the ring and the packet of a configuration (R9). -/
theorem config_wf_ring {c : Config} (h : c.wf = true) : c.aPktLen = 5 ∧ 2 ≤ c.aBufSize := by
  simp only [Config.wf, Bool.and_eq_true, decide_eq_true_eq] at h
  tauto

theorem ringInv_initial {c : Config} (hc : c.wf = true) : ringInv (State.initial c) := by
  obtain ⟨len, size⟩ := config_wf_ring hc
  refine ⟨?_, ?_, ?_, fun _ => rfl, memory_wf_nil _ _, .inr ⟨rfl, le_refl 0, fun _ hi => absurd hi (Nat.not_lt_zero _)⟩⟩
  · exact Nat.zero_lt_of_lt size
  · exact Nat.zero_lt_of_lt size
  · exact len ▸ Nat.zero_lt_succ 4

/-- A write at the cursor adds its entry to the written ones. -/
theorem ringWritten_memInsert {m : Memory Byte} {wr i : Nat} (b : Byte)
    (h : i ≠ wr → (memFind m i).isSome) : (memFind (memInsert wr b m) i).isSome := by
  rw [memFind_memInsert]
  split
  · rfl
  · exact h ‹_›

/-- A fill keeps the ring sound: the write that wraps the cursor is the one that completes the ring (R180). -/
theorem ringInv_fillByte {b : Byte} {s t : State} (hs : ringInv s) (h : fillByte b s = .ok t) : ringInv t := by
  obtain ⟨hwr, rfl⟩ := fillByte_eq_ok.1 h
  obtain ⟨-, hrd, hidx, hzero, hbuf, hwritten⟩ := hs
  have canonical : Memory.wf none s.cfg.aBufSize (memInsert s.protoA.wr b s.protoA.buf) = true := by
    simpa using memory_wf_memSet b hbuf hwr
  refine ⟨Nat.mod_lt _ (Nat.zero_lt_of_lt hwr), hrd, hidx, hzero, canonical, ?_⟩
  rcases hwritten with all | ⟨hcycle, hle, below⟩
  · exact .inl fun i hi => ringWritten_memInsert b fun _ => all i hi
  · rcases Nat.eq_or_lt_of_le (Nat.succ_le_of_lt hwr) with full | room
    · exact .inl fun i hi => ringWritten_memInsert b fun hne => below i (by dsimp only at hi; omega)
    · have advance : (s.protoA.wr + 1) % s.cfg.aBufSize = s.protoA.wr + 1 := Nat.mod_eq_of_lt room
      refine .inr ⟨?_, ?_, fun i hi => ringWritten_memInsert b fun hne => below i ?_⟩
      · simp [hcycle, advance]
      · dsimp only
        omega
      · dsimp only at hi
        omega

/-- Where the ring's entries, its write cursor and the cycle flag are kept, the ring stays sound when the read cursor
stays too or catches up with the write cursor, and the assembly's index stays in its range. -/
theorem ringInv_of_ring_kept {s t : State} (hs : ringInv s) (cfg : t.cfg = s.cfg) (buf : t.protoA.buf = s.protoA.buf)
    (wr : t.protoA.wr = s.protoA.wr) (cycle : t.protoA.cycle = s.protoA.cycle)
    (rd : t.protoA.rd = s.protoA.rd ∨ t.protoA.rd = s.protoA.wr) (hidx : t.protoA.idx < s.cfg.aPktLen)
    (hzero : t.protoA.inpkt = false → t.protoA.idx = 0) : ringInv t := by
  obtain ⟨hwr, hrd, -, -, hbuf, hwritten⟩ := hs
  have kept : ∀ i, ringWritten s i → ringWritten t i := fun i h => by rw [ringWritten, buf]; exact h
  unfold ringInv
  rw [cfg, buf, wr, cycle]
  refine ⟨hwr, by omega, hidx, hzero, hbuf, ?_⟩
  rcases hwritten with all | ⟨hcycle, hle, below⟩
  · exact .inl fun i hi => kept i (all i hi)
  · exact .inr ⟨hcycle, by omega, fun i hi => kept i (below i hi)⟩

/-- The assembly keeps the ring sound: its index stays in its range, and it does not reach the ring. -/
theorem ringInv_assembleByte {b : Byte} {now : Nat} {s t : State} (hc : s.cfg.wf = true) (hs : ringInv s)
    (h : assembleByte b now s = .ok t) : ringInv t := by
  obtain ⟨len, -⟩ := config_wf_ring hc
  have ⟨_, _, hidx, hzero, _, _⟩ := hs
  obtain ⟨u, hu, ⟨pa, readings, rfl, buf, wr, rd, cycle⟩, hidx', hzero'⟩ :=
    assembleByte_ok b now len (len ▸ hidx) hzero
  obtain rfl := Except.ok.inj (hu.symm.trans h)
  exact ringInv_of_ring_kept hs rfl buf wr cycle (.inl rd) (len ▸ hidx') hzero'

theorem ringInv_assembleBytes {now : Nat} {bs : List Byte} {s t : State} (hc : s.cfg.wf = true) (hs : ringInv s)
    (h : assembleBytes now bs s = .ok t) : ringInv t := by
  induction bs generalizing s with
  | nil => cases h; exact hs
  | cons b bs ih =>
    obtain ⟨u, hu, h⟩ := bind_eq_ok.1 h
    have cfg : u.cfg = s.cfg := by obtain ⟨_, _, rfl, -⟩ := assembleByte_frame hu; rfl
    exact ih (cfg ▸ hc) (ringInv_assembleByte hc hs hu) h

/-- A completed cycle means a wholly written ring, so clearing the flag and moving the cursor to 0 are sound (R186). -/
theorem ringInv_overrunCheck {s t : State} (hs : ringInv s) (h : overrunCheck s = .ok t) : ringInv t := by
  obtain ⟨hwr, hrd, hidx, hzero, hbuf, hwritten⟩ := hs
  rcases overrunCheck_cases h with ⟨-, rfl⟩ | ⟨hcycle, b, h0, -, rfl⟩
  · exact ⟨hwr, hrd, hidx, hzero, hbuf, hwritten⟩
  · have all : ∀ i, i < s.cfg.aBufSize → ringWritten s i :=
      hwritten.resolve_right fun ⟨hn, _⟩ => by simp [hcycle] at hn
    split
    · exact ⟨h0, hrd, hidx, hzero, hbuf, .inl all⟩
    · exact ⟨hwr, hrd, hidx, hzero, hbuf, .inl all⟩

theorem ringInv_stallCheck (now : Nat) {s : State} (hs : ringInv s) : ringInv (stallCheck now s) := by
  obtain ⟨hwr, hrd, hidx, hzero, hbuf, hwritten⟩ := hs
  rw [stallCheck_eq]
  split
  · exact ⟨hwr, hrd, Nat.zero_lt_of_lt hidx, fun _ => rfl, hbuf, hwritten⟩
  · exact ⟨hwr, hrd, hidx, hzero, hbuf, hwritten⟩

/-- In a sound ring the unread entries, from the read cursor up to the write cursor, are written (R182, U4). -/
theorem ringInv_unread {s : State} (hs : ringInv s) {k : Nat}
    (hk : k < subMod s.protoA.wr s.protoA.rd s.cfg.aBufSize) :
    (memFind s.protoA.buf ((s.protoA.rd + k) % s.cfg.aBufSize)).isSome := by
  obtain ⟨hwr, hrd, -, -, -, hwritten⟩ := hs
  obtain ⟨-, -, ahead, -⟩ := subMod_ring hwr hrd
  rcases hwritten with all | ⟨-, hle, below⟩
  · exact all _ (Nat.mod_lt _ (Nat.zero_lt_of_lt hwr))
  · rw [ahead hle] at hk
    rw [Nat.mod_eq_of_lt (by omega)]
    exact below _ (by omega)

/-- The walk of a poll leaves the read cursor at the write cursor (R67, R181). -/
theorem ringInv_walkRing {now : Nat} {s t : State} (hc : s.cfg.wf = true) (hs : ringInv s)
    (h : walkRing now (subMod s.protoA.wr s.protoA.rd s.cfg.aBufSize) s = .ok t) : ringInv t := by
  obtain ⟨len, -⟩ := config_wf_ring hc
  have ⟨hwr, hrd, hidx, hzero, _, _⟩ := hs
  obtain ⟨u, hu, hidx', hzero'⟩ := walkRing_ok now len (len ▸ hidx) hzero hrd fun _ => ringInv_unread hs
  obtain rfl := Except.ok.inj (hu.symm.trans h)
  obtain ⟨arrives, -, -, -⟩ := subMod_ring hwr hrd
  obtain ⟨pa, readings, rfl, buf, wr, rd, cycle⟩ := walkRing_frame h
  refine ringInv_of_ring_kept hs rfl buf wr cycle ?_ (len ▸ hidx') hzero'
  rw [show pa.rd = _ from rd]
  dsimp only
  split
  · exact .inl rfl
  · exact .inr arrives

theorem ringInv_pollRing {now : Nat} {s t : State} (hc : s.cfg.wf = true) (hs : ringInv s)
    (h : pollRing now s = .ok t) : ringInv t := by
  obtain ⟨u, hu, h⟩ := bind_eq_ok.1 h
  have checked := ringInv_stallCheck now (ringInv_overrunCheck hs hu)
  have cfg : (stallCheck now u).cfg = s.cfg := by
    have hu' : u.cfg = s.cfg := by
      rcases overrunCheck_cases hu with ⟨-, rfl⟩ | ⟨-, _, -, -, rfl⟩
      · rfl
      · split <;> rfl
    rw [stallCheck_eq]
    split <;> exact hu'
  exact ringInv_walkRing (cfg ▸ hc) checked h

/-- Whatever an instruction did, the ring stays sound. -/
theorem ringInv_of_effect {i : Instr} {s t : State} (hc : s.cfg.wf = true) (hs : ringInv s) (h : Effect s t i) :
    ringInv t := by
  cases h with
  | kept h => obtain ⟨_, _, _, _, rfl⟩ := h; exact hs
  | reset h => subst h; exact ringInv_initial hc
  | mtick h => obtain ⟨_, _, e⟩ := motionTick_frame _ s; rw [h, e]; exact hs
  | est h => subst h; exact hs
  | drive h => obtain ⟨_, _, e⟩ := driveActuators_frame s; rw [h, e]; exact hs
  | gyro h => obtain ⟨_, _, _, _, _, e⟩ := trackTurns_frame _ s; rw [h, e]; exact hs
  | setIntent h => subst h; exact hs
  | estop h => subst h; exact hs
  | @command _ d hi h => obtain ⟨_, rfl⟩ := h; cases d <;> exact hs
  | fill h => exact ringInv_fillByte hs h
  | poll h => exact ringInv_pollRing hc hs h
  | assembled hi h => exact ringInv_assembleBytes hc hs h
  | received h => obtain ⟨_, _, rfl, -⟩ := receiveFrameBytes_frame h; exact hs

/-- Settles O57: under a configuration within its constraints the ring's soundness is kept by what each instruction
does, whatever the interleaving of fills and polls. -/
theorem everyStepKeepsTheRingSound : Obligations.EveryStepKeepsTheRingSound := by
  intro s t hc hs h
  have ht : t.cfg.wf = true ∧ ringInv t :=
    step_keeps (P := fun s => s.cfg.wf = true ∧ ringInv s) (fun _ _ h => h)
      (fun _ _ _ _ ⟨hc, hs⟩ he => ⟨cfg_of_effect he ▸ hc, ringInv_of_effect hc hs he⟩)
      (fun _ _ _ _ _ ⟨hc, hs⟩ ha => ⟨cfg_of_assembleBytes ha ▸ hc, ringInv_assembleBytes hc hs ha⟩) ⟨hc, hs⟩ h
  exact ht.2

end Sys2Proof.Machine

/-! PROOFS. The frame machine and the scan of a sound state (spec/10_state.md R35 items 6 and 7; spec/46_protocol_b.md
R202 to R206; spec/20_memory.md R64). The scan's part holds in the midst of a frame's completion too, where the count
has reached the frame's length; so it stands by itself. -/

namespace Sys2Proof.Machine

/-- A frame holds its samples and its start angle, so it is not empty (R9). -/
theorem config_wf_frame {c : Config} (h : c.wf = true) : 0 < c.bCollectLen := by
  simp only [Config.wf, Bool.and_eq_true, decide_eq_true_eq] at h
  omega

/-! ### The checksum -/

/-- The XOR of the first bytes depends on those bytes only. -/
theorem xorOfFirst_congr {m m' : Memory Byte} {n : Nat}
    (h : ∀ i, i < n → memGet (unlistedByte .bBuf) m i = memGet (unlistedByte .bBuf) m' i) :
    xorOfFirst m n = xorOfFirst m' n := by
  induction n with
  | zero => rfl
  | succ n ih =>
    rw [xorOfFirst, xorOfFirst, h n (Nat.lt_succ_self n), ih fun i hi => h i (Nat.lt_succ_of_lt hi)]

/-- A byte stored behind the first `n` is XORed to their XOR (R202). -/
theorem xorOfFirst_memSet {m : Memory Byte} {size : Nat} (hm : Memory.wf (unlistedByte .bBuf) size m = true) (n : Nat)
    (b : Byte) : xorOfFirst (memSet (unlistedByte .bBuf) m n b) (n + 1) = xorOfFirst m n ^^^ b := by
  have before : xorOfFirst (memSet (unlistedByte .bBuf) m n b) n = xorOfFirst m n :=
    xorOfFirst_congr fun i hi => memGet_memSet_of_ne hi.ne m b
  rw [xorOfFirst, before, memGet_memSet_self hm]
  rfl

/-! ### The scan -/

/-- The scan's part of a sound frame machine: the sample counter, the entries below it, and the three buffers. -/
structure ScanSound (s : State) : Prop where
  whole : s.cfg.bSamplesPerFrame ∣ s.protoB.samples
  below : s.protoB.samples ≤ s.cfg.bPublishThreshold
  buf : Memory.wf (unlistedByte .bBuf) s.cfg.bCollectLen s.protoB.buf = true
  work : Memory.wf unlistedPair s.cfg.bWorkCap s.protoB.work = true
  pub : Memory.wf unlistedPair s.cfg.bPublishLen s.protoB.pub = true
  written : ∀ i, i < s.protoB.samples → (memFind s.protoB.work i).isSome
  published : s.protoB.pub = [] ∨ ∀ i, i < s.cfg.bPublishLen → (memFind s.protoB.pub i).isSome

/-- One sample writes its own place, inside the working buffer. -/
theorem writeSample_eq_insert {old gap : Rat} {i : Nat} {s t : State} (h : writeSample old gap i s = .ok t) :
    ∃ v, s.protoB.samples + i < s.cfg.bWorkCap ∧
      t = { s with protoB := { s.protoB with work := memInsert (s.protoB.samples + i) v s.protoB.work } } := by
  obtain ⟨lo, -, h⟩ := bind_eq_ok.1 h
  obtain ⟨hi, -, h⟩ := bind_eq_ok.1 h
  exact ⟨_, writeWork_eq_ok.1 h⟩

/-- The samples of a frame keep the working buffer's canonical form, list their own places and unlist none. -/
theorem writeSamples_work {old gap : Rat} {n i : Nat} {s t : State} (h : writeSamples old gap n i s = .ok t)
    (hw : Memory.wf unlistedPair s.cfg.bWorkCap s.protoB.work = true) :
    Memory.wf unlistedPair s.cfg.bWorkCap t.protoB.work = true ∧
      ∀ j, ((memFind s.protoB.work j).isSome ∨ s.protoB.samples + i ≤ j ∧ j < s.protoB.samples + i + n) →
        (memFind t.protoB.work j).isSome := by
  induction n generalizing s i with
  | zero =>
    cases h
    exact ⟨hw, fun j hj => hj.resolve_right (by omega)⟩
  | succ n ih =>
    obtain ⟨u, hu, h⟩ := bind_eq_ok.1 h
    obtain ⟨v, hplace, rfl⟩ := writeSample_eq_insert hu
    obtain ⟨canonical, listed⟩ := ih h (by simpa using memory_wf_memSet v hw hplace)
    refine ⟨canonical, fun j hj => listed j ?_⟩
    dsimp only
    rw [memFind_memInsert]
    split
    · exact .inl rfl
    · exact hj.imp_right fun ⟨hlo, hhi⟩ => ⟨by omega, by omega⟩

/-- The published copy is canonical. -/
theorem scanEntries_wf {s : State} {n : Nat} {scan : Memory SamplePair} (h : scanEntries s n 0 = .ok scan) :
    Memory.wf unlistedPair n scan = true := by
  obtain ⟨-, -, keys⟩ := scanEntries_spec h
  rw [memory_wf_iff, keys]
  refine ⟨List.pairwise_lt_range', fun e he => ⟨?_, nofun⟩⟩
  have : e.1 ∈ List.range' 0 n := keys ▸ List.mem_map_of_mem he
  simp only [List.mem_range'_1] at this
  omega

/-- The publication check brings a counter that has passed the threshold back to 0, and publishes whole scans only (R64,
R206). -/
theorem scanSound_publishCheck {s t : State} (h : publishCheck s = .ok t)
    (whole : s.cfg.bSamplesPerFrame ∣ s.protoB.samples)
    (buf : Memory.wf (unlistedByte .bBuf) s.cfg.bCollectLen s.protoB.buf = true)
    (work : Memory.wf unlistedPair s.cfg.bWorkCap s.protoB.work = true)
    (pub : Memory.wf unlistedPair s.cfg.bPublishLen s.protoB.pub = true)
    (written : ∀ i, i < s.protoB.samples → (memFind s.protoB.work i).isSome)
    (published : s.protoB.pub = [] ∨ ∀ i, i < s.cfg.bPublishLen → (memFind s.protoB.pub i).isSome) : ScanSound t := by
  rcases publishCheck_cases h with ⟨-, scan, hscan, rfl⟩ | ⟨below, rfl⟩
  · obtain ⟨copied, -, -⟩ := scanEntries_spec hscan
    refine ⟨Nat.dvd_zero _, Nat.zero_le _, buf, work, scanEntries_wf hscan, fun i hi => absurd hi (Nat.not_lt_zero i),
      .inr fun i hi => ?_⟩
    obtain ⟨-, v, hv, -⟩ := copied i (Nat.zero_le i) (by dsimp only at hi; omega)
    dsimp only
    rw [hv]
    rfl
  · exact ⟨whole, below, buf, work, pub, written, published⟩

theorem ScanSound.extractFrame {s t : State} (hs : ScanSound s) (h : extractFrame s = .ok t) : ScanSound t := by
  obtain ⟨lo, hi, m, -, -, hm, h⟩ := extractFrame_cases h
  obtain ⟨canonical, listed⟩ := writeSamples_work hm hs.work
  refine scanSound_publishCheck h ?_ hs.buf canonical hs.pub (fun i hi => listed i ?_) hs.published
  · exact Nat.dvd_add hs.whole (Nat.dvd_refl _)
  · by_cases old : i < s.protoB.samples
    · exact .inl (hs.written i old)
    · exact .inr ⟨by omega, by dsimp only at hi; omega⟩

/-- The registers of the frame state are none of the scan's. -/
theorem ScanSound.frameState {s : State} (hs : ScanSound s) (phase : FramePhase) (h1 h2 xor : Byte) (cnt : Nat)
    (armed : Bool) :
    ScanSound { s with
      protoB := { s.protoB with phase := phase, h1 := h1, h2 := h2, xor := xor, cnt := cnt, armed := armed } } :=
  ⟨hs.whole, hs.below, hs.buf, hs.work, hs.pub, hs.written, hs.published⟩

theorem ScanSound.checkFrame {s t : State} (hs : ScanSound s) (h : checkFrame s = .ok t) : ScanSound t := by
  rcases checkFrame_cases h with ⟨-, h⟩ | ⟨-, rfl⟩
  · exact hs.extractFrame h
  · exact hs.frameState _ _ _ _ _ _

/-! ### The frame machine -/

/-- A sound frame machine: a sound scan, a count inside the frame while bytes are collected and 0 otherwise, and the
running checksum. -/
structure FrameSound (s : State) : Prop where
  scan : ScanSound s
  collecting : s.protoB.phase = .collect → s.protoB.cnt < s.cfg.bCollectLen
  waiting : s.protoB.phase ≠ .collect → s.protoB.cnt = 0 ∧ s.protoB.xor = 0#8
  checksum : checksumInv s

theorem frameSound_iff {s : State} : FrameSound s ↔ frameInv s ∧ checksumInv s := by
  constructor
  · rintro ⟨⟨whole, below, buf, work, pub, written, published⟩, collecting, waiting, checksum⟩
    exact ⟨⟨collecting, waiting, whole, below, buf, work, pub, written, published⟩, checksum⟩
  · rintro ⟨⟨collecting, waiting, whole, below, buf, work, pub, written, published⟩, checksum⟩
    exact ⟨⟨whole, below, buf, work, pub, written, published⟩, collecting, waiting, checksum⟩

theorem frameSound_initial (c : Config) : FrameSound (State.initial c) where
  scan := ⟨Nat.dvd_zero _, Nat.zero_le _, memory_wf_nil _ _, memory_wf_nil _ _, memory_wf_nil _ _,
    fun i hi => absurd hi (Nat.not_lt_zero i), .inl rfl⟩
  collecting := nofun
  waiting := fun _ => ⟨rfl, rfl⟩
  checksum := rfl

namespace FrameSound

variable {s t : State}

theorem setArmed (hs : FrameSound s) (armed : Bool) :
    FrameSound { s with protoB := { s.protoB with armed := armed } } :=
  ⟨hs.scan.frameState _ _ _ _ _ armed, hs.collecting, hs.waiting, hs.checksum⟩

/-- With the frame state cleared and no byte collected, the frame machine is as sound as the scan. -/
theorem of_cleared (hs : ScanSound s) (phase : FramePhase) (h1 h2 : Byte)
    (h : phase = .collect → 0 < s.cfg.bCollectLen) :
    FrameSound { s with protoB := { s.protoB with phase := phase, h1 := h1, h2 := h2, cnt := 0, xor := 0#8 } } :=
  ⟨hs.frameState _ _ _ _ _ _, h, fun _ => ⟨rfl, rfl⟩, rfl⟩

/-- While no byte is collected, moving between the header states clears nothing further. -/
theorem of_header (hs : FrameSound s) (hp : s.protoB.phase ≠ .collect) (phase : FramePhase) (h1 : Byte)
    (h : phase ≠ .collect) : FrameSound { s with protoB := { s.protoB with phase := phase, h1 := h1 } } :=
  ⟨hs.scan.frameState _ _ _ _ _ _, fun e => absurd e h, fun _ => hs.waiting hp, hs.checksum⟩

theorem completeFrame (hs : ScanSound s) (h : completeFrame s = .ok t) : FrameSound t := by
  obtain ⟨u, hu, rfl⟩ := completeFrame_eq_ok.1 h
  exact of_cleared (hs.checkFrame hu) .waitHeader1 _ _ nofun

/-- A collected byte: the first seeds the checksum, which a count of 0 says is the XOR of no bytes; the last completes
the frame (R202, R203). -/
theorem collectByte {b : Byte} (hs : FrameSound s) (hp : s.protoB.phase = .collect) (h : collectByte b s = .ok t) :
    FrameSound t := by
  obtain ⟨hcnt, u, hu, h⟩ := collectByte_eq_ok.1 h
  have buf := memory_wf_memSet b hs.scan.buf hcnt
  have scan : ScanSound u := by
    subst hu
    exact ⟨hs.scan.whole, hs.scan.below, buf, hs.scan.work, hs.scan.pub, hs.scan.written, hs.scan.published⟩
  split at h
  · exact completeFrame scan h
  · subst h
    have sum : (if s.protoB.cnt = 0 then b else s.protoB.xor ^^^ b) = xorOfFirst s.protoB.buf s.protoB.cnt ^^^ b := by
      split
      · rename_i h0
        rw [h0, xorOfFirst, BitVec.zero_xor]
      · rw [hs.checksum]
    refine ⟨scan, fun _ => ?_, fun hn => ?_, ?_⟩
    · subst hu
      dsimp only
      omega
    · subst hu
      exact absurd hp hn
    · subst hu
      exact sum.trans (xorOfFirst_memSet hs.scan.buf s.protoB.cnt b).symm

/-- A byte at the frame machine, in each of its three states (R202). -/
theorem frameStep {b : Byte} (hc : s.cfg.wf = true) (hs : FrameSound s) (h : frameStep b s = .ok t) :
    FrameSound t := by
  unfold Machine.frameStep at h
  split at h
  · rename_i hp
    have hp : s.protoB.phase ≠ .collect := by simp [hp]
    split at h <;> cases h
    · exact hs.of_header hp .waitHeader2 b nofun
    · exact hs
  · rename_i hp
    have hp : s.protoB.phase ≠ .collect := by simp [hp]
    split at h <;> cases h
    · exact of_cleared hs.scan .collect _ b fun _ => config_wf_frame hc
    · exact hs.of_header hp .waitHeader1 _ nofun
  · exact hs.collectByte ‹_› h

theorem receiveFrameByte {b : Byte} (hc : s.cfg.wf = true) (hs : FrameSound s) (h : receiveFrameByte b s = .ok t) :
    FrameSound t := by
  have h := receiveFrameByte_eq_ok.1 h
  split at h
  · obtain ⟨u, hu, rfl⟩ := h
    have stepped : FrameSound u := (hs.setArmed false).frameStep (by exact hc) hu
    exact stepped.setArmed true
  · exact h ▸ hs

theorem receiveFrameBytes {bs : List Byte} (hc : s.cfg.wf = true) (hs : FrameSound s)
    (h : receiveFrameBytes bs s = .ok t) : FrameSound t := by
  induction bs generalizing s with
  | nil => cases h; exact hs
  | cons b bs ih =>
    obtain ⟨u, hu, h⟩ := bind_eq_ok.1 h
    have cfg : u.cfg = s.cfg := by obtain ⟨_, _, rfl, -⟩ := receiveFrameByte_frame hu; rfl
    exact ih (cfg ▸ hc) (hs.receiveFrameByte hc hu) h

end FrameSound

/-- The frame machine's soundness is a matter of the configuration and Protocol B's registers alone. -/
theorem frameSound_congr {s t : State} (cfg : t.cfg = s.cfg) (protoB : t.protoB = s.protoB) (hs : FrameSound s) :
    FrameSound t := by
  rw [frameSound_iff] at hs ⊢
  unfold frameInv checksumInv
  rw [cfg, protoB]
  exact hs

/-- Whatever an instruction did, the frame machine and the scan stay sound. -/
theorem frameSound_of_effect {i : Instr} {s t : State} (hc : s.cfg.wf = true) (hs : FrameSound s)
    (h : Effect s t i) : FrameSound t := by
  have untouched : t.protoB = s.protoB → FrameSound t := fun e => frameSound_congr (cfg_of_effect h) e hs
  cases h with
  | kept h =>
    obtain ⟨_, armed, _, _, rfl⟩ := h
    exact frameSound_congr (s := { s with protoB := { s.protoB with armed := armed } }) rfl rfl (hs.setArmed armed)
  | reset h => exact frameSound_congr (h ▸ rfl) (h ▸ rfl) (frameSound_initial s.cfg)
  | mtick h => obtain ⟨_, _, e⟩ := motionTick_frame _ s; exact untouched (by rw [h, e])
  | est h => exact untouched (h ▸ rfl)
  | drive h => obtain ⟨_, _, e⟩ := driveActuators_frame s; exact untouched (by rw [h, e])
  | gyro h => obtain ⟨_, _, _, _, _, e⟩ := trackTurns_frame _ s; exact untouched (by rw [h, e])
  | setIntent h => exact untouched (h ▸ rfl)
  | estop h => exact untouched (h ▸ rfl)
  | @command _ d hi h => obtain ⟨_, rfl⟩ := h; cases d <;> exact untouched rfl
  | fill h => exact untouched (by rw [(fillByte_eq_ok.1 h).2])
  | poll h => obtain ⟨_, _, _, rfl, -⟩ := pollRing_frame h; exact untouched rfl
  | assembled hi h => obtain ⟨_, _, rfl, -⟩ := assembleBytes_frame h; exact untouched rfl
  | received h => exact hs.receiveFrameBytes hc h

/-- Settles O58: under a configuration within its constraints the soundness of the frame machine is kept by what each
instruction does. -/
theorem everyStepKeepsTheFrameSound : Obligations.EveryStepKeepsTheFrameSound := by
  intro s t hc frame checksum h
  have ht : t.cfg.wf = true ∧ FrameSound t :=
    step_keeps (P := fun s => s.cfg.wf = true ∧ FrameSound s)
      (fun s _ ⟨hc, hs⟩ => ⟨hc, frameSound_congr (s := s) rfl rfl hs⟩)
      (fun _ _ _ _ ⟨hc, hs⟩ he => ⟨cfg_of_effect he ▸ hc, frameSound_of_effect hc hs he⟩)
      (fun _ _ s t _ ⟨hc, hs⟩ ha => by
        obtain ⟨_, _, rfl, -⟩ := assembleBytes_frame ha
        exact ⟨hc, frameSound_congr (s := s) rfl rfl hs⟩)
      ⟨hc, frameSound_iff.2 ⟨frame, checksum⟩⟩ h
  exact frameSound_iff.1 ht.2

end Sys2Proof.Machine

/-! PROOFS. The registers of fixed width (spec/10_state.md R23, R25, R28), and the state after reset (R37). -/

namespace Sys2Proof.Machine

/-! ### Who writes the time stamps and the remembered counters -/

theorem switchToTurn_last (d : Direction) (s : State) : (switchToTurn d s).motion.last = s.motion.last := by
  simp [switchToTurn]

theorem rampStep_last (s : State) : (rampStep s).motion.last = s.motion.last := by
  obtain ⟨v, e⟩ := rampStep_frame s
  rw [e]

theorem switchToDriven_last (d : Direction) (s : State) : (switchToDriven d s).motion.last = s.motion.last := by
  unfold switchToDriven
  split <;> simp [rampStep_last]

theorem rampToStop_last (s : State) : (rampToStop s).motion.last = s.motion.last := by
  unfold rampToStop
  dsimp only
  split <;> simp

theorem directionStep_last (s : State) : (directionStep s).motion.last = s.motion.last := by
  unfold directionStep
  split
  · exact switchToDriven_last _ s
  · exact switchToDriven_last _ s
  · exact switchToTurn_last _ s
  · exact switchToTurn_last _ s
  · exact switchToTurn_last _ s
  · exact rampToStop_last s

/-- MTICK stamps its time when the gate is open (R112). -/
theorem motionTick_last (now : Nat) (s : State) :
    (motionTick now s).motion.last = if gateOpen s.cfg now s.motion.last then now else s.motion.last := by
  unfold motionTick
  dsimp only
  split
  · split
    · exact directionStep_last _
    · split
      · exact rampStep_last _
      · rfl
  · rfl

theorem trackTurns_last (gz : Rat) (s : State) : (trackTurns gz s).motion.last = s.motion.last := by
  obtain ⟨a, u, records, e⟩ := integrate_frame gz s
  unfold trackTurns
  dsimp only
  rw [e]
  split <;> simp

/-- A decoded packet writes no time stamp (R185). -/
theorem decodePacket_lastTime (p : APacket) (s : State) :
    (decodePacket p s).protoA.lastTime = s.protoA.lastTime := by
  unfold decodePacket
  dsimp only
  split <;> rfl

/-- A byte at the assembly stamps its time or, discarded, nothing (R184). -/
theorem assembleByte_lastTime {b : Byte} {now : Nat} {s t : State} (h : assembleByte b now s = .ok t) :
    t.protoA.lastTime = now ∨ t.protoA.lastTime = s.protoA.lastTime := by
  unfold assembleByte at h
  split at h
  · unfold takePacketByte at h
    obtain ⟨u, hu, h⟩ := bind_eq_ok.1 h
    obtain ⟨_, rfl⟩ := writePacketByte_eq_ok.1 hu
    dsimp only at h
    split at h <;> cases h
    · exact .inl (decodePacket_lastTime _ _)
    · exact .inl rfl
  · unfold huntSync at h
    split at h
    · dsimp only at h
      split at h
      · obtain ⟨u, hu, h⟩ := bind_eq_ok.1 h
        obtain ⟨_, rfl⟩ := writePacketByte_eq_ok.1 hu
        cases h
        exact .inl rfl
      · cases h
        exact .inl rfl
    · cases h
      exact .inr rfl

theorem assembleBytes_lastTime {bs : List Byte} {now : Nat} {s t : State} (h : assembleBytes now bs s = .ok t) :
    t.protoA.lastTime = now ∨ t.protoA.lastTime = s.protoA.lastTime := by
  induction bs generalizing s with
  | nil => cases h; exact .inr rfl
  | cons b bs ih =>
    obtain ⟨u, hu, h⟩ := bind_eq_ok.1 h
    exact (ih h).elim .inl fun e => e ▸ assembleByte_lastTime hu

theorem walkRing_lastTime {now n : Nat} {s t : State} (h : walkRing now n s = .ok t) :
    t.protoA.lastTime = now ∨ t.protoA.lastTime = s.protoA.lastTime := by
  induction n generalizing s with
  | zero => cases h; exact .inr rfl
  | succ n ih =>
    obtain ⟨b, -, h⟩ := bind_eq_ok.1 h
    obtain ⟨u, hu, h⟩ := bind_eq_ok.1 h
    have stamp := assembleByte_lastTime hu
    exact (ih h).elim .inl fun e => e ▸ stamp

/-- The checks of a poll write no time stamp; its walk writes the poll's (R181). -/
theorem pollRing_lastTime {now : Nat} {s t : State} (h : pollRing now s = .ok t) :
    t.protoA.lastTime = now ∨ t.protoA.lastTime = s.protoA.lastTime := by
  obtain ⟨u, hu, h⟩ := bind_eq_ok.1 h
  have checked : (stallCheck now u).protoA.lastTime = s.protoA.lastTime := by
    have overrun : u.protoA.lastTime = s.protoA.lastTime := by
      rcases overrunCheck_cases hu with ⟨-, rfl⟩ | ⟨-, _, -, -, rfl⟩
      · rfl
      · split <;> rfl
    rw [stallCheck_eq]
    split <;> exact overrun
  exact checked ▸ walkRing_lastTime h

/-! ### The widths -/

theorem widthInv_initial (c : Config) : widthInv (State.initial c) :=
  ⟨Nat.two_pow_pos _, Nat.two_pow_pos _, Nat.two_pow_pos _, Nat.two_pow_pos _⟩

/-- A motion operation keeps the widths if it keeps the stamp of the last tick in its own, and Protocol A and the
wheel-speed registers as they are. -/
theorem widthInv_of_last {s t : State} (hs : widthInv s) (cfg : t.cfg = s.cfg) (protoA : t.protoA = s.protoA)
    (wheel : t.wheel = s.wheel) (last : t.motion.last < 2 ^ s.cfg.timeBits) : widthInv t := by
  obtain ⟨-, time, left, right⟩ := hs
  unfold widthInv
  rw [cfg, protoA, wheel]
  exact ⟨last, time, left, right⟩

/-- The Protocol-A decoder keeps the widths if each byte is stamped with a time of the clock's width. -/
theorem widthInv_of_lastTime {s t : State} {now : Nat} (hs : widthInv s) (hnow : now < 2 ^ s.cfg.timeBits)
    (cfg : t.cfg = s.cfg) (motion : t.motion = s.motion) (wheel : t.wheel = s.wheel)
    (lastTime : t.protoA.lastTime = now ∨ t.protoA.lastTime = s.protoA.lastTime) : widthInv t := by
  obtain ⟨last, time, left, right⟩ := hs
  unfold widthInv
  rw [cfg, motion, wheel]
  exact ⟨last, lastTime.elim (· ▸ hnow) (· ▸ time), left, right⟩

theorem widthInv_assembleBytes {now : Nat} {bs : List Byte} {s t : State} (hs : widthInv s)
    (hnow : now < 2 ^ s.cfg.timeBits) (h : assembleBytes now bs s = .ok t) : widthInv t := by
  have stamp := assembleBytes_lastTime h
  obtain ⟨_, _, rfl, -⟩ := assembleBytes_frame h
  exact widthInv_of_lastTime hs hnow rfl rfl rfl stamp

/-- Whatever a well-formed instruction did, the registers stay within their widths. -/
theorem widthInv_of_effect {i : Instr} {s t : State} (hi : i.wf s.cfg = true) (hs : widthInv s) (h : Effect s t i) :
    widthInv t := by
  have ⟨last, time, left, right⟩ := hs
  cases h with
  | kept h => obtain ⟨_, _, _, _, rfl⟩ := h; exact hs
  | reset h => subst h; exact widthInv_initial s.cfg
  | @mtick now h =>
    have hnow : now < 2 ^ s.cfg.timeBits := by simpa [Instr.wf] using hi
    have stamp := motionTick_last now s
    obtain ⟨_, _, e⟩ := motionTick_frame now s
    refine widthInv_of_last hs (by rw [h, e]) (by rw [h, e]) (by rw [h, e]) ?_
    rw [h, stamp]
    split
    · exact hnow
    · exact last
  | @est encL encR h =>
    have ⟨hl, hr⟩ : encL < 2 ^ s.cfg.encBits ∧ encR < 2 ^ s.cfg.encBits := by simpa [Instr.wf] using hi
    subst h
    exact ⟨last, time, hl, hr⟩
  | drive h => obtain ⟨_, _, e⟩ := driveActuators_frame s; rw [h, e]; exact hs
  | @gyro gz h =>
    have stamp := trackTurns_last gz s
    obtain ⟨_, _, _, _, _, e⟩ := trackTurns_frame gz s
    exact widthInv_of_last hs (by rw [h, e]) (by rw [h, e]) (by rw [h, e]) (by rw [h, stamp]; exact last)
  | setIntent h => subst h; exact hs
  | estop h => subst h; exact hs
  | @command _ d hi h => obtain ⟨_, rfl⟩ := h; cases d <;> exact hs
  | fill h => rw [(fillByte_eq_ok.1 h).2]; exact hs
  | @poll now h =>
    have hnow : now < 2 ^ s.cfg.timeBits := by simpa [Instr.wf] using hi
    have stamp := pollRing_lastTime h
    obtain ⟨_, _, _, rfl, -⟩ := pollRing_frame h
    exact widthInv_of_lastTime hs hnow rfl rfl rfl stamp
  | @assembled _ now _ hu h =>
    have hnow : now < 2 ^ s.cfg.timeBits := by
      rcases hu with rfl | ⟨p, rfl⟩ <;> simpa [Instr.wf] using hi
    exact widthInv_assembleBytes hs hnow h
  | received h => obtain ⟨_, _, rfl, -⟩ := receiveFrameBytes_frame h; exact hs

/-- Settles O59: a decoded instruction carries nothing wider than its ports, and a stray byte's time is a port's too. -/
theorem everyStepKeepsRegisterWidths : Obligations.EveryStepKeepsRegisterWidths := by
  intro s t hs h
  exact step_keeps (P := widthInv) (fun _ _ h => h) (fun _ _ _ => widthInv_of_effect)
    (fun _ _ _ _ hnow hs => widthInv_assembleBytes hs hnow) hs h

/-! ### The state after reset -/

/-- The state after reset is sound, whatever the rounding: it holds nothing but zeros and empty buffers (R37). -/
theorem sound_initial {c : Config} (hc : c.wf = true) : sound (State.initial c) := by
  obtain ⟨frame, checksum⟩ := frameSound_iff.1 (frameSound_initial c)
  exact ⟨hc, motionInv_initial hc, pidInv_initial hc, actuatorInv_initial hc, widthInv_initial c, ringInv_initial hc,
    frame, checksum⟩

/-- Settles O55: each invariant holds of the reset values; the default configuration is within its constraints. -/
theorem soundAfterReset : Obligations.SoundAfterReset :=
  ⟨fun _ hc => sound_initial hc, sound_initial (by decide)⟩

end Sys2Proof.Machine

/-! PROOFS. The buffers (spec/20_memory.md): a publication is one copy of the whole scan (R64), and each buffer has one
writer (R60). -/

namespace Sys2Proof.Machine

/-! ### The publication in one copy -/

/-- The published scan and its strobe are as before. -/
def ScanKept (s t : State) : Prop :=
  t.protoB.pub = s.protoB.pub ∧ t.out.pub = s.out.pub

/-- One strobe was emitted, the counter is back at 0, and the published scan is the first `B_PUBLISH_LEN` entries of the
working buffer and nothing else (R206). -/
def ScanReplaced (s t : State) : Prop :=
  t.out.pub = s.out.pub ++ [.newScan] ∧ t.protoB.samples = 0 ∧
    (∀ k, k < s.cfg.bPublishLen → ∃ v, memFind t.protoB.pub k = some v ∧ memFind t.protoB.work k = some v) ∧
    ∀ k, s.cfg.bPublishLen ≤ k → memFind t.protoB.pub k = none

/-- The published scan was left alone or replaced as a whole: there is no third outcome (R64). It
compares no register of the frame state and no armed bit, and of `s` no buffer but the published one; so a write to one of
those before or after an operation leaves what the operation did true as it stands. -/
def ScanKeptOrReplaced (s t : State) : Prop := ScanKept s t ∨ ScanReplaced s t

theorem scanKeptOrReplaced_refl (s : State) : ScanKeptOrReplaced s s := .inl ⟨rfl, rfl⟩

theorem publishCheck_scan {s t : State} (h : publishCheck s = .ok t) : ScanKeptOrReplaced s t := by
  rcases publishCheck_cases h with ⟨-, scan, hscan, rfl⟩ | ⟨-, rfl⟩
  · obtain ⟨copied, unlisted, -⟩ := scanEntries_spec hscan
    refine .inr ⟨rfl, rfl, fun k hk => ?_, fun k hk => unlisted k (.inr (by omega))⟩
    exact (copied k (Nat.zero_le k) (by omega)).2
  · exact scanKeptOrReplaced_refl t

/-- Up to its publication check an extraction writes the working buffer, the start angle and the counter only (R204). -/
theorem extractFrame_scan {s t : State} (h : extractFrame s = .ok t) : ScanKeptOrReplaced s t := by
  obtain ⟨_, _, _, -, -, -, check⟩ := extractFrame_cases h
  have published := publishCheck_scan check
  exact published

theorem checkFrame_scan {s t : State} (h : checkFrame s = .ok t) : ScanKeptOrReplaced s t := by
  rcases checkFrame_cases h with ⟨-, extracted⟩ | ⟨-, rfl⟩
  · exact extractFrame_scan extracted
  · exact .inl ⟨rfl, rfl⟩

/-- The reset of the frame state behind the check is none of the scan's (R203). -/
theorem completeFrame_scan {s t : State} (h : completeFrame s = .ok t) : ScanKeptOrReplaced s t := by
  obtain ⟨u, checked, rfl⟩ := completeFrame_eq_ok.1 h
  have published := checkFrame_scan checked
  exact published

theorem collectByte_scan {b : Byte} {s t : State} (h : collectByte b s = .ok t) : ScanKeptOrReplaced s t := by
  obtain ⟨-, u, rfl, h⟩ := collectByte_eq_ok.1 h
  split at h
  · have published := completeFrame_scan h
    exact published
  · exact h ▸ .inl ⟨rfl, rfl⟩

/-- Only a collected byte can publish: the header states write the frame state alone (R202). -/
theorem frameStep_scan {b : Byte} {s t : State} (h : frameStep b s = .ok t) : ScanKeptOrReplaced s t := by
  unfold frameStep at h
  split at h
  · split at h <;> cases h <;> exact .inl ⟨rfl, rfl⟩
  · split at h <;> cases h <;> exact .inl ⟨rfl, rfl⟩
  · exact collectByte_scan h

theorem receiveFrameByte_scan {b : Byte} {s t : State} (h : receiveFrameByte b s = .ok t) :
    ScanKeptOrReplaced s t := by
  have h := receiveFrameByte_eq_ok.1 h
  split at h
  · obtain ⟨u, stepped, rfl⟩ := h
    have published := frameStep_scan stepped
    exact published
  · exact h ▸ scanKeptOrReplaced_refl s

/-- Settles O40: a byte reaches the published scan through the publication check only, which copies a whole scan or
changes nothing. -/
theorem publicationReplacesTheWholeScan : Obligations.PublicationReplacesTheWholeScan := by
  intro s t b h
  rcases attempts_cases (op := receiveFrameByte b) h with ⟨-, rfl⟩ | ⟨-, received⟩
  · exact scanKeptOrReplaced_refl t
  · exact receiveFrameByte_scan received

/-! ### The writers of the buffers -/

theorem agentOf_eq_filler {i : Instr} : agentOf i = .filler ↔ ∃ b, i = .aFill b := by
  cases i <;> simp [agentOf]

theorem agentOf_eq_protocolBReceiver {i : Instr} : agentOf i = .protocolBReceiver ↔
    (∃ b, i = .bRx b) ∨ (∃ n, i = .bHdr1 n) ∨ (∃ n, i = .bHdr2 n) ∨ ∃ lo hi body, i = .bFrame lo hi body := by
  cases i <;> simp [agentOf]

/-- The frame buffer, the working buffer and the published scan are as before. -/
def FrameBuffersKept (s t : State) : Prop :=
  t.protoB.buf = s.protoB.buf ∧ t.protoB.work = s.protoB.work ∧ t.protoB.pub = s.protoB.pub

/-- The ring is as before unless `i` is the filler's, the other buffers unless it is the Protocol-B receiver's (R60). -/
structure OneWriterEach (i : Instr) (s t : State) : Prop where
  ring : t.protoA.buf = s.protoA.buf ∨ agentOf i = .filler
  frame : FrameBuffersKept s t ∨ agentOf i = .protocolBReceiver

theorem oneWriterEach_of_same {i : Instr} {s t : State} (ring : t.protoA.buf = s.protoA.buf)
    (frame : FrameBuffersKept s t) : OneWriterEach i s t := ⟨.inl ring, .inl frame⟩

/-- The assembly writes its own registers, never the ring. -/
theorem oneWriterEach_of_assembly {i : Instr} {s t : State} (h : AssemblyOnly s t) : OneWriterEach i s t := by
  obtain ⟨_, _, rfl, ring, -⟩ := h
  exact oneWriterEach_of_same ring ⟨rfl, rfl, rfl⟩

/-- The frame machine is its receiver's, and writes nothing of Protocol A. -/
theorem oneWriterEach_of_frame {i : Instr} {s t : State} (hi : agentOf i = .protocolBReceiver) (h : FrameOnly s t) :
    OneWriterEach i s t := by
  obtain ⟨_, _, rfl, -⟩ := h
  exact ⟨.inl rfl, .inr hi⟩

theorem exec_sent_oneWriterEach {i : Instr} (hi : i = .bStart ∨ i = .bStop ∨ i = .txBStart ∨ i = .txBStop)
    {s t : State} (h : exec i s = .next t) : OneWriterEach i s t := by
  obtain ⟨_, rfl⟩ := exec_sent_frame hi h
  exact oneWriterEach_of_same rfl ⟨rfl, rfl, rfl⟩

/-- Every instruction but RESET writes a buffer as its one writer or leaves it as it was (R60, R28, R29). -/
theorem exec_oneWriterEach {i : Instr} {s t : State} (h : exec i s = .next t) (hi : i ≠ .reset) :
    OneWriterEach i s t := by
  have untouched : t.protoA = s.protoA → t.protoB = s.protoB → OneWriterEach i s t :=
    fun protoA protoB => oneWriterEach_of_same (by rw [protoA]) (by simp [FrameBuffersKept, protoB])
  cases i with
  | reset => exact absurd rfl hi
  | mtick now => obtain ⟨_, _, rfl⟩ := exec_mtick_frame h; exact untouched rfl rfl
  | est encL encR => obtain ⟨_, _, rfl⟩ := exec_est_frame h; exact untouched rfl rfl
  | drive => obtain ⟨_, _, rfl⟩ := exec_drive_frame h; exact untouched rfl rfl
  | gyro gz => obtain ⟨_, _, _, _, _, rfl⟩ := exec_gyro_frame h; exact untouched rfl rfl
  | apoll now =>
    obtain ⟨_, _, _, rfl, ring⟩ := exec_apoll_frame h
    exact oneWriterEach_of_same ring ⟨rfl, rfl, rfl⟩
  | notify => obtain ⟨_, _, rfl⟩ := exec_notify_frame h; exact untouched rfl rfl
  | cmdRx b => obtain ⟨_, _, _, _, _, rfl⟩ := exec_cmdRx_frame h; exact untouched rfl rfl
  | bRx b => exact oneWriterEach_of_frame rfl (exec_bRx_frame h)
  | aFill b => obtain ⟨_, _, _, rfl⟩ := exec_aFill_frame h; exact ⟨.inr rfl, .inl ⟨rfl, rfl, rfl⟩⟩
  | setIntent d v => obtain ⟨_, rfl⟩ := exec_setIntent_frame h; exact untouched rfl rfl
  | estop => obtain ⟨_, _, _, _, rfl⟩ := exec_estop_frame h; exact untouched rfl rfl
  | arm ch => obtain ⟨_, _, rfl⟩ := exec_arm_frame h; exact oneWriterEach_of_same rfl ⟨rfl, rfl, rfl⟩
  | bStart => exact exec_sent_oneWriterEach (by simp) h
  | bStop => exact exec_sent_oneWriterEach (by simp) h
  | imuStatus ok => obtain ⟨_, _, rfl⟩ := exec_imuStatus_frame h; exact untouched rfl rfl
  | fatal => obtain ⟨_, _, rfl⟩ := exec_fatal_frame h; exact untouched rfl rfl
  | cmdStop => obtain ⟨_, _, _, rfl⟩ := exec_cmdStop_frame h; exact untouched rfl rfl
  | cmdForward => obtain ⟨_, _, _, rfl⟩ := exec_cmdForward_frame h; exact untouched rfl rfl
  | cmdBackward => obtain ⟨_, _, _, rfl⟩ := exec_cmdBackward_frame h; exact untouched rfl rfl
  | cmdLeft => obtain ⟨_, _, _, _, _, rfl⟩ := exec_cmdLeft_frame h; exact untouched rfl rfl
  | cmdRight => obtain ⟨_, _, _, _, _, rfl⟩ := exec_cmdRight_frame h; exact untouched rfl rfl
  | cmdUturn => obtain ⟨_, _, _, _, _, rfl⟩ := exec_cmdUturn_frame h; exact untouched rfl rfl
  | cmdIgnored b => obtain ⟨_, rfl⟩ := exec_cmdIgnored_frame h; exact untouched rfl rfl
  | aSync now => exact oneWriterEach_of_assembly (exec_aSync_frame h)
  | aPacket now p => exact oneWriterEach_of_assembly (exec_aPacket_frame h)
  | bHdr1 n => exact oneWriterEach_of_frame rfl (exec_bHdr1_frame h)
  | bHdr2 n => exact oneWriterEach_of_frame rfl (exec_bHdr2_frame h)
  | bFrame lo hi body => exact oneWriterEach_of_frame rfl (exec_bFrame_frame h)
  | txBStart => exact exec_sent_oneWriterEach (by simp) h
  | txBStop => exact exec_sent_oneWriterEach (by simp) h

/-- Settles O46: the filler's one operation is A_FILL, and the Protocol-B receiver's are B_RX and its three units. -/
theorem buffersHaveOneWriter : Obligations.BuffersHaveOneWriter := by
  intro i s t h hi
  obtain ⟨ring, frame⟩ := exec_oneWriterEach h hi
  refine ⟨fun changed => agentOf_eq_filler.1 (ring.resolve_left changed), fun changed => ?_⟩
  refine agentOf_eq_protocolBReceiver.1 (frame.resolve_left fun ⟨buf, work, pub⟩ => ?_)
  rcases changed with h | h | h
  · exact h buf
  · exact h work
  · exact h pub

end Sys2Proof.Machine

/-! PROOFS. Statements of spec/30_encoding.md: the decoder and the encoder invert each other, in each of the five formats
(R80 to R93); a step runs what its oldest word spells, takes a wire word that is no unit byte by byte (R94, R95), and
refuses a reserved direction and nothing else (R84, R13). -/

namespace Sys2Proof.Machine

/-! ### What the ports carry -/

/-- A port carries a time within the clock's width unchanged (R82). -/
theorem portTime_of_lt {c : Config} {now : Nat} (h : now < 2 ^ c.timeBits) : portTime c now = now := Nat.mod_eq_of_lt h

/-- A port carries a count within the counter's width unchanged (R82). -/
theorem portCount_of_lt {c : Config} {enc : Nat} (h : enc < 2 ^ c.encBits) : portCount c enc = enc :=
  Nat.mod_eq_of_lt h

/-! ### Direction codes -/

/-- A direction's code is the one code that names it (R21). -/
theorem direction_code_of_ofCode {code : BitVec 3} {d : Direction} (h : Direction.ofCode code = some d) :
    d.code = code := by
  unfold Direction.ofCode at h
  split at h <;> cases h <;> exact BitVec.eq_of_toNat_eq (Eq.symm ‹_›)

/-- The codes that name no direction are the two reserved ones (R21, R84). -/
theorem direction_ofCode_eq_none_iff {code : BitVec 3} :
    Direction.ofCode code = none ↔ code = 6#3 ∨ code = 7#3 := by
  revert code
  decide

/-- A SET_INTENT event whose code names a direction spells the operation with that direction (R81, R84). -/
theorem decodeEvent_of_direction (c : Config) {e : EventWord} {d : Direction} (hop : e.op = 0xA#4)
    (hd : Direction.ofCode e.dir = some d) : decodeEvent c e = .ok (.setIntent d e.speed) := by
  simp [decodeEvent, hop, hd]

/-- The one event word that spells nothing is a SET_INTENT whose code names no direction (R84). -/
theorem decodeEvent_eq_error_iff {c : Config} {e : EventWord} {why : DecodeError} :
    decodeEvent c e = .error why ↔
      e.op = 0xA#4 ∧ Direction.ofCode e.dir = none ∧ why = .reservedDirection e.dir := by
  constructor
  · intro h
    unfold decodeEvent at h
    split at h
    case h_11 hop =>
      split at h <;> cases h
      exact ⟨BitVec.eq_of_toNat_eq hop, ‹_›, rfl⟩
    case h_14 => split at h <;> cases h
    all_goals cases h
  · rintro ⟨hop, hd, rfl⟩
    simp [decodeEvent, hop, hd]

/-! ### Format CB -/

theorem decodeCommand_of_direction {c : Config} {b : Byte} {d : Direction} (h : commandDirection c b = some d) :
    decodeCommand c b = commandInstr d := by
  unfold decodeCommand
  rw [h]
  cases d <;> rfl

theorem decodeCommand_of_none {c : Config} {b : Byte} (h : commandDirection c b = none) :
    decodeCommand c b = .cmdIgnored b := by
  unfold decodeCommand
  rw [h]

theorem encode_commandInstr (c : Config) (d : Direction) : encode c (commandInstr d) = .cb (commandByte c d) := by
  cases d <;> rfl

/-- A byte that is none of the six command bytes spells no direction (R86). -/
theorem commandDirection_eq_none_of_six_le {c : Config} {b : Byte} (h : 6 ≤ (b - c.cmdBase).toNat) :
    commandDirection c b = none := by
  unfold commandDirection
  split
  case h_7 => rfl
  all_goals omega

/-- The command of a direction comes back from its word (R85). -/
theorem decode_encode_commandInstr (c : Config) (d : Direction) :
    decode c (encode c (commandInstr d)) = .ok (commandInstr d) := by
  rw [encode_commandInstr]
  exact congrArg Except.ok (decodeCommand_of_direction (commandDirection_commandByte c d))

/-- A byte of the command channel is the word of the unit it is (R85, R86). -/
theorem encode_decodeCommand (c : Config) (b : Byte) : encode c (decodeCommand c b) = .cb b := by
  cases hd : commandDirection c b with
  | none =>
    rw [decodeCommand_of_none hd]
    rfl
  | some d => rw [decodeCommand_of_direction hd, encode_commandInstr, commandByte_of_commandDirection hd]

/-! ### Format PA -/

theorem decodeProtocolA_sync (c : Config) (now : Nat) :
    decodeProtocolA c [c.aSync] now = .ok (.aSync (portTime c now)) := if_pos rfl

theorem decodeProtocolA_toBytes (c : Config) (p : APacket) (now : Nat) :
    decodeProtocolA c p.toBytes now = .ok (.aPacket (portTime c now) p) := by
  obtain ⟨b0, b1, b2, b3, b4, hbytes, hfields⟩ := aPacket_ofBytes_toBytes p
  rw [hbytes]
  exact congrArg (fun q => Except.ok (Instr.aPacket (portTime c now) q)) hfields

/-- A Protocol-A word that is a unit is that unit's word, at a time its port carries (R87, R88). -/
theorem encode_of_decodeProtocolA {c : Config} {bytes : List Byte} {now : Nat} {i : Instr}
    (hnow : now < 2 ^ c.timeBits) (h : decodeProtocolA c bytes now = .ok i) : encode c i = .pa bytes now := by
  unfold decodeProtocolA at h
  split at h
  · split at h <;> cases h
    rename_i hsync
    rw [portTime_of_lt hnow, hsync]
    rfl
  · cases h
    rw [portTime_of_lt hnow]
    exact congrArg (PortWord.pa · now) (aPacket_toBytes_ofBytes _ _ _ _ _)
  · cases h

/-! ### Format PB -/

theorem decodeProtocolB_header1 (c : Config) (n : BitVec 4) :
    decodeProtocolB c [headerByte c.hdr1 n] = .ok (.bHdr1 n) := by
  simp [decodeProtocolB, highNibble_headerByte, lowNibble_headerByte]

theorem decodeProtocolB_header2 {c : Config} (h : c.hdr1 ≠ c.hdr2) (n : BitVec 4) :
    decodeProtocolB c [headerByte c.hdr2 n] = .ok (.bHdr2 n) := by
  simp [decodeProtocolB, highNibble_headerByte, lowNibble_headerByte, h.symm]

theorem decodeProtocolB_frame {c : Config} (lo hi : BitVec 4) {body : List Byte} (h : body.length = c.bCollectLen) :
    decodeProtocolB c (headerByte c.hdr1 lo :: headerByte c.hdr2 hi :: body) = .ok (.bFrame lo hi body) := by
  simp [decodeProtocolB, highNibble_headerByte, lowNibble_headerByte, h]

/-- A byte whose high nibble is a header constant is a header byte of that constant (R89). -/
theorem headerByte_of_highNibble {b : Byte} {hdr : BitVec 4} (h : highNibble b = hdr) :
    headerByte hdr (lowNibble b) = b := by
  rw [← h, headerByte_nibbles]

/-- A Protocol-B word that is a unit is that unit's word (R89). -/
theorem encode_of_decodeProtocolB {c : Config} {bytes : List Byte} {i : Instr} (h : decodeProtocolB c bytes = .ok i) :
    encode c i = .pb bytes := by
  unfold decodeProtocolB at h
  split at h
  · cases h
  · split at h
    case isTrue h1 =>
      cases h
      rw [encode, headerByte_of_highNibble h1]
    case isFalse =>
      split at h <;> cases h
      rename_i h2
      rw [encode, headerByte_of_highNibble h2]
  · split at h <;> cases h
    rename_i hframe
    obtain ⟨h1, h2, -⟩ := hframe
    rw [encode, headerByte_of_highNibble h1, headerByte_of_highNibble h2]

/-! ### Format TX -/

theorem decodeTransmitted_start : decodeTransmitted txStartBytes = .ok .txBStart := if_pos rfl

theorem decodeTransmitted_stop : decodeTransmitted txStopBytes = .ok .txBStop := by
  have different : txStopBytes ≠ txStartBytes := by decide
  simp [decodeTransmitted, different]

/-- Bytes that are a sent command are that command's word (R92, R93). -/
theorem encode_of_decodeTransmitted {bytes : List Byte} {i : Instr} (c : Config)
    (h : decodeTransmitted bytes = .ok i) : encode c i = .tx bytes := by
  unfold decodeTransmitted at h
  split at h
  case isTrue hstart =>
    cases h
    rw [hstart, encode]
  case isFalse =>
    split at h <;> cases h
    rename_i hstop
    rw [hstop, encode]

/-! ### The two round trips -/

/-- Decoding inverts encoding on well-formed instructions, but for the second header byte where it is also the first. -/
theorem decode_encode {c : Config} {i : Instr} (hwf : i.wf c = true) (hhdr : c.hdr1 = c.hdr2 → ∀ n, i ≠ .bHdr2 n) :
    decode c (encode c i) = .ok i := by
  cases i with
  | reset | drive | gyro | notify | cmdRx | bRx | aFill | estop | bStart | bStop | fatal => rfl
  | mtick now | apoll now =>
    have time : portTime c now = now := portTime_of_lt (of_decide_eq_true hwf)
    simp [decode, encode, decodeEvent, time]
  | est encL encR =>
    simp only [Instr.wf, Bool.and_eq_true, decide_eq_true_eq] at hwf
    obtain ⟨left, right⟩ := hwf
    simp [decode, encode, decodeEvent, portCount_of_lt left, portCount_of_lt right]
  | setIntent d v =>
    exact decodeEvent_of_direction c (e := { op := 0xA#4, dir := d.code, speed := v }) rfl (direction_ofCode_code d)
  | arm ch => cases ch <;> rfl
  | imuStatus ok => cases ok <;> rfl
  | cmdStop => exact decode_encode_commandInstr c .stop
  | cmdForward => exact decode_encode_commandInstr c .forward
  | cmdBackward => exact decode_encode_commandInstr c .backward
  | cmdLeft => exact decode_encode_commandInstr c .left
  | cmdRight => exact decode_encode_commandInstr c .right
  | cmdUturn => exact decode_encode_commandInstr c .uturn
  | cmdIgnored b =>
    have hd : commandDirection c b = none := commandDirection_eq_none_of_six_le (of_decide_eq_true hwf)
    exact congrArg Except.ok (decodeCommand_of_none hd)
  | aSync now =>
    rw [encode, decode, decodeProtocolA_sync, portTime_of_lt (of_decide_eq_true hwf)]
  | aPacket now p =>
    rw [encode, decode, decodeProtocolA_toBytes, portTime_of_lt (of_decide_eq_true hwf)]
  | bHdr1 n => exact decodeProtocolB_header1 c n
  | bHdr2 n => exact decodeProtocolB_header2 (fun equal => hhdr equal n rfl) n
  | bFrame lo hi body => exact decodeProtocolB_frame lo hi (of_decide_eq_true hwf)
  | txBStart => exact decodeTransmitted_start
  | txBStop => exact decodeTransmitted_stop

/-- Settles O49, constructor by constructor; with equal header constants the second header byte is the first's word. -/
theorem decodeInvertsEncode : Obligations.DecodeInvertsEncode := by
  refine ⟨fun c i hwf hhdr => decode_encode hwf hhdr, fun c n equal => ?_⟩
  rw [encode, ← equal]
  exact decodeProtocolB_header1 c n

/-- Encoding inverts decoding on the wire formats, at a time the port carries: no bit of such a word is dropped. -/
theorem encode_of_decode {c : Config} {w : PortWord} {i : Instr} (hwire : ∀ e, w ≠ .ev e)
    (hnow : ∀ bytes now, w = .pa bytes now → now < 2 ^ c.timeBits) (h : decode c w = .ok i) : encode c i = w := by
  cases w with
  | ev e => exact absurd rfl (hwire e)
  | cb b =>
    cases h
    exact encode_decodeCommand c b
  | pa bytes now => exact encode_of_decodeProtocolA (hnow bytes now rfl) h
  | pb bytes => exact encode_of_decodeProtocolB h
  | tx bytes => exact encode_of_decodeTransmitted c h

/-- Settles O51, format by format (`decode_wf`). -/
theorem decodedInstructionsAreWellFormed : Obligations.DecodedInstructionsAreWellFormed := fun _ _ _ h => decode_wf h

/-- Settles O52: each word evaluated. -/
theorem specWordsDecode : Obligations.SpecWordsDecode := by
  refine ⟨?_, ?_, ?_, ?_, ?_, ?_, ?_, ?_, ?_⟩ <;> decide

/-! ### What a step does with its oldest word -/

theorem step_of_idle {s : State} (h : fetch s = .idle) : step s = .next s := by rw [step, h]

theorem step_of_unit {s t : State} {i : Instr} (h : fetch s = .unit i t) : step s = exec i t := by rw [step, h]

theorem step_of_stray {s t : State} {b : Byte} {now : Nat} (h : fetch s = .stray b now t) :
    step s = receiveStrayByte b now t := by rw [step, h]

theorem step_of_nothing {s t : State} (h : fetch s = .nothing t) : step s = .next t := by rw [step, h]

theorem step_of_rejected {s : State} {why : DecodeError} (h : fetch s = .rejected why) :
    step s = .refused (.undecodable why) := by rw [step, h]

theorem fetch_of_empty {s : State} (h : s.inbox = []) : fetch s = .idle := by rw [fetch, h]

/-- A word that spells an instruction is taken off whole (R81). -/
theorem fetch_of_decoded {s : State} {w : PortWord} {rest : List PortWord} {i : Instr} (hs : s.inbox = w :: rest)
    (h : decode s.cfg w = .ok i) : fetch s = .unit i { s with inbox := rest } := by
  simp [fetch, hs, h]

/-- A word that spells no instruction is `fetchPiece`'s. -/
theorem fetch_of_undecoded {s : State} {w : PortWord} {rest : List PortWord} {why : DecodeError}
    (hs : s.inbox = w :: rest) (h : decode s.cfg w = .error why) : fetch s = fetchPiece why w rest s := by
  simp [fetch, hs, h]

/-- Settles O53, by what `fetch` answers for an empty list, a decoded word and an event that spells nothing. -/
theorem stepRunsTheDecodedInstruction : Obligations.StepRunsTheDecodedInstruction := by
  refine fun s => ⟨fun empty => step_of_idle (fetch_of_empty empty), fun w rest hs => ⟨fun i h => ?_, ?_⟩⟩
  · exact step_of_unit (fetch_of_decoded hs h)
  · rintro e why rfl h
    exact step_of_rejected (fetch_of_undecoded hs h)

/-! ### Refusals -/

theorem runs_ne_refused (op : State → State) (s : State) (why : Refusal) : runs op s ≠ .refused why := nofun

theorem attempts_ne_refused (op : State → Except Fault State) (s : State) (why : Refusal) :
    attempts op s ≠ .refused why := by
  unfold attempts
  split
  · nofun
  · split <;> nofun

/-- No instruction is refused, in any state (R13). -/
theorem exec_ne_refused (i : Instr) (s : State) (why : Refusal) : exec i s ≠ .refused why := by
  cases i with
  | reset => nofun
  | apoll | bRx | aFill | aSync | aPacket | bHdr1 | bHdr2 | bFrame => exact attempts_ne_refused _ s why
  | _ => exact runs_ne_refused _ s why

/-- The words a step refuses are the events that spell nothing (R84, R95). -/
theorem step_refused_cases {s : State} {why : Refusal} (h : step s = .refused why) :
    ∃ e rest err, s.inbox = .ev e :: rest ∧ decodeEvent s.cfg e = .error err := by
  rcases fetch_cases s with ⟨-, hf⟩ | ⟨_, i, inbox, -, -, hf⟩ | ⟨b, now, inbox, hf⟩ | ⟨inbox, hf⟩ |
    ⟨e, rest, err, hs, hd, -⟩
  · cases (step_of_idle hf).symm.trans h
  · exact absurd ((step_of_unit hf).symm.trans h) (exec_ne_refused i _ why)
  · exact absurd ((step_of_stray hf).symm.trans h) (attempts_ne_refused _ _ why)
  · cases (step_of_nothing hf).symm.trans h
  · exact ⟨e, rest, err, hs, hd⟩

/-- Settles O54: an event fails to decode exactly at a reserved direction, and no instruction is refused. -/
theorem reservedDirectionIsRefused : Obligations.ReservedDirectionIsRefused := by
  refine ⟨fun s e rest hs hop => ⟨fun reserved => ?_, fun h6 h7 => ?_⟩, fun s why h => ?_, exec_ne_refused⟩
  · have hd := direction_ofCode_eq_none_iff.2 reserved
    exact step_of_rejected (fetch_of_undecoded hs (decodeEvent_eq_error_iff.2 ⟨hop, hd, rfl⟩))
  · cases hd : Direction.ofCode e.dir with
    | none => exact absurd (direction_ofCode_eq_none_iff.1 hd) (by simp [h6, h7])
    | some d =>
      exact ⟨d, direction_code_of_ofCode hd,
        step_of_unit (fetch_of_decoded hs (decodeEvent_of_direction s.cfg hop hd))⟩
  · obtain ⟨e, rest, err, hs, hd⟩ := step_refused_cases h
    obtain ⟨hop, reserved, -⟩ := decodeEvent_eq_error_iff.1 hd
    exact ⟨e, rest, hs, hop, direction_ofCode_eq_none_iff.1 reserved⟩

/-! ### Wire words taken byte by byte -/

/-- The bytes that remain of a word wait in front of the others, if there are any (R94). -/
theorem putBack_eq (word : List Byte → PortWord) (bs : List Byte) (rest : List PortWord) :
    putBack word bs rest = if bs = [] then rest else word bs :: rest := by
  cases bs <;> rfl

theorem fetchProtocolA_sync {b : Byte} {s : State} (h : b = s.cfg.aSync) (bs : List Byte) (now : Nat)
    (rest : List PortWord) : fetchProtocolA (b :: bs) now rest s =
      .unit (.aSync (portTime s.cfg now)) { s with inbox := putBack (.pa · now) bs rest } := if_pos h

theorem fetchProtocolA_stray {b : Byte} {s : State} (h : b ≠ s.cfg.aSync) (bs : List Byte) (now : Nat)
    (rest : List PortWord) : fetchProtocolA (b :: bs) now rest s =
      .stray b (portTime s.cfg now) { s with inbox := putBack (.pa · now) bs rest } := if_neg h

/-- Outside a packet a byte other than the sync byte is lost (R184, R188). -/
theorem assembleByte_of_outside {b : Byte} (now : Nat) {s : State} (hpkt : s.protoA.inpkt = false)
    (hb : b ≠ s.cfg.aSync) : assembleByte b now s = .ok s := by
  unfold assembleByte huntSync
  rw [hpkt, if_neg Bool.false_ne_true, if_neg hb]
  rfl

/-- A stray byte is lost at a halted block and outside a packet (R95, R234). -/
theorem receiveStrayByte_of_lost {b : Byte} (now : Nat) {s : State} (hb : b ≠ s.cfg.aSync)
    (h : s.sys.halted = true ∨ s.protoA.inpkt = false) : receiveStrayByte b now s = .next s := by
  rcases h with halted | outside
  · exact attempts_of_halted halted
  · exact attempts_of_unchanged (assembleByte_of_outside now outside hb)

/-- Inside a packet a stray byte is the next packet byte (R94, R184). -/
theorem receiveStrayByte_of_inside (b : Byte) (now : Nat) {s : State} (hrun : running s)
    (hpkt : s.protoA.inpkt = true) (hidx : s.protoA.idx < 5) (hrnd : s.cfg.rnd = .exact) :
    ∃ t, receiveStrayByte b now s = .next t ∧ afterByte s b now t := by
  have assembled : assembleByte b now s = _ := (if_pos hpkt).trans (takePacketByte_of_lt b now hidx)
  exact ⟨_, attempts_of_ok hrun assembled, (assembleByte_eq_ok hrnd).1 assembled⟩

/-- Settles O50: a word that decodes by the round trip of its format, any other by what `fetchPiece` takes of it. -/
theorem wireWordsHaveOneMeaning : Obligations.WireWordsHaveOneMeaning := by
  refine ⟨fun c w i hwire hnow h => encode_of_decode hwire hnow h, fun s w rest why hs hd => ?_⟩
  have piece := fetch_of_undecoded hs hd
  refine ⟨?_, ?_, ?_⟩
  · rintro b bs rfl
    rw [← putBack_eq]
    exact step_of_unit piece
  · rintro b bs now left rfl rfl
    rw [← putBack_eq (.pa · now)]
    refine ⟨fun hb => ?_, fun hb lost => ?_, fun hb hrun hpkt hidx hrnd => ?_⟩
    · exact step_of_unit (piece.trans (fetchProtocolA_sync hb bs now rest))
    · rw [step_of_stray (piece.trans (fetchProtocolA_stray hb bs now rest))]
      exact receiveStrayByte_of_lost _ hb lost
    · rw [step_of_stray (piece.trans (fetchProtocolA_stray hb bs now rest))]
      exact receiveStrayByte_of_inside b _ hrun hpkt hidx hrnd
  · rintro (⟨now, rfl⟩ | rfl | ⟨bytes, rfl⟩) <;> exact step_of_nothing piece

end Sys2Proof.Machine

/-! PROOFS. The motion state machine and the PID controller (spec/40_motion.md, spec/41_pid.md): what SET_INTENT, ESTOP,
MTICK and DRIVE leave. First one equation per operation they are made of, then the statements. -/

namespace Sys2Proof.Machine

/-! ### The operations behind their `halted` test -/

/-- An operation that cannot stop, with its `halted` test as the statements write it (R234). -/
theorem runs_eq_ite (op : State → State) (s : State) :
    runs op s = if s.sys.halted = false then .next (op s) else .next s := by
  split
  · exact runs_of_running ‹_›
  · exact runs_of_halted (Bool.eq_true_of_not_eq_false ‹_›)

/-- A running MTICK answers its body's state. -/
theorem exec_mtick_of_running {s : State} (h : running s) (now : Nat) :
    exec (.mtick now) s = .next (motionTick now s) := runs_of_running h

/-- A running DRIVE answers its body's state. -/
theorem exec_drive_of_running {s : State} (h : running s) : exec .drive s = .next (driveActuators s) :=
  runs_of_running h

/-! ### The gate of MTICK and its branches (R112) -/

/-- The gate compares the elapsed time modulo the clock's width (R83, R112). -/
theorem gateOpen_iff {c : Config} {now last : Nat} :
    gateOpen c now last = true ↔
      (c.speedUpdateInterval : Int) ≤ ((now : Int) - (last : Int)) % (2 ^ c.timeBits : Int) := by
  rw [← elapsed_cast, Nat.cast_le, gateOpen, decide_eq_true_eq]

theorem motionTick_of_gate_closed {now : Nat} {s : State} (h : gateOpen s.cfg now s.motion.last ≠ true) :
    motionTick now s = s := if_neg h

theorem motionTick_of_same_direction {now : Nat} {s : State} (h : gateOpen s.cfg now s.motion.last = true)
    (hd : s.motion.tdir = s.motion.cdir) :
    motionTick now s =
      if s.motion.cdir = .stop then { s with motion := { s.motion with last := now } }
      else rampStep { s with motion := { s.motion with last := now } } := by
  simp only [motionTick, if_pos h, hd, ne_eq, not_true_eq_false, if_false, ite_not]

theorem motionTick_of_other_direction {now : Nat} {s : State} (h : gateOpen s.cfg now s.motion.last = true)
    (hd : s.motion.tdir ≠ s.motion.cdir) :
    motionTick now s = directionStep { s with motion := { s.motion with last := now } } :=
  (if_pos h).trans (if_pos hd)

/-! ### The rows of the direction step (R113) -/

theorem setCdir_of_driven {d : Direction} (hd : driven d = true) (s : State) :
    setCdir d s = { s with motion := { s.motion with cdir := d } } := if_pos hd

theorem motionTick_toward_driven {now : Nat} {s : State} (h : gateOpen s.cfg now s.motion.last = true)
    (target : s.motion.tdir = .forward ∨ s.motion.tdir = .backward) (other : s.motion.tdir ≠ s.motion.cdir) :
    motionTick now s = switchToDriven s.motion.tdir { s with motion := { s.motion with last := now } } := by
  rw [motionTick_of_other_direction h other]
  rcases target with hd | hd <;> simp only [directionStep, hd]

theorem motionTick_toward_turn {now : Nat} {s : State} (h : gateOpen s.cfg now s.motion.last = true)
    (target : s.motion.tdir = .left ∨ s.motion.tdir = .right ∨ s.motion.tdir = .uturn)
    (other : s.motion.tdir ≠ s.motion.cdir) :
    motionTick now s = switchToTurn s.motion.tdir { s with motion := { s.motion with last := now } } := by
  rw [motionTick_of_other_direction h other]
  rcases target with hd | hd | hd <;> simp only [directionStep, hd]

theorem motionTick_toward_stop {now : Nat} {s : State} (h : gateOpen s.cfg now s.motion.last = true)
    (target : s.motion.tdir = .stop) (moving : s.motion.cdir ≠ .stop) :
    motionTick now s = rampToStop { s with motion := { s.motion with last := now } } := by
  rw [motionTick_of_other_direction h fun same => moving (same.symm.trans target)]
  simp only [directionStep, target]

/-- During a turn a driven target is held (R296). -/
theorem switchToDriven_of_turning (d : Direction) {s : State}
    (h : s.motion.cdir = .left ∨ s.motion.cdir = .right ∨ s.motion.cdir = .uturn) : switchToDriven d s = s := by
  rcases h with h | h | h <;> simp only [switchToDriven, h]

/-- Outside a turn the switch to a driven direction is a new target speed and one ramp step (R113). -/
theorem switchToDriven_of_not_turning {d : Direction} (hd : driven d = true) {s : State}
    (h : ¬ (s.motion.cdir = .left ∨ s.motion.cdir = .right ∨ s.motion.cdir = .uturn)) :
    switchToDriven d s =
      rampStep { s with motion := { s.motion with cdir := d, tspeed := s.cfg.maxSpeed } } := by
  unfold switchToDriven
  split
  case h_1 | h_2 | h_3 => rw [setCdir_of_driven hd]
  case h_4 | h_5 | h_6 => exact absurd (by simp [*]) h

/-- The switch to a turn sets both speeds and zeroes both integrals (R113, R111). -/
theorem switchToTurn_eq {d : Direction} (hd : d = .left ∨ d = .right ∨ d = .uturn) (s : State) :
    switchToTurn d s =
      { s with
        motion := { s.motion with cdir := d, tspeed := s.cfg.turnSpeed, cspeed := s.cfg.turnSpeed }
        pid := ⟨{ s.pid.l with integral := 0 }, { s.pid.r with integral := 0 }⟩ } := by
  rcases hd with rfl | rfl | rfl <;> rfl

/-! ### The ramp without rounding (R113, R114) -/

@[simp] theorem numAdd_exact {c : Config} (h : c.rnd = .exact) (x y : Rat) : numAdd c x y = x + y := applyRnd_exact h _
@[simp] theorem numSub_exact {c : Config} (h : c.rnd = .exact) (x y : Rat) : numSub c x y = x - y := applyRnd_exact h _
@[simp] theorem numMul_exact {c : Config} (h : c.rnd = .exact) (x y : Rat) : numMul c x y = x * y := applyRnd_exact h _

/-- At the target speed a step that is not negative moves nothing, so that case may be read as a step up. -/
theorem rampStep_exact {s : State} (hrnd : s.cfg.rnd = .exact) (hstep : 0 ≤ s.cfg.speedStep) :
    rampStep s =
      { s with
        motion :=
          { s.motion with
            cspeed :=
              if s.motion.cspeed ≤ s.motion.tspeed then
                min s.motion.tspeed (s.motion.cspeed + s.cfg.speedStep)
              else max s.motion.tspeed (s.motion.cspeed - s.cfg.speedStep) } } := by
  rcases lt_trichotomy s.motion.cspeed s.motion.tspeed with h | h | h
  · simp [rampStep, hrnd, h, h.le]
  · have stay : min s.motion.tspeed (s.motion.cspeed + s.cfg.speedStep) = s.motion.cspeed := by
      rw [← h, min_eq_left (by linarith)]
    simp only [rampStep, h.not_lt, h.not_gt, h.le, if_false, if_true, stay]
  · simp [rampStep, hrnd, h, h.not_gt, h.not_ge]

/-- STOP is committed exactly when the speed does not exceed the step (R113). -/
theorem rampToStop_exact {s : State} (hrnd : s.cfg.rnd = .exact) :
    rampToStop s =
      if s.motion.cspeed ≤ s.cfg.speedStep then
        { s with
          motion := { s.motion with cspeed := 0, cdir := .stop }
          pid := ⟨{ s.pid.l with integral := 0 }, { s.pid.r with integral := 0 }⟩ }
      else { s with motion := { s.motion with cspeed := s.motion.cspeed - s.cfg.speedStep } } := by
  unfold rampToStop
  rw [numSub_exact hrnd]
  split
  · rw [max_eq_left (by linarith), if_pos rfl]
    rfl
  · have moving : 0 < s.motion.cspeed - s.cfg.speedStep := by linarith
    rw [max_eq_right moving.le, if_neg moving.ne']

/-! ### The PID controller without rounding (R130) -/

/-- One wheel of DRIVE: the error `e`, the integral `i` and the clamped output `u` of the controller (R115, R130). -/
theorem driveWheel_exact (sign : Rat) (w : Wheel) {s : State} (hrnd : s.cfg.rnd = .exact) (hmax : 0 ≤ s.cfg.maxSpeed)
    {e i u : Rat} (he : e = s.motion.cspeed - |(s.wheel.get w).rpm|) (hi : i = (s.pid.get w).integral + e)
    (hu : u = max 0 (min (s.cfg.kp.get w * e + s.cfg.ki.get w * i + s.cfg.kd.get w * (e - (s.pid.get w).lastError))
      s.cfg.maxSpeed)) :
    driveWheel sign w s =
      actuate w (sign * u)
        { s with pid := s.pid.set w { setpoint := s.motion.cspeed, integral := i, lastError := e, output := u } } := by
  rw [← clamp_eq hmax] at hu
  subst hu hi he
  cases w <;> simp [driveWheel, pidCompute, hrnd]

/-- Both wheels of DRIVE: the right wheel's controller reads nothing the left wheel's has written. -/
theorem driveBoth_exact (sign : Rat) {s : State} (hrnd : s.cfg.rnd = .exact) (hmax : 0 ≤ s.cfg.maxSpeed)
    {eL eR iL iR uL uR : Rat}
    (heL : eL = s.motion.cspeed - |s.wheel.l.rpm|) (heR : eR = s.motion.cspeed - |s.wheel.r.rpm|)
    (hiL : iL = s.pid.l.integral + eL) (hiR : iR = s.pid.r.integral + eR)
    (huL : uL = max 0 (min (s.cfg.kp.l * eL + s.cfg.ki.l * iL + s.cfg.kd.l * (eL - s.pid.l.lastError))
      s.cfg.maxSpeed))
    (huR : uR = max 0 (min (s.cfg.kp.r * eR + s.cfg.ki.r * iR + s.cfg.kd.r * (eR - s.pid.r.lastError))
      s.cfg.maxSpeed)) :
    driveWheel sign .r (driveWheel sign .l s) =
      actuate .r (sign * uR) (actuate .l (sign * uL)
        { s with
          pid := ⟨{ setpoint := s.motion.cspeed, integral := iL, lastError := eL, output := uL },
                  { setpoint := s.motion.cspeed, integral := iR, lastError := eR, output := uR }⟩ }) := by
  rw [driveWheel_exact (s := driveWheel sign .l s) sign .r hrnd hmax heR hiR huR,
    driveWheel_exact sign .l hrnd hmax heL hiL huL]
  rfl

/-! ### Actuator emission (R115 to R117) -/

/-- Duties that are not negative drive the A channels (R117). -/
theorem actuate_forward {uL uR : Rat} (hL : 0 ≤ uL) (hR : 0 ≤ uR) (s : State) :
    actuate .r uR (actuate .l uL s) = { s with act := ⟨uL, 0, uR, 0⟩ } := by
  have duty : ∀ {u : Rat}, 0 ≤ u → (if 0 < u then u else 0) = u ∧ (if u < 0 then -u else 0) = 0 := fun h =>
    ⟨ite_eq_left_iff.2 fun h' => le_antisymm h (not_lt.1 h'), if_neg h.not_gt⟩
  simp only [actuate, duty hL, duty hR]

/-- Duties that are not positive drive the B channels with their magnitudes (R117). -/
theorem actuate_backward {uL uR : Rat} (hL : 0 ≤ uL) (hR : 0 ≤ uR) (s : State) :
    actuate .r (-uR) (actuate .l (-uL) s) = { s with act := ⟨0, uL, 0, uR⟩ } := by
  have duty : ∀ {u : Rat}, 0 ≤ u → (if 0 < -u then -u else 0) = 0 ∧ (if -u < 0 then - -u else 0) = u := fun h =>
    ⟨if_neg (by linarith), by rw [neg_neg]; exact ite_eq_left_iff.2 fun h' => by linarith⟩
  simp only [actuate, duty hL, duty hR]

/-- A turn's pattern replaces the channels and nothing else (R116). -/
theorem turnAct_eq {s : State} (h : 0 ≤ s.cfg.turnSpeed) {d : Direction} (hd : d = .left ∨ d = .right ∨ d = .uturn) :
    turnAct d s =
      { s with
        act := if d = .right then ⟨s.cfg.turnSpeed, 0, 0, s.cfg.turnSpeed⟩
          else ⟨0, s.cfg.turnSpeed, s.cfg.turnSpeed, 0⟩ } := by
  rw [← turnAct_act h d hd]
  cases d <;> rfl

theorem driveActuators_of_forward {s : State} (h : s.motion.cdir = .forward) :
    driveActuators s = driveWheel 1 .r (driveWheel 1 .l s) := by simp only [driveActuators, h]

theorem driveActuators_of_backward {s : State} (h : s.motion.cdir = .backward) :
    driveActuators s = driveWheel (-1) .r (driveWheel (-1) .l s) := by simp only [driveActuators, h]

theorem driveActuators_of_stop {s : State} (h : s.motion.cdir = .stop) :
    driveActuators s = stopAct (zeroIntegrals s) := by simp only [driveActuators, h]

theorem driveActuators_of_turn {s : State}
    (h : s.motion.cdir = .left ∨ s.motion.cdir = .right ∨ s.motion.cdir = .uturn) :
    driveActuators s = turnAct s.motion.cdir (zeroIntegrals s) := by
  rcases h with h | h | h <;> simp only [driveActuators, h]

/-! ### The statements about MTICK -/

/-- Settles O8: at equal directions an open gate leaves the ramp step, or nothing at STOP. -/
theorem mtickRampsTowardTarget : Obligations.MtickRampsTowardTarget := by
  intro s now hrun hrnd hstep due same
  rw [exec_mtick_of_running hrun, motionTick_of_same_direction (gateOpen_iff.2 due) same]
  split
  · rfl
  · exact congrArg _ (rampStep_exact hrnd hstep)

/-- Settles O9: the row of a driven target either holds the turn or is one ramp step in the new direction. -/
theorem mtickSwitchesToDrivenDirection : Obligations.MtickSwitchesToDrivenDirection := by
  intro s now hrun hrnd hstep due target other
  have hdriven : driven s.motion.tdir = true := by rcases target with h | h <;> rw [h] <;> rfl
  rw [exec_mtick_of_running hrun, motionTick_toward_driven (gateOpen_iff.2 due) target other]
  split
  · exact congrArg _ (switchToDriven_of_turning _ ‹_›)
  · exact congrArg _ ((switchToDriven_of_not_turning hdriven ‹_›).trans (rampStep_exact hrnd hstep))

/-- Settles O10: the row of a turn target is the switch itself. -/
theorem mtickSwitchesToTurn : Obligations.MtickSwitchesToTurn := by
  intro s now hrun due target other
  rw [exec_mtick_of_running hrun, motionTick_toward_turn (gateOpen_iff.2 due) target other, switchToTurn_eq target]

/-- Settles O11: the row of a STOP target is the ramp to STOP. -/
theorem mtickRampsDownToStop : Obligations.MtickRampsDownToStop := by
  intro s now hrun hrnd due target moving
  rw [exec_mtick_of_running hrun, motionTick_toward_stop (gateOpen_iff.2 due) target moving, ← apply_ite]
  exact congrArg _ (rampToStop_exact hrnd)

/-- Settles O7: a closed gate lets nothing through. -/
theorem mtickBeforeIntervalIsNoOp : Obligations.MtickBeforeIntervalIsNoOp := by
  intro s now hrun early
  rw [exec_mtick_of_running hrun, motionTick_of_gate_closed fun h => (gateOpen_iff.1 h).not_gt early]

/-! ### The statements about DRIVE -/

/-- Settles O12: both controllers run, and the direction's sign selects the channels their outputs drive. -/
theorem driveRunsBothPids : Obligations.DriveRunsBothPids := by
  intro s hrun hrnd hmax direction eL eR iL iR uL uR heL heR hiL hiR huL huR
  have hL : 0 ≤ uL := huL ▸ le_max_left 0 _
  have hR : 0 ≤ uR := huR ▸ le_max_left 0 _
  have both := fun sign => driveBoth_exact sign hrnd hmax heL heR hiL hiR huL huR
  rw [exec_drive_of_running hrun]
  rcases direction with h | h
  · rw [driveActuators_of_forward h, both, one_mul, one_mul, actuate_forward hL hR, if_pos h]
  · rw [driveActuators_of_backward h, both, neg_one_mul, neg_one_mul, actuate_backward hL hR,
      if_neg (by rw [h]; decide)]

/-- Settles O13: outside the driven directions the integrals are zeroed and the channels follow the direction alone. -/
theorem driveTurnsOpenLoopAndStops : Obligations.DriveTurnsOpenLoopAndStops := by
  intro s hrun hturn notForward notBackward
  rw [exec_drive_of_running hrun]
  split
  · rw [driveActuators_of_stop ‹_›]
    rfl
  · have turning : s.motion.cdir = .left ∨ s.motion.cdir = .right ∨ s.motion.cdir = .uturn := by
      cases h : s.motion.cdir with
      | forward => exact absurd h notForward
      | backward => exact absurd h notBackward
      | stop => exact absurd h ‹_›
      | left | right | uturn => simp
    rw [driveActuators_of_turn turning, turnAct_eq (s := zeroIntegrals s) hturn turning]
    rfl

/-! ### The statements about SET_INTENT and ESTOP -/

/-- Settles O5: the clamp is the nearest value of the speed range; the code on the port names at most one direction. -/
theorem setIntentRecordsClampedIntent : Obligations.SetIntentRecordsClampedIntent := by
  refine ⟨fun s d v hmax => ?_, fun c e hop => ⟨fun d hd => ?_, fun reserved => ?_⟩⟩
  · rw [← clamp_eq hmax v]
    exact runs_eq_ite (recordIntent d v) s
  · exact decodeEvent_of_direction c hop (hd ▸ direction_ofCode_code d)
  · exact decodeEvent_eq_error_iff.2 ⟨hop, direction_ofCode_eq_none_iff.2 reserved, rfl⟩

/-- Settles O6: FORCE_STOP after CLEAR_TRACKERS, whatever was going on. -/
theorem emergencyStopIsTotal : Obligations.EmergencyStopIsTotal := by
  refine ⟨fun s => runs_eq_ite emergencyStop s, fun c e hop => ?_⟩
  simp [decode, decodeEvent, hop]

end Sys2Proof.Machine

/-! PROOFS. The range of the PID outputs (spec/41_pid.md R131): the clamp is the controller's last operation and is not
rounded, so the range needs nothing of `rnd`. -/

namespace Sys2Proof.Machine

/-- The controller's output is clamped last, whatever the rounding has made of the sum before it (R130). -/
theorem pidCompute_output_inSpeedRange (w : Wheel) (measured : Rat) {s : State} (hmax : 0 ≤ s.cfg.maxSpeed) :
    inSpeedRange s.cfg ((pidCompute w measured s).pid.get w).output := by
  cases w <;> exact clamp_mem hmax _

theorem driveWheel_output_inSpeedRange (sign : Rat) (w : Wheel) {s : State} (hmax : 0 ≤ s.cfg.maxSpeed) :
    inSpeedRange s.cfg ((driveWheel sign w s).pid.get w).output := by
  simp only [driveWheel, actuate_pid]
  exact pidCompute_output_inSpeedRange w _ hmax

@[simp] theorem driveWheel_r_pid_l (sign : Rat) (s : State) : (driveWheel sign .r s).pid.l = s.pid.l := rfl

@[simp] theorem driveWheel_cfg (sign : Rat) (w : Wheel) (s : State) : (driveWheel sign w s).cfg = s.cfg := by
  obtain ⟨p, a, h⟩ := driveWheel_frame sign w s
  rw [h]

/-- The right wheel's run keeps the output the left wheel's run has clamped. -/
theorem driveBoth_outputs_inSpeedRange (sign : Rat) {s : State} (hmax : 0 ≤ s.cfg.maxSpeed) :
    inSpeedRange s.cfg (driveWheel sign .r (driveWheel sign .l s)).pid.l.output ∧
      inSpeedRange s.cfg (driveWheel sign .r (driveWheel sign .l s)).pid.r.output := by
  constructor
  · rw [driveWheel_r_pid_l]
    exact driveWheel_output_inSpeedRange sign .l hmax
  · have right := driveWheel_output_inSpeedRange sign .r (s := driveWheel sign .l s) (by rwa [driveWheel_cfg])
    rwa [driveWheel_cfg] at right

/-- Settles O14: in either driven direction DRIVE is the two clamped controllers, and only the sign differs. -/
theorem pidOutputIsAlwaysClamped : Obligations.PidOutputIsAlwaysClamped := by
  intro s hrun hmax hdriven
  refine ⟨driveActuators s, exec_drive_of_running hrun, ?_⟩
  cases h : s.motion.cdir with
  | forward =>
    rw [driveActuators_of_forward h]
    exact driveBoth_outputs_inSpeedRange 1 hmax
  | backward =>
    rw [driveActuators_of_backward h]
    exact driveBoth_outputs_inSpeedRange (-1) hmax
  | stop | left | right | uturn =>
    rw [h] at hdriven
    cases hdriven

end Sys2Proof.Machine

/-! PROOFS. The wheel-speed estimator (spec/42_wheel_speed.md): the wrapped counter difference read as two's complement
(R141), and the sample EST makes of it (R140). -/

namespace Sys2Proof.Machine

/-! ### Two's complement -/

/-- A code of `W` bits reads as a value of `W` bits: its upper half is the negative half of the range (R12). -/
theorem signedW_mem {W v : Nat} (hW : 1 ≤ W) (hv : v < 2 ^ W) :
    -(2 ^ (W - 1) : Int) ≤ signedW W v ∧ signedW W v < 2 ^ (W - 1) := by
  obtain ⟨k, rfl⟩ := Nat.exists_eq_add_of_le' hW
  zify at hv
  rw [pow_succ] at hv
  rw [signedW, Nat.add_sub_cancel, pow_succ]
  split
  · have low : (v : Int) < 2 ^ k := by exact_mod_cast ‹_›
    omega
  · have high : (2 ^ k : Int) ≤ v := by exact_mod_cast not_lt.1 ‹_›
    omega

/-- Reading a code as two's complement moves it by nothing or by one modulus. -/
theorem two_pow_dvd_signedW_sub (W v : Nat) : (2 ^ W : Int) ∣ signedW W v - v := by
  unfold signedW
  split
  · exact ⟨0, by ring⟩
  · exact ⟨-1, by ring⟩

/-! ### The counter's movement (R141) -/

/-- The unsigned difference of the counters modulo their width. -/
theorem subMod_two_pow_cast (enc prev W : Nat) :
    ((subMod enc prev (2 ^ W) : Nat) : Int) = ((enc : Int) - prev) % (2 ^ W : Int) := by
  rw [subMod_cast _ _ (Nat.two_pow_pos W), Nat.cast_pow, Nat.cast_ofNat]

/-- The movement in integers alone: the wrapped difference, less one modulus from half the counter's range on. -/
theorem encoderDelta_eq_ite (c : Config) (enc prev : Nat) :
    encoderDelta c enc prev =
      if ((enc : Int) - prev) % (2 ^ c.encBits : Int) < 2 ^ (c.encBits - 1) then
        ((enc : Int) - prev) % (2 ^ c.encBits : Int)
      else ((enc : Int) - prev) % (2 ^ c.encBits : Int) - 2 ^ c.encBits := by
  rw [← subMod_two_pow_cast, encoderDelta, signedW]
  norm_cast

/-- Settles O18: the wrapped difference is a code of the counter's width, and its two's complement reading keeps its
class modulo `2^W`. -/
theorem encoderDeltaIsWrappedDifference : Obligations.EncoderDeltaIsWrappedDifference := by
  intro c enc prev hW
  have code : subMod enc prev (2 ^ c.encBits) < 2 ^ c.encBits := subMod_lt enc prev (Nat.two_pow_pos _)
  rw [encoderDelta]
  obtain ⟨low, high⟩ := signedW_mem (le_of_lt hW) code
  refine ⟨low, high, ?_⟩
  have reading := two_pow_dvd_signedW_sub c.encBits (subMod enc prev (2 ^ c.encBits))
  have wrapped : (2 ^ c.encBits : Int) ∣ (subMod enc prev (2 ^ c.encBits) : Int) - ((enc : Int) - prev) := by
    rw [subMod_two_pow_cast]
    exact dvd_sub_comm.1 Int.dvd_self_sub_emod
  have total := dvd_add reading wrapped
  rwa [sub_add_sub_cancel] at total

/-! ### The sample (R140) -/

@[simp] theorem numDiv_exact {c : Config} (h : c.rnd = .exact) (x y : Rat) : numDiv c x y = x / y := applyRnd_exact h _

/-- The rate of a movement without rounding. -/
theorem rpmOf_exact {c : Config} (h : c.rnd = .exact) (delta : Int) :
    rpmOf c delta = delta / (c.ppr : Rat) * (60 / ((c.sampleTimeMs : Rat) / 1000)) := by
  simp only [rpmOf, numMul_exact h, numDiv_exact h]

/-- A running EST samples both wheels and records both rates. -/
theorem exec_est_of_running {s : State} (h : running s) (encL encR : Nat) :
    exec (.est encL encR) s = .next (estimateSpeeds encL encR s) := runs_of_running h

/-- Settles O17: each wheel's stored and reported rate is the rate of its wrapped signed movement. -/
theorem estReportsSignedRates : Obligations.EstReportsSignedRates := by
  intro s encL encR hrun hrnd rate hrate
  have sample (enc : Nat) (old : WheelSpeed) :
      wheelSample s.cfg enc old = { prev := enc, rpm := rate enc old.prev } := by
    rw [wheelSample, rpmOf_exact hrnd, encoderDelta_eq_ite, hrate]
  rw [exec_est_of_running hrun, estimateSpeeds, sample, sample]
  rfl

end Sys2Proof.Machine

/-! PROOFS. The gyroscope integrator (spec/43_turn_tracker.md): one equation per tracker's update (R150, R154), the two
bounds as the statement writes them (R151, R152), and what GYRO makes of both. -/

namespace Sys2Proof.Machine

/-! ### The trackers' updates without rounding (R150, R157) -/

/-- What one sample turns by: the rate times the sample time in seconds (R150). -/
theorem turnedBy_exact {c : Config} (h : c.rnd = .exact) (gz : Rat) :
    numMul c gz (sampleSeconds c) = gz * ((c.sampleTimeMs : Rat) / 1000) := by
  rw [numMul_exact h, sampleSeconds, numDiv_exact h]

section Accumulators

variable {s : State} {gz a u : Rat} (hrnd : s.cfg.rnd = .exact)
    (ha : a = if s.turn.atActive then s.turn.atAcc + gz * ((s.cfg.sampleTimeMs : Rat) / 1000) else s.turn.atAcc)
    (hu : u = if s.turn.utActive then s.turn.utAcc + gz * ((s.cfg.sampleTimeMs : Rat) / 1000) else s.turn.utAcc)

include hrnd

include ha in
/-- The ANGLE_TURN accumulator `a`, written and reported while its tracker is active. -/
theorem integrateAngleTurn_exact :
    integrateAngleTurn gz s =
      { s with
        turn := { s.turn with atAcc := a }
        out := { s.out with tlm := s.out.tlm ++ if s.turn.atActive then [.angle a] else [] } } := by
  unfold integrateAngleTurn
  split at ha
  · rw [if_pos ‹_›, if_pos ‹_›, numAdd_exact hrnd, turnedBy_exact hrnd, ← ha]
    rfl
  · rw [if_neg ‹_›, if_neg ‹_›, List.append_nil, ha]

include hu in
/-- The U_TURN accumulator `u`, written and reported while its tracker is active. -/
theorem integrateUturn_exact :
    integrateUturn gz s =
      { s with
        turn := { s.turn with utAcc := u }
        out := { s.out with tlm := s.out.tlm ++ if s.turn.utActive then [.uturn u] else [] } } := by
  unfold integrateUturn
  split at hu
  · rw [if_pos ‹_›, if_pos ‹_›, numAdd_exact hrnd, turnedBy_exact hrnd, ← hu]
    rfl
  · rw [if_neg ‹_›, if_neg ‹_›, List.append_nil, hu]

include ha hu in
/-- Neither update reads what the other writes, so both work on the registers GYRO starts from; the ANGLE record comes
first (R154, R157). -/
theorem integrateBoth_exact :
    integrateUturn gz (integrateAngleTurn gz s) =
      { s with
        turn := { s.turn with atAcc := a, utAcc := u }
        out := { s.out with
          tlm := s.out.tlm ++
            ((if s.turn.atActive then [.angle a] else []) ++ if s.turn.utActive then [.uturn u] else []) } } := by
  rw [integrateAngleTurn_exact hrnd ha, ← List.append_assoc]
  exact integrateUturn_exact hrnd hu

end Accumulators

/-! ### The bounds (R151, R152) -/

theorem angleTurnDone_iff {c : Config} {dir : TurnDir} {acc : Rat} :
    angleTurnDone c dir acc = true ↔
      dir = .left ∧ c.angleTurnDeg ≤ acc ∨ dir = .right ∧ acc ≤ -c.angleTurnDeg := by
  cases dir <;> simp [angleTurnDone]

theorem uturnDone_iff {c : Config} {acc : Rat} :
    uturnDone c acc = true ↔
      c.uturnSigned = true ∧ c.uTurnDeg ≤ acc ∨ c.uturnSigned = false ∧ c.uTurnDeg ≤ |acc| := by
  cases h : c.uturnSigned <;> simp [uturnDone, h]

/-- Only an active tracker completes a maneuver. -/
theorem maneuverDone_iff {s : State} :
    maneuverDone s = true ↔
      s.turn.atActive = true ∧ angleTurnDone s.cfg s.turn.atDir s.turn.atAcc = true ∨
        s.turn.utActive = true ∧ uturnDone s.cfg s.turn.utAcc = true := by
  simp only [maneuverDone, Bool.or_eq_true, Bool.and_eq_true]

/-! ### The statement about GYRO -/

/-- A running GYRO answers its body's state. -/
theorem exec_gyro_of_running {s : State} (h : running s) (gz : Rat) :
    exec (.gyro gz) s = .next (trackTurns gz s) := runs_of_running h

/-- Settles O19: both updates first; the bounds are then tested on the new accumulators, and completion is the stop
sequence after CLEAR_TRACKERS. -/
theorem gyroIntegratesAndCompletes : Obligations.GyroIntegratesAndCompletes := by
  rintro s gz a u hrun hrnd ha hu _ rfl
  rw [exec_gyro_of_running hrun, trackTurns, integrateBoth_exact hrnd ha hu]
  simp only [maneuverDone_iff, angleTurnDone_iff, uturnDone_iff, apply_ite Host.Outcome.next]
  rfl

end Sys2Proof.Machine

/-! PROOFS. The command interpreter (spec/44_command.md): one equation for the handler around an accepted command byte
(R161), what it makes of each command, the convergence of the eager and the tick path (R169), then NOTIFY and ARM. -/

namespace Sys2Proof.Machine

/-! ### The handler at an armed channel (R161, R172) -/

theorem acceptCommand_of_armed (body : State → State) {s : State} (h : s.cmd.armed = true) :
    acceptCommand body s = rearm .command (body { s with cmd := { s.cmd with armed := false, connected := true } }) :=
  if_pos h

@[simp] theorem rearm_command_armed (s : State) : (rearm .command s).cmd.armed = true := rfl

/-- A row of format CB is the command channel's handler around the own writes of its direction (R85, R96). -/
theorem exec_commandInstr (d : Direction) (s : State) :
    exec (commandInstr d) s = runs (acceptCommand (commandFor d)) s := by
  cases d <;> rfl

/-- An accepted command makes its own writes, latches the connected flag and leaves the channel armed (R161). -/
theorem exec_commandInstr_of_armed {s : State} (hrun : running s) (harmed : s.cmd.armed = true) (d : Direction) :
    exec (commandInstr d) s =
      .next { commandFor d s with cmd := { connected := true, announced := s.cmd.announced, armed := true } } := by
  rw [exec_commandInstr, runs_of_running hrun, acceptCommand_of_armed _ harmed, commandFor_cmd]
  rfl

/-- An accepted byte that is no command latches the connected flag and leaves the channel armed (R168). -/
theorem exec_cmdIgnored_of_armed {s : State} (hrun : running s) (harmed : s.cmd.armed = true) (b : Byte) :
    exec (.cmdIgnored b) s =
      .next { s with cmd := { connected := true, announced := s.cmd.announced, armed := true } } := by
  rw [show exec (.cmdIgnored b) s = runs (acceptCommand id) s from rfl, runs_of_running hrun,
    acceptCommand_of_armed _ harmed]
  rfl

/-! ### CMD_RX -/

/-- CMD_RX runs the command its byte spells (R161). -/
theorem exec_cmdRx_eq (b : Byte) (s : State) : exec (.cmdRx b) s = exec (decodeCommand s.cfg b) s := execCmdRx_eq b s

/-- A byte that is no direction's command byte spells no command (R85, R86). -/
theorem commandDirection_eq_none_of_ne {c : Config} {b : Byte} (h : ∀ d, b ≠ commandByte c d) :
    commandDirection c b = none := by
  cases hd : commandDirection c b with
  | none => rfl
  | some d => exact absurd (commandByte_of_commandDirection hd).symm (h d)

/-- Settles O23: CMD_RX is its decoded command, and an operation without a buffer always answers a next state. -/
theorem cmdRxRunsTheDecodedCommand : Obligations.CmdRxRunsTheDecodedCommand :=
  fun s b => ⟨_, rfl, (exec_cmdRx_eq b s).symm⟩

/-- Settles O20: the three commands' own writes, which leave `m_cdir`, `m_cspeed` and the channels alone. -/
theorem driveCommandsSetTheIntent : Obligations.DriveCommandsSetTheIntent := by
  rintro s _ _ _ hrun harmed (⟨rfl, rfl, rfl⟩ | ⟨rfl, rfl, rfl⟩ | ⟨rfl, rfl, rfl⟩)
  · exact exec_commandInstr_of_armed hrun harmed .stop
  · exact exec_commandInstr_of_armed hrun harmed .forward
  · exact exec_commandInstr_of_armed hrun harmed .backward

/-- Settles O22: the byte is none of the six command bytes, so CMD_RX runs CMD_IGNORED. -/
theorem ignoredByteOnlyLatchesConnected : Obligations.IgnoredByteOnlyLatchesConnected := by
  intro s b hrun harmed hstop hforward hbackward hleft hright huturn
  have ignored := exec_cmdIgnored_of_armed hrun harmed b
  have noCommand : commandDirection s.cfg b = none := commandDirection_eq_none_of_ne fun d => by
    cases d with
    | stop => simpa [commandByte, Direction.code] using hstop
    | forward => exact hforward
    | backward => exact hbackward
    | left => exact hleft
    | right => exact hright
    | uturn => exact huturn
  exact ⟨ignored, by rw [exec_cmdRx_eq, decodeCommand_of_none noCommand, ignored]⟩

/-- Settles O25: the re-arm is the last write of both handlers, whatever the byte did before it. -/
theorem acceptedBytesRearmTheirChannel : Obligations.AcceptedBytesRearmTheirChannel := by
  refine fun s t b hrun => ⟨fun harmed h => ?_, fun harmed h => ?_⟩
  · rcases runs_cases (op := acceptCommand (commandBody b)) h with ⟨halted, -⟩ | ⟨-, rfl⟩
    · exact absurd (hrun.symm.trans halted) Bool.false_ne_true
    · rw [acceptCommand_of_armed _ harmed, rearm_command_armed]
  · rcases attempts_cases (op := receiveFrameByte b) h with ⟨halted, -⟩ | ⟨-, received⟩
    · exact absurd (hrun.symm.trans halted) Bool.false_ne_true
    · rw [receiveFrameByte_eq_ok, if_pos harmed] at received
      obtain ⟨_, -, rfl⟩ := received
      rfl

/-! ### The turn commands (R165 to R167, R169) -/

/-- The trackers as the command of turn `d` restarts them (R165 to R167). -/
def restartTracker (d : Direction) (turn : Turn) : Turn :=
  match d with
  | .left => { turn with atActive := true, atAcc := 0, atDir := .left }
  | .right => { turn with atActive := true, atAcc := 0, atDir := .right }
  | .uturn => { turn with utActive := true, utAcc := 0 }
  | .stop | .forward | .backward => turn

/-- A turn command restarts its tracker and switches eagerly. -/
theorem commandFor_of_turn {d : Direction} (hd : d = .left ∨ d = .right ∨ d = .uturn) (s : State) :
    commandFor d s = turnSwitch d { s with turn := restartTracker d s.turn } := by
  rcases hd with rfl | rfl | rfl <;> rfl

/-- The eager switch is the turn's pattern on the channels, with both directions and both speeds set and both integrals
zeroed (R169, R111). -/
theorem turnSwitch_eq_turnAct {d : Direction} (hd : d = .left ∨ d = .right ∨ d = .uturn) (s : State) :
    turnSwitch d s =
      { turnAct d s with
        motion := { tdir := d, cdir := d, tspeed := s.cfg.turnSpeed, cspeed := s.cfg.turnSpeed, last := s.motion.last }
        pid := ⟨{ s.pid.l with integral := 0 }, { s.pid.r with integral := 0 }⟩ } := by
  rcases hd with rfl | rfl | rfl <;> rfl

/-- Settles O21: the tracker restarted, then the eager switch, inside the handler of an armed channel. -/
theorem turnCommandsActuateAtOnce : Obligations.TurnCommandsActuateAtOnce := by
  intro s command d turn hrun harmed hturn hcommand
  obtain ⟨rfl, rfl, hd⟩ : command = commandInstr d ∧ turn = restartTracker d s.turn ∧
      (d = .left ∨ d = .right ∨ d = .uturn) := by
    rcases hcommand with ⟨rfl, rfl, rfl⟩ | ⟨rfl, rfl, rfl⟩ | ⟨rfl, rfl, rfl⟩ <;> exact ⟨rfl, rfl, by simp⟩
  rw [exec_commandInstr_of_armed hrun harmed, commandFor_of_turn hd, turnSwitch_eq_turnAct hd,
    turnAct_eq (s := { s with turn := restartTracker d s.turn }) hturn hd]

/-! ### The eager and the tick path (R169, R113) -/

/-- A running SET_INTENT records its intent. -/
theorem exec_setIntent_of_running {s : State} (h : running s) (d : Direction) (v : Rat) :
    exec (.setIntent d v) s = .next (recordIntent d v s) := runs_of_running h

@[simp] theorem recordIntent_tdir (d : Direction) (v : Rat) (s : State) : (recordIntent d v s).motion.tdir = d := rfl

/-- The intent of a turn, an effective MTICK and a DRIVE leave what the eager switch leaves, but for the tick's time
(R113, R115). -/
theorem tickPath_eq_turnAct {s : State} {now : Nat} {d : Direction} (v : Rat)
    (hgate : gateOpen s.cfg now s.motion.last = true) (hd : d = .left ∨ d = .right ∨ d = .uturn)
    (other : s.motion.cdir ≠ d) :
    driveActuators (motionTick now (recordIntent d v s)) =
      { turnAct d s with
        motion := { tdir := d, cdir := d, tspeed := s.cfg.turnSpeed, cspeed := s.cfg.turnSpeed, last := now }
        pid := ⟨{ s.pid.l with integral := 0 }, { s.pid.r with integral := 0 }⟩ } := by
  rw [motionTick_toward_turn (s := recordIntent d v s) hgate hd other.symm, recordIntent_tdir,
    switchToTurn_eq hd, driveActuators_of_turn hd]
  rcases hd with rfl | rfl | rfl <;> rfl

/-- The turn's pattern does not look at the trackers (R116). -/
theorem turnAct_act_with_turn (d : Direction) (turn : Turn) (s : State) :
    (turnAct d { s with turn := turn }).act = (turnAct d s).act := by
  cases d <;> rfl

/-- Settles O15: both paths are the turn's pattern with the same registers; the tick path also records the tick's time. -/
theorem eagerAndTickPathsConverge : Obligations.EagerAndTickPathsConverge := by
  intro s d command v now hrun harmed hcommand due other
  obtain ⟨rfl, hd⟩ : command = commandInstr d ∧ (d = .left ∨ d = .right ∨ d = .uturn) := by
    rcases hcommand with ⟨rfl, rfl⟩ | ⟨rfl, rfl⟩ | ⟨rfl, rfl⟩ <;> exact ⟨rfl, by simp⟩
  have hrunB : running (recordIntent d v s) := hrun
  have hrunC : running (motionTick now (recordIntent d v s)) := by
    obtain ⟨_, _, h⟩ := motionTick_frame now (recordIntent d v s)
    rw [h]
    exact hrunB
  refine ⟨_, _, _, _, exec_commandInstr_of_armed hrun harmed d, exec_setIntent_of_running hrun d v,
    exec_mtick_of_running hrunB now, exec_drive_of_running hrunC, ?_⟩
  rw [tickPath_eq_turnAct v (gateOpen_iff.2 due) hd other, commandFor_of_turn hd,
    turnSwitch_eq_turnAct hd]
  exact ⟨(turnAct_act_with_turn d (restartTracker d s.turn) s).symm, rfl, rfl⟩

/-! ### NOTIFY (R170) -/

/-- The notification is due when the connected flag is set and not yet announced. -/
theorem announce_eq_ite (s : State) :
    announce s =
      if s.cmd.connected = true ∧ s.cmd.announced = false then
        { s with cmd := { s.cmd with announced := true }, out := { s.out with note := s.out.note ++ [.connected] } }
      else s :=
  if_congr (by simp) rfl rfl

theorem exec_notify_eq (s : State) :
    exec .notify s =
      if s.sys.halted = false ∧ s.cmd.connected = true ∧ s.cmd.announced = false then
        .next { s with
          cmd := { s.cmd with announced := true }
          out := { s.out with note := s.out.note ++ [.connected] } }
      else .next s := by
  rw [show exec .notify s = runs announce s from rfl, runs_eq_ite, announce_eq_ite,
    apply_ite Host.Outcome.next, ← ite_and]

/-- `t` has both sticky flags of `s` and no notification that `s` has not (R33, R27). -/
structure ConnectionKept (s t : State) : Prop where
  announced : s.cmd.announced = true → t.cmd.announced = true
  connected : s.cmd.connected = true → t.cmd.connected = true
  note : t.out.note = s.out.note

theorem ConnectionKept.of_eq {s t : State} (hcmd : t.cmd = s.cmd) (hnote : t.out.note = s.out.note) :
    ConnectionKept s t :=
  ⟨fun h => hcmd ▸ h, fun h => hcmd ▸ h, hnote⟩

theorem connectionKept_of_assemblyOnly {s t : State} (h : AssemblyOnly s t) : ConnectionKept s t := by
  obtain ⟨_, _, rfl, -⟩ := h
  exact .of_eq rfl rfl

theorem connectionKept_of_frameOnly {s t : State} (h : FrameOnly s t) : ConnectionKept s t := by
  obtain ⟨_, _, rfl, -⟩ := h
  exact .of_eq rfl rfl

theorem connectionKept_of_sent {i : Instr} (hi : i = .bStart ∨ i = .bStop ∨ i = .txBStart ∨ i = .txBStop)
    {s t : State} (h : exec i s = .next t) : ConnectionKept s t := by
  obtain ⟨_, rfl⟩ := exec_sent_frame hi h
  exact .of_eq rfl rfl

/-- A command's handler sets the connected flag or drops its byte, and does not touch the announced flag (R161). -/
theorem connectionKept_of_command {body : State → State} {s t : State} (h : runs (acceptCommand body) s = .next t)
    (hbody : ∀ s, (body s).cmd = s.cmd ∧ (body s).out = s.out) : ConnectionKept s t := by
  rcases runs_cases h with ⟨-, rfl⟩ | ⟨-, rfl⟩
  · exact .of_eq rfl rfl
  · cases harmed : s.cmd.armed with
    | false => rw [acceptCommand_of_unarmed body harmed]; exact .of_eq rfl rfl
    | true =>
      obtain ⟨hcmd, hout⟩ := hbody { s with cmd := { s.cmd with armed := false, connected := true } }
      rw [acceptCommand_of_armed body harmed]
      exact ⟨by simp [rearm, hcmd], by simp [rearm, hcmd], by simp [hout]⟩

theorem commandBody_cmd_out (b : Byte) (s : State) :
    (commandBody b s).cmd = s.cmd ∧ (commandBody b s).out = s.out := by
  obtain ⟨_, _, _, _, h⟩ := commandBody_frame b s
  rw [h]
  exact ⟨rfl, rfl⟩

theorem commandFor_cmd_out (d : Direction) (s : State) :
    (commandFor d s).cmd = s.cmd ∧ (commandFor d s).out = s.out := by
  cases d <;> exact ⟨rfl, rfl⟩

/-- Every instruction but RESET and NOTIFY keeps the connection's flags and announces nothing. -/
theorem exec_connectionKept {i : Instr} {s t : State} (hreset : i ≠ .reset) (hnotify : i ≠ .notify)
    (h : exec i s = .next t) : ConnectionKept s t := by
  cases i with
  | reset => exact absurd rfl hreset
  | notify => exact absurd rfl hnotify
  | mtick now => obtain ⟨_, _, rfl⟩ := exec_mtick_frame h; exact .of_eq rfl rfl
  | est encL encR => obtain ⟨_, _, rfl⟩ := exec_est_frame h; exact .of_eq rfl rfl
  | drive => obtain ⟨_, _, rfl⟩ := exec_drive_frame h; exact .of_eq rfl rfl
  | gyro gz => obtain ⟨_, _, _, _, _, rfl⟩ := exec_gyro_frame h; exact .of_eq rfl rfl
  | apoll now => obtain ⟨_, _, _, rfl, -⟩ := exec_apoll_frame h; exact .of_eq rfl rfl
  | cmdRx b => exact connectionKept_of_command h (commandBody_cmd_out b)
  | aFill b => obtain ⟨_, _, _, rfl⟩ := exec_aFill_frame h; exact .of_eq rfl rfl
  | setIntent d v => obtain ⟨_, rfl⟩ := exec_setIntent_frame h; exact .of_eq rfl rfl
  | estop => obtain ⟨_, _, _, _, rfl⟩ := exec_estop_frame h; exact .of_eq rfl rfl
  | arm ch => obtain ⟨_, _, rfl⟩ := exec_arm_frame h; exact ⟨id, id, rfl⟩
  | imuStatus ok => obtain ⟨_, _, rfl⟩ := exec_imuStatus_frame h; exact .of_eq rfl rfl
  | fatal => obtain ⟨_, _, rfl⟩ := exec_fatal_frame h; exact .of_eq rfl rfl
  | cmdStop => exact connectionKept_of_command h (commandFor_cmd_out .stop)
  | cmdForward => exact connectionKept_of_command h (commandFor_cmd_out .forward)
  | cmdBackward => exact connectionKept_of_command h (commandFor_cmd_out .backward)
  | cmdLeft => exact connectionKept_of_command h (commandFor_cmd_out .left)
  | cmdRight => exact connectionKept_of_command h (commandFor_cmd_out .right)
  | cmdUturn => exact connectionKept_of_command h (commandFor_cmd_out .uturn)
  | cmdIgnored b => exact connectionKept_of_command (body := id) h fun _ => ⟨rfl, rfl⟩
  | aSync now => exact connectionKept_of_assemblyOnly (exec_aSync_frame h)
  | aPacket now p => exact connectionKept_of_assemblyOnly (exec_aPacket_frame h)
  | bRx b => exact connectionKept_of_frameOnly (exec_bRx_frame h)
  | bHdr1 n => exact connectionKept_of_frameOnly (exec_bHdr1_frame h)
  | bHdr2 n => exact connectionKept_of_frameOnly (exec_bHdr2_frame h)
  | bFrame lo hi body => exact connectionKept_of_frameOnly (exec_bFrame_frame h)
  | bStart | bStop | txBStart | txBStop => exact connectionKept_of_sent (by simp) h

/-- NOTIFY clears neither flag (R170). -/
theorem exec_notify_flags {s t : State} (h : exec .notify s = .next t) :
    (s.cmd.announced = true → t.cmd.announced = true) ∧ (s.cmd.connected = true → t.cmd.connected = true) := by
  rw [exec_notify_eq] at h
  split at h <;> cases h
  · exact ⟨fun _ => rfl, id⟩
  · exact ⟨id, id⟩

/-- Once announced, NOTIFY does nothing (R170). -/
theorem exec_notify_of_announced {s : State} (h : s.cmd.announced = true) : exec .notify s = .next s := by
  rw [exec_notify_eq, if_neg]
  simp [h]

/-- Once announced, every instruction but RESET keeps the announced flag and announces nothing. -/
theorem exec_of_announced {i : Instr} {s t : State} (hreset : i ≠ .reset) (h : exec i s = .next t)
    (announced : s.cmd.announced = true) : t.cmd.announced = true ∧ t.out.note = s.out.note := by
  by_cases hi : i = .notify
  · subst hi
    rw [exec_notify_of_announced announced] at h
    cases h
    exact ⟨announced, rfl⟩
  · have kept := exec_connectionKept hreset hi h
    exact ⟨kept.announced announced, kept.note⟩

/-- Once announced, a step keeps the announced flag and announces nothing, unless the oldest word is a RESET. -/
theorem step_of_announced {s t : State} (h : step s = .next t) (announced : s.cmd.announced = true) :
    (t.cmd.announced = true ∧ t.out.note = s.out.note) ∨
      ∃ w rest, s.inbox = w :: rest ∧ decode s.cfg w = .ok .reset := by
  rcases step_cases h with ⟨inbox, rfl⟩ | ⟨w, i, inbox, hdecode, origin, hexec⟩ | ⟨b, now, inbox, hstray⟩
  · exact .inl ⟨announced, rfl⟩
  · by_cases hi : i = .reset
    · subst hi
      rcases origin with hinbox | ⟨_, sync⟩ | ⟨_, received⟩
      · exact .inr ⟨w, inbox, hinbox, hdecode⟩
      · cases sync
      · cases received
    · exact .inl (exec_of_announced (s := { s with inbox := inbox }) hi hexec announced)
  · have kept := connectionKept_of_assemblyOnly (receiveStrayByte_frame hstray)
    exact .inl ⟨kept.announced announced, kept.note⟩

/-- Settles O26: NOTIFY's equation, and by cases on the instruction what the others keep. -/
theorem notifyAnnouncesOnce : Obligations.NotifyAnnouncesOnce := by
  refine ⟨exec_notify_eq, fun i s t hreset h => ?_, fun s t => step_of_announced, fun c e hop => ?_⟩
  · by_cases hi : i = .notify
    · subst hi
      obtain ⟨announced, connected⟩ := exec_notify_flags h
      exact ⟨announced, connected, fun _ => rfl⟩
    · obtain ⟨announced, connected, note⟩ := exec_connectionKept hreset hi h
      exact ⟨announced, connected, fun other => absurd note other⟩
  · simp [decode, decodeEvent, hop]

/-! ### ARM (R171) -/

/-- Settles O27: ARM is the re-arm of the channel its operand names. -/
theorem armSetsOneChannel : Obligations.ArmSetsOneChannel := by
  refine ⟨fun s => ⟨runs_eq_ite (rearm .command) s, runs_eq_ite (rearm .protocolB) s⟩, fun c e hop => ?_⟩
  have decoded : decode c (.ev e) = .ok (.arm (if e.ch = 0#1 then .command else .protocolB)) := by
    simp [decode, decodeEvent, hop]
  exact ⟨fun hch => by rw [decoded, hch]; rfl, fun hch => by rw [decoded, hch]; rfl⟩

end Sys2Proof.Machine

/-! PROOFS. Protocol A (spec/45_protocol_a.md): the fill's equation, the assembly of a whole packet, and the poll as its
two checks followed by the assembly of the unread bytes. -/

namespace Sys2Proof.Machine

/-! ### The operations past their `halted` test (R234) -/

theorem exec_apoll_of_ok {now : Nat} {s t : State} (hrun : running s) (h : pollRing now s = .ok t) :
    exec (.apoll now) s = .next t :=
  attempts_of_ok hrun h

theorem exec_aSync_of_ok {now : Nat} {s t : State} (hrun : running s) (h : assembleByte s.cfg.aSync now s = .ok t) :
    exec (.aSync now) s = .next t :=
  attempts_of_ok hrun h

theorem exec_aPacket_of_ok {now : Nat} {p : APacket} {s t : State} (hrun : running s)
    (h : assembleBytes now p.toBytes s = .ok t) : exec (.aPacket now p) s = .next t :=
  attempts_of_ok hrun h

/-! ### The fill (R180, R68) -/

/-- A cursor inside the ring moves on by one, and wraps to 0 from the last entry. -/
theorem cursor_next {wr size : Nat} (h : wr < size) : (wr + 1) % size = if wr + 1 = size then 0 else wr + 1 := by
  split
  · rename_i last
    rw [last, Nat.mod_self]
  · exact Nat.mod_eq_of_lt (by omega)

/-- The cursor is at 0 after a fill exactly when the fill wrapped it, and then the cycle flag is set. -/
theorem cycle_next {wr size : Nat} (h : wr < size) (cycle : Bool) :
    (cycle || decide ((wr + 1) % size = 0)) = if wr + 1 = size then true else cycle := by
  rw [cursor_next h]
  split <;> simp

/-- Settles O28: the fill's equation, with the cursor's and the flag's arithmetic. -/
theorem fillStoresThenAdvances : Obligations.FillStoresThenAdvances := by
  intro s b hrun hwr
  refine ⟨memInsert s.protoA.wr b s.protoA.buf, attempts_of_ok hrun ?_, ?_, fun i hi => ?_⟩
  · rw [← cursor_next hwr, ← cycle_next hwr]
    exact fillByte_eq_ok.2 ⟨hwr, rfl⟩
  · simpa using memFind_memInsert_self s.protoA.wr b s.protoA.buf
  · simpa using memFind_memInsert_of_ne hi b s.protoA.buf

/-! ### A byte at the assembly (R184) -/

/-- `s` when a sync byte has just started a packet; the byte is stored only with A_SYNC_STORED. -/
def packetOpened (now : Nat) (s : State) : State :=
  { s with
    protoA := { s.protoA with
      inpkt := true
      lastTime := now
      idx := if s.cfg.aSyncStored then 1 else 0
      pkt := if s.cfg.aSyncStored then s.protoA.pkt.set 0 s.cfg.aSync else s.protoA.pkt } }

/-- Outside a packet the sync byte starts one. -/
theorem assembleByte_sync {s : State} (hunting : s.protoA.inpkt = false) (now : Nat) :
    assembleByte s.cfg.aSync now s = .ok (packetOpened now s) := by
  unfold assembleByte huntSync packetOpened
  rw [hunting, if_neg Bool.false_ne_true, if_pos rfl]
  cases stored : s.cfg.aSyncStored
  · simp [stored]
  · simp [stored, writePacketByte]

/-- Outside a packet any other byte is discarded (R188). -/
theorem assembleByte_of_ne_sync {b : Byte} {s : State} (hunting : s.protoA.inpkt = false) (hb : b ≠ s.cfg.aSync)
    (now : Nat) : assembleByte b now s = .ok s := by
  unfold assembleByte huntSync
  rw [hunting, if_neg Bool.false_ne_true, if_neg hb]
  rfl

/-- Inside a packet a byte is a packet byte, whatever its value. -/
theorem assembleByte_of_inpkt {s : State} (hin : s.protoA.inpkt = true) (b : Byte) (now : Nat) :
    assembleByte b now s = takePacketByte b now s :=
  if_pos hin

/-- Outside a packet the bytes before the first sync byte leave the assembly as it was. -/
theorem assembleBytes_skip {noise : List Byte} {s : State} (hunting : s.protoA.inpkt = false)
    (other : ∀ b, b ∈ noise → b ≠ s.cfg.aSync) (now : Nat) (rest : List Byte) :
    assembleBytes now (noise ++ rest) s = assembleBytes now rest s := by
  induction noise with
  | nil => rfl
  | cons b noise ih =>
    rw [List.cons_append, assembleBytes, assembleByte_of_ne_sync hunting (other b (by simp)), ok_bind]
    exact ih fun c hc => other c (by simp [hc])

/-- Settles O32: the hunt for a sync byte, and the two outcomes of a packet byte. -/
theorem syncByteStartsAPacketOrIsData : Obligations.SyncByteStartsAPacketOrIsData := by
  intro s now hrun
  refine ⟨fun hunting => exec_aSync_of_ok hrun (assembleByte_sync hunting now), fun hin hi more => ?_,
    fun hin hexact hi last => ?_⟩
  · refine exec_aSync_of_ok hrun ?_
    rw [assembleByte_of_inpkt hin, takePacketByte_of_lt _ now hi, if_neg more]
  · refine ⟨packetOf (s.protoA.pkt.set s.protoA.idx s.cfg.aSync hi), packetOf_eq_iff.2 rfl, exec_aSync_of_ok hrun ?_⟩
    rw [assembleByte_of_inpkt hin, takePacketByte_of_lt _ now hi, if_pos last]
    exact congrArg Except.ok (decodePacket_eq_afterPacket _ hexact)

/-! ### A whole packet at the assembly (R184, R185, R87) -/

/-- The packet register file once it holds the bytes of `p`. -/
def packetBytes (p : APacket) : Vector Byte 5 := ⟨p.toBytes.toArray, rfl⟩

theorem packetBytes_toList (p : APacket) : (packetBytes p).toList = p.toBytes := rfl

/-- `s` when the last byte of packet `p` has just been stored, before it is decoded. -/
def packetTaken (now : Nat) (p : APacket) (s : State) : State :=
  { s with protoA := { s.protoA with pkt := packetBytes p, inpkt := false, idx := 0, lastTime := now } }

/-- Storing the byte at `i` extends the agreement with `v` from the bytes below `i` to that one. -/
theorem agree_set {v w : Vector Byte 5} {i : Nat} (hi : i < 5) (below : ∀ j (hj : j < 5), j < i → w[j] = v[j]) (j : Nat)
    (hj : j < 5) (hle : j < i + 1) : (w.set i v[i] hi)[j] = v[j] := by
  rw [Vector.getElem_set]
  split
  · subst j; rfl
  · exact below j hj (by omega)

/-- Inside a packet whose stored bytes are those of `p`, the bytes of `p` still missing complete it. -/
theorem assembleBytes_complete (now : Nat) (p : APacket) {s : State} (hlen : s.cfg.aPktLen = 5)
    (hin : s.protoA.inpkt = true) (hi : s.protoA.idx < 5)
    (below : ∀ j (hj : j < 5), j < s.protoA.idx → s.protoA.pkt[j] = (packetBytes p)[j]) :
    assembleBytes now (p.toBytes.drop s.protoA.idx) s = .ok (decodePacket p (packetTaken now p s)) := by
  have missing : p.toBytes.drop s.protoA.idx = (packetBytes p)[s.protoA.idx] :: p.toBytes.drop (s.protoA.idx + 1) :=
    List.drop_eq_getElem_cons (l := p.toBytes) hi
  have agree := agree_set hi below
  rw [missing, assembleBytes, assembleByte_of_inpkt hin, takePacketByte_of_lt _ now hi, ok_bind, hlen]
  split
  · rename_i last
    have whole : s.protoA.pkt.set s.protoA.idx (packetBytes p)[s.protoA.idx] hi = packetBytes p :=
      Vector.ext fun j hj => agree j hj (by omega)
    rw [whole, packetOf_eq_iff.1 (packetBytes_toList p).symm, last]
    rfl
  · exact assembleBytes_complete now p
      (s := { s with
        protoA := { s.protoA with
          pkt := s.protoA.pkt.set s.protoA.idx (packetBytes p)[s.protoA.idx] hi
          idx := s.protoA.idx + 1
          lastTime := now } }) hlen hin (by dsimp only; omega) agree
termination_by 5 - s.protoA.idx

/-- The next byte is the first of a packet: inside one of which nothing is stored, or outside one where the sync byte is
stored and is the packet's first byte. -/
def AtPacketStart (p : APacket) (s : State) : Prop :=
  s.protoA.inpkt = true ∧ s.protoA.idx = 0 ∨
    s.protoA.inpkt = false ∧ s.cfg.aSyncStored = true ∧ p.toBytes.head? = some s.cfg.aSync

/-- At the start of a packet five bytes are the packet. -/
theorem assembleBytes_packet (now : Nat) {p : APacket} {s : State} (hlen : s.cfg.aPktLen = 5) (h : AtPacketStart p s) :
    assembleBytes now p.toBytes s = .ok (decodePacket p (packetTaken now p s)) := by
  rcases h with ⟨hin, hidx⟩ | ⟨hunting, stored, hhead⟩
  · have none_stored := assembleBytes_complete now p hlen hin (by omega) (by omega)
    rwa [hidx] at none_stored
  · have cons : p.toBytes = s.cfg.aSync :: p.toBytes.drop 1 := (List.cons_head?_tail hhead).symm
    have opened : (packetOpened now s).protoA.idx = 1 := if_pos stored
    have sync_first : (packetBytes p)[0] = s.cfg.aSync := Option.some.inj hhead
    have sync_stored := assembleBytes_complete now p (s := packetOpened now s) hlen rfl (by omega) fun j hj h1 => by
      obtain rfl : j = 0 := by omega
      simp [packetOpened, stored, sync_first]
    rw [cons, assembleBytes, assembleByte_sync hunting, ok_bind, ← opened]
    exact sync_stored

/-- Without rounding the packet is decoded by the rule (R185). -/
theorem assembleBytes_packet_exact (now : Nat) {p : APacket} {s : State} (hlen : s.cfg.aPktLen = 5)
    (hexact : s.cfg.rnd = .exact) (h : AtPacketStart p s) :
    assembleBytes now p.toBytes s = .ok (afterPacket (packetTaken now p s) p) := by
  rw [assembleBytes_packet now hlen h]
  exact congrArg Except.ok (decodePacket_eq_afterPacket p hexact)

/-- Settles O33: the assembly against its rule, and the whole packet at the start of one. -/
theorem packetIsValidatedAndEmitted : Obligations.PacketIsValidatedAndEmitted := by
  intro s now p angle distance hrun hexact hlen
  refine ⟨fun hi => ?_, fun start hangle hdistance => ⟨packetBytes p, packetBytes_toList p, ?_⟩⟩
  · obtain ⟨t, ht⟩ := assembleBytes_ok now hlen hi
    exact ⟨t, exec_aPacket_of_ok hrun ht, (assembleBytes_eq_ok hexact).1 ht⟩
  · subst hangle hdistance
    rw [exec_aPacket_of_ok hrun (assembleBytes_packet_exact now hlen hexact start)]
    exact apply_ite Host.Outcome.next _ _ _

/-! ### The checks of a poll (R181, R183, R186) -/

/-- A fill cycle has ended with a sync byte at entry 0. -/
def overran (s : State) : Bool :=
  decide (s.protoA.cycle = true ∧ memFind s.protoA.buf 0 = some s.cfg.aSync)

/-- A packet is open and its last byte is older than the threshold. -/
def packetStalled (now : Nat) (s : State) : Bool := s.protoA.inpkt && stalled s.cfg now s.protoA.lastTime

/-- `s` after the overrun check. -/
def afterOverrunCheck (s : State) : State :=
  { s with
    protoA := { s.protoA with wr := if overran s then 0 else s.protoA.wr, cycle := false }
    out := { s.out with status := if overran s then s.out.status ++ [.aOverrun] else s.out.status } }

/-- `s` with its open packet, if any, abandoned. -/
def abandonPacket (s : State) : State := { s with protoA := { s.protoA with inpkt := false, idx := 0 } }

theorem stalled_iff (c : Config) (now last : Nat) :
    stalled c now last = true ↔ (c.lidarTimeout : Int) < ((now : Int) - (last : Int)) % (2 ^ c.timeBits : Int) := by
  rw [stalled, decide_eq_true_iff, ← elapsed_cast, Int.ofNat_lt]

theorem packetStalled_iff {now : Nat} {s : State} :
    packetStalled now s = true ↔ s.protoA.inpkt = true ∧
      (s.cfg.lidarTimeout : Int) < ((now : Int) - (s.protoA.lastTime : Int)) % (2 ^ s.cfg.timeBits : Int) := by
  rw [packetStalled, Bool.and_eq_true, stalled_iff]

theorem overrunCheck_of_no_cycle {s : State} (h : s.protoA.cycle = false) : overrunCheck s = .ok s := by
  simp [overrunCheck, h]

/-- Where a completed fill cycle has written entry 0, the overrun check succeeds. -/
theorem overrunCheck_eq {s : State}
    (entry0 : s.protoA.cycle = true → 0 < s.cfg.aBufSize ∧ (memFind s.protoA.buf 0).isSome) :
    overrunCheck s = .ok (afterOverrunCheck s) := by
  cases hc : s.protoA.cycle with
  | false =>
    have no_overrun : overran s = false := by simp [overran, hc]
    simp only [overrunCheck_of_no_cycle hc, afterOverrunCheck, no_overrun, Bool.false_eq_true, if_false]
    rw [← hc]
  | true =>
    obtain ⟨h0, written⟩ := entry0 hc
    obtain ⟨b, hb⟩ := Option.isSome_iff_exists.1 written
    rw [overrunCheck_of_cycle hc h0 hb]
    by_cases sync : b = s.cfg.aSync <;> simp [afterOverrunCheck, overran, hc, hb, sync]

/-- The stall check as an update of the assembly's two registers. -/
theorem stallCheck_eq_update (now : Nat) (s : State) :
    stallCheck now s =
      { s with
        protoA := { s.protoA with
          inpkt := s.protoA.inpkt && !packetStalled now s
          idx := if packetStalled now s then 0 else s.protoA.idx } } := by
  rw [stallCheck_eq]
  change (if packetStalled now s then _ else _) = _
  cases packetStalled now s <;> simp

/-! ### The poll (R181, R182) -/

/-- `s` when a poll hands the unread bytes to the assembly: both checks made, and the read cursor, which the assembly
does not look at, already where the poll leaves it. -/
def pollStart (now : Nat) (s : State) : State :=
  { s with
    protoA := { s.protoA with
      wr := if overran s then 0 else s.protoA.wr
      rd := if overran s then 0 else s.protoA.wr
      cycle := false
      inpkt := s.protoA.inpkt && !packetStalled now s
      idx := if packetStalled now s then 0 else s.protoA.idx }
    out := { s.out with status := if overran s then s.out.status ++ [.aOverrun] else s.out.status } }

/-- A poll is its two checks and the assembly of the unread bytes, in order. -/
theorem pollRing_eq_assembleBytes (now : Nat) {s : State} {unread : List Byte}
    (entry0 : s.protoA.cycle = true → (memFind s.protoA.buf 0).isSome)
    (hwr : s.protoA.wr < s.cfg.aBufSize) (hrd : s.protoA.rd < s.cfg.aBufSize)
    (length : unread.length = subMod (afterOverrunCheck s).protoA.wr s.protoA.rd s.cfg.aBufSize)
    (bytes : ∀ k b, unread[k]? = some b → memFind s.protoA.buf ((s.protoA.rd + k) % s.cfg.aBufSize) = some b) :
    pollRing now s = assembleBytes now unread (pollStart now s) := by
  have target : (afterOverrunCheck s).protoA.wr < s.cfg.aBufSize := by
    dsimp only [afterOverrunCheck]
    split <;> omega
  obtain ⟨arrives, -⟩ := subMod_ring target hrd
  unfold pollRing
  rw [overrunCheck_eq fun hc => ⟨Nat.zero_lt_of_lt hwr, entry0 hc⟩, ok_bind, stallCheck_eq_update]
  have walk := walkRing_eq_assembleBytes now (bs := unread)
    (s := { afterOverrunCheck s with
      protoA := { (afterOverrunCheck s).protoA with
        inpkt := s.protoA.inpkt && !packetStalled now s
        idx := if packetStalled now s then 0 else s.protoA.idx } }) hrd bytes
  rw [length] at walk
  refine walk.trans (congrArg (assembleBytes now unread) ?_)
  dsimp only [readFrom]
  exact congrArg (fun r => { pollStart now s with protoA := { (pollStart now s).protoA with rd := r } }) arrives

/-- The `n` entries of the ring from the read cursor on, across the wrap. -/
def ringBytes (s : State) (n : Nat) : List Byte :=
  (List.range n).map fun k => (memFind s.protoA.buf ((s.protoA.rd + k) % s.cfg.aBufSize)).getD 0#8

theorem ringBytes_getElem? {s : State} {n : Nat}
    (written : ∀ k, k < n → (memFind s.protoA.buf ((s.protoA.rd + k) % s.cfg.aBufSize)).isSome) (k : Nat) (b : Byte)
    (h : (ringBytes s n)[k]? = some b) :
    memFind s.protoA.buf ((s.protoA.rd + k) % s.cfg.aBufSize) = some b := by
  obtain ⟨hk, rfl⟩ := List.getElem?_eq_some_iff.1 h
  have hkn : k < n := by simpa [ringBytes] using hk
  obtain ⟨v, hv⟩ := Option.isSome_iff_exists.1 (written k hkn)
  simp [ringBytes, hv]

/-- In a sound ring a completed fill cycle has written entry 0 (U4). -/
theorem ringInv_entry0 {s : State} (hs : ringInv s) (hc : s.protoA.cycle = true) : (memFind s.protoA.buf 0).isSome := by
  obtain ⟨hwr, -, -, -, -, all | ⟨no_cycle, -⟩⟩ := hs
  · exact all 0 (Nat.zero_lt_of_lt hwr)
  · simp [hc] at no_cycle

/-- The ring after the overrun check of a sound ring is sound. -/
theorem ringInv_afterOverrunCheck {s : State} (hs : ringInv s) : ringInv (afterOverrunCheck s) :=
  ringInv_overrunCheck hs (overrunCheck_eq fun hc => ⟨Nat.zero_lt_of_lt hs.1, ringInv_entry0 hs hc⟩)

/-- From a sound ring a poll hands the entries from the read cursor up to the write cursor to the assembly. -/
theorem pollRing_of_ringInv (now : Nat) {s : State} (hs : ringInv s) :
    ∃ unread : List Byte, unread.length = subMod (afterOverrunCheck s).protoA.wr s.protoA.rd s.cfg.aBufSize ∧
      (∀ k b, unread[k]? = some b → memFind s.protoA.buf ((s.protoA.rd + k) % s.cfg.aBufSize) = some b) ∧
      pollRing now s = assembleBytes now unread (pollStart now s) := by
  have ⟨hwr, hrd, _⟩ := hs
  have length : (ringBytes s (subMod (afterOverrunCheck s).protoA.wr s.protoA.rd s.cfg.aBufSize)).length =
      subMod (afterOverrunCheck s).protoA.wr s.protoA.rd s.cfg.aBufSize := by simp [ringBytes]
  have bytes := ringBytes_getElem? fun k hk => ringInv_unread (ringInv_afterOverrunCheck hs) (k := k) hk
  exact ⟨_, length, bytes, pollRing_eq_assembleBytes now (ringInv_entry0 hs) hwr hrd length bytes⟩

/-- Settles O29: the poll of a sound ring as the assembly of its unread bytes, which completes and stays within the
assembly's registers and the readings. -/
theorem pollCatchesUpWithTheFiller : Obligations.PollCatchesUpWithTheFiller := by
  intro s now wr overrun stall hrun hc hs hover hstall hwr
  obtain rfl : overrun = overran s := by simpa [overran] using hover
  obtain rfl : stall = packetStalled now s := by
    rw [hstall, Bool.eq_iff_iff, decide_eq_true_iff, packetStalled_iff]
  subst hwr
  obtain ⟨len, -⟩ := config_wf_ring hc
  have ⟨inside, _, hidx, _⟩ := hs
  obtain ⟨unread, length, bytes, poll⟩ := pollRing_of_ringInv now hs
  have idx_lt : (pollStart now s).protoA.idx < 5 := by
    dsimp only [pollStart]
    split <;> omega
  obtain ⟨t, ht⟩ := assembleBytes_ok now (bs := unread) (s := pollStart now s) len fun _ => idx_lt
  have rule := fun hexact => (assembleBytes_eq_ok (s := pollStart now s) hexact).1 ht
  obtain ⟨pa, readings, rfl, hbuf, hwr, hrd, hcycle⟩ := assembleBytes_frame ht
  refine ⟨_, unread, exec_apoll_of_ok hrun (poll.trans ht), hrd.trans hwr.symm, hcycle, hbuf, hwr, rfl, rfl, ?_, ?_,
    rule⟩
  · rw [length]
    exact subMod_cast _ _ (Nat.zero_lt_of_lt inside)
  · simpa using bytes

/-! ### A reading in the ring (R182 to R188) -/

/-- Outside a packet, with A_SYNC_STORED off, a sync byte and five bytes behind other bytes are the packet those five
spell. -/
theorem assembleBytes_reading (now : Nat) {noise : List Byte} (p : APacket) {s : State} (hlen : s.cfg.aPktLen = 5)
    (hexact : s.cfg.rnd = .exact) (unstored : s.cfg.aSyncStored = false) (hunting : s.protoA.inpkt = false)
    (other : ∀ b, b ∈ noise → b ≠ s.cfg.aSync) :
    assembleBytes now (noise ++ s.cfg.aSync :: p.toBytes) s = .ok (afterPacket (packetTaken now p s) p) := by
  rw [assembleBytes_skip hunting other, assembleBytes, assembleByte_sync hunting, ok_bind]
  have empty : (packetOpened now s).protoA.idx = 0 := by simp [packetOpened, unstored]
  exact assembleBytes_packet_exact now (s := packetOpened now s) hlen hexact (.inl ⟨rfl, empty⟩)

/-- Where entry 0 holds another byte than the sync byte no fill has overrun the ring (R186). -/
theorem overran_eq_false {s : State}
    (entry0 : s.protoA.cycle = true → ∃ b, memFind s.protoA.buf 0 = some b ∧ b ≠ s.cfg.aSync) : overran s = false := by
  rw [overran, decide_eq_false_iff_not]
  rintro ⟨hc, sync⟩
  obtain ⟨b, hb, hne⟩ := entry0 hc
  exact hne (Option.some.inj (hb.symm.trans sync))

/-- A poll of a machine that is outside a packet, or whose packet has stalled, starts outside a packet (R183). -/
theorem pollStart_hunting {now : Nat} {s : State}
    (h : s.protoA.inpkt = false ∨ stalled s.cfg now s.protoA.lastTime = true) :
    (pollStart now s).protoA.inpkt = false := by
  rcases h with h | h <;> simp [pollStart, packetStalled, h]

/-- A walk shorter than the ring has the length by which its end is ahead of its start. -/
theorem subMod_add_mod {r n N : Nat} (hr : r < N) (hn : n < N) : subMod ((r + n) % N) r N = n := by
  obtain ⟨arrives, short, -⟩ := subMod_ring (Nat.mod_lt (r + n) (by omega)) hr
  exact Nat.ModEq.eq_of_lt_of_lt (Nat.ModEq.add_left_cancel' r arrives) short hn

/-- Settles O30: with no overrun and no live packet the poll hands the noise and the reading to a hunting assembly. -/
theorem packetInTheRingIsEmitted : Obligations.PacketInTheRingIsEmitted := by
  intro s now noise p angle distance hrun hexact hlen unstored room hrd hwr entry0 idle other bytes hangle hdistance
    check quality near far moved
  subst hangle hdistance
  simp only [unlistedByte_aBuf, memGet_none] at entry0 bytes
  have no_overrun := overran_eq_false entry0
  have hunting := pollStart_hunting (idle.imp_right (stalled_iff _ _ _).2)
  have written : s.protoA.cycle = true → (memFind s.protoA.buf 0).isSome := by
    intro hc
    obtain ⟨b, hb, -⟩ := entry0 hc
    exact Option.isSome_of_eq_some hb
  have length : (noise ++ s.cfg.aSync :: p.toBytes).length =
      subMod (afterOverrunCheck s).protoA.wr s.protoA.rd s.cfg.aBufSize := by
    have target : (afterOverrunCheck s).protoA.wr = (s.protoA.rd + (noise.length + 6)) % s.cfg.aBufSize := by
      simp only [afterOverrunCheck, no_overrun]
      exact hwr
    rw [target, subMod_add_mod hrd (by omega)]
    simp [APacket.toBytes]
  have poll := pollRing_eq_assembleBytes now written (hwr ▸ Nat.mod_lt _ (by omega)) hrd length bytes
  refine ⟨packetBytes p, packetBytes_toList p, exec_apoll_of_ok hrun ?_⟩
  have reading := assembleBytes_reading now p (s := pollStart now s) hlen hexact unstored hunting other
  rw [afterPacket, if_pos ⟨check, quality, near, far, moved⟩] at reading
  refine (poll.trans reading).trans ?_
  simp [packetTaken, pollStart, no_overrun]

/-! ### A stalled packet (R183, R254) -/

/-- The overrun check does not look at the assembly. -/
theorem overrunCheck_abandonPacket (s : State) :
    overrunCheck (abandonPacket s) = (overrunCheck s).map abandonPacket := by
  unfold overrunCheck
  change (if s.protoA.cycle then _ else _) = _
  split
  · change (readRing { s with protoA := { s.protoA with cycle := false } } 0 >>= _) = _
    dsimp only
    cases readRing { s with protoA := { s.protoA with cycle := false } } 0 with
    | error f => rfl
    | ok b =>
      change (if b = s.cfg.aSync then _ else _) = Except.map abandonPacket (if b = s.cfg.aSync then _ else _)
      split <;> rfl
  · rfl

/-- The overrun check leaves the clock and the assembly's registers alone. -/
theorem packetStalled_overrunCheck {now : Nat} {s t : State} (h : overrunCheck s = .ok t) :
    packetStalled now t = packetStalled now s := by
  rcases overrunCheck_cases h with ⟨-, rfl⟩ | ⟨-, b, -, -, rfl⟩
  · rfl
  · split <;> rfl

theorem stallCheck_of_stalled {now : Nat} {s : State} (h : packetStalled now s = true) :
    stallCheck now s = abandonPacket s :=
  if_pos h

theorem stallCheck_of_not_stalled {now : Nat} {s : State} (h : packetStalled now s = false) : stallCheck now s = s :=
  if_neg (by simpa [packetStalled] using h)

/-- The poll that finds a stalled packet is the poll of a machine that has abandoned it. -/
theorem pollRing_of_stalled {now : Nat} {s : State} (h : packetStalled now s = true) :
    pollRing now s = pollRing now (abandonPacket s) := by
  unfold pollRing
  rw [overrunCheck_abandonPacket]
  cases hu : overrunCheck s with
  | error f => rfl
  | ok u =>
    have stale : stallCheck now u = abandonPacket u :=
      stallCheck_of_stalled ((packetStalled_overrunCheck hu).trans h)
    have fresh : stallCheck now (abandonPacket u) = abandonPacket u := stallCheck_of_not_stalled rfl
    change walkRing now _ _ = walkRing now _ _
    rw [stale, fresh]

/-- With no fill cycle to examine and nothing unread a poll is its stall check. -/
theorem pollRing_idle {now : Nat} {s : State} (no_cycle : s.protoA.cycle = false) (empty : s.protoA.rd = s.protoA.wr) :
    pollRing now s = .ok (stallCheck now s) := by
  have cursors : (stallCheck now s).protoA.wr = (stallCheck now s).protoA.rd := by
    rw [stallCheck_eq_update]
    exact empty.symm
  unfold pollRing
  rw [overrunCheck_of_no_cycle no_cycle, ok_bind]
  dsimp only
  rw [cursors]
  simp [subMod, walkRing]

theorem attempts_congr {op : State → Except Fault State} {s t : State} (hs : running s) (ht : running t)
    (h : op s = op t) : attempts op s = attempts op t := by
  simp [attempts, hs, ht, h]

/-- Settles O31: the stall check comes before the walk, and with nothing to walk over it is the whole poll. -/
theorem stallAbandonsThePacket : Obligations.StallAbandonsThePacket := by
  intro s now hrun
  refine ⟨fun hin old => ?_, fun no_cycle empty => ?_⟩
  · exact attempts_congr (t := abandonPacket s) hrun hrun (pollRing_of_stalled (packetStalled_iff.2 ⟨hin, old⟩))
  · rw [exec_apoll_of_ok hrun (pollRing_idle no_cycle empty), ← apply_ite Host.Outcome.next]
    exact congrArg Host.Outcome.next (if_congr packetStalled_iff rfl rfl)

end Sys2Proof.Machine

/-! PROOFS. Protocol B (spec/46_protocol_b.md): one equation per phase of the frame machine at an armed channel, the
extraction of an accepted frame, and a whole frame as its bytes; the angle of a sample; the commands the block sends and
the read of the published scan. -/

namespace Sys2Proof.Machine

/-! ### B_RX at an armed channel (R201) -/

theorem exec_bRx_of_ok {b : Byte} {s t : State} (hrun : running s) (h : receiveFrameByte b s = .ok t) :
    exec (.bRx b) s = .next t :=
  attempts_of_ok hrun h

/-- `s` with Protocol B's channel disarmed, as the frame machine meets it (R201). -/
def disarmed (s : State) : State := { s with protoB := { s.protoB with armed := false } }

theorem rearm_disarmed {s : State} (h : s.protoB.armed = true) : rearm .protocolB (disarmed s) = s := by
  rw [rearm, disarmed, ← h]

/-- At an armed channel a byte does what the frame machine does between the disarm and the re-arm (R172). -/
theorem receiveFrameByte_of_frameStep {b : Byte} {s t : State} (hs : s.protoB.armed = true)
    (ht : t.protoB.armed = true) (h : frameStep b (disarmed s) = .ok (disarmed t)) : receiveFrameByte b s = .ok t := by
  rw [receiveFrameByte_eq_ok, if_pos hs]
  exact ⟨disarmed t, h, (rearm_disarmed ht).symm⟩

/-! ### The header states (R202) -/

theorem frameStep_of_waitHeader1 {s : State} (h : s.protoB.phase = .waitHeader1) (b : Byte) :
    frameStep b s = .ok
      (if highNibble b = s.cfg.hdr1 then { s with protoB := { s.protoB with h1 := b, phase := .waitHeader2 } }
      else s) := by
  rw [frameStep, h]
  exact (apply_ite Except.ok _ _ _).symm

theorem frameStep_of_waitHeader2 {s : State} (h : s.protoB.phase = .waitHeader2) (b : Byte) :
    frameStep b s = .ok
      (if highNibble b = s.cfg.hdr2 then
        { s with protoB := { s.protoB with h2 := b, phase := .collect, cnt := 0, xor := 0#8 } }
      else { s with protoB := { s.protoB with phase := .waitHeader1 } }) := by
  rw [frameStep, h]
  exact (apply_ite Except.ok _ _ _).symm

/-- In WAIT_HEADER1 a byte of the first header is kept and the machine moves on; any other changes nothing. -/
theorem receiveFrameByte_of_waitHeader1 {s : State} (harmed : s.protoB.armed = true)
    (h : s.protoB.phase = .waitHeader1) (b : Byte) :
    receiveFrameByte b s = .ok
      (if highNibble b = s.cfg.hdr1 then { s with protoB := { s.protoB with h1 := b, phase := .waitHeader2 } }
      else s) := by
  have stepped := frameStep_of_waitHeader1 (s := disarmed s) h b
  split
  · exact receiveFrameByte_of_frameStep harmed harmed (stepped.trans (congrArg Except.ok (if_pos ‹_›)))
  · exact receiveFrameByte_of_frameStep harmed harmed (stepped.trans (congrArg Except.ok (if_neg ‹_›)))

/-- In WAIT_HEADER2 a byte of the second header is kept and collection starts; any other sends the machine back. -/
theorem receiveFrameByte_of_waitHeader2 {s : State} (harmed : s.protoB.armed = true)
    (h : s.protoB.phase = .waitHeader2) (b : Byte) :
    receiveFrameByte b s = .ok
      (if highNibble b = s.cfg.hdr2 then
        { s with protoB := { s.protoB with h2 := b, phase := .collect, cnt := 0, xor := 0#8 } }
      else { s with protoB := { s.protoB with phase := .waitHeader1 } }) := by
  have stepped := frameStep_of_waitHeader2 (s := disarmed s) h b
  split
  · exact receiveFrameByte_of_frameStep harmed harmed (stepped.trans (congrArg Except.ok (if_pos ‹_›)))
  · exact receiveFrameByte_of_frameStep harmed harmed (stepped.trans (congrArg Except.ok (if_neg ‹_›)))

/-- Settles O35: the two header states' equations. -/
theorem headerTestsMoveTheFrameMachine : Obligations.HeaderTestsMoveTheFrameMachine := by
  intro s b hrun harmed
  refine ⟨fun h => ?_, fun h => ?_⟩
  · rw [exec_bRx_of_ok hrun (receiveFrameByte_of_waitHeader1 harmed h b)]
    exact apply_ite Host.Outcome.next _ _ _
  · rw [exec_bRx_of_ok hrun (receiveFrameByte_of_waitHeader2 harmed h b)]
    exact apply_ite Host.Outcome.next _ _ _

/-- Settles O36: either unit is B_RX of its header byte, whose high nibble passes the header test. -/
theorem headerUnitsAreKept : Obligations.HeaderUnitsAreKept := by
  intro s n
  refine ⟨rfl, rfl, fun hrun harmed => ⟨fun h => ?_, fun h => ?_⟩⟩
  · refine ((headerTestsMoveTheFrameMachine s (s.cfg.hdr1 ++ n) hrun harmed).1 h).trans (if_pos ?_)
    exact extract_high s.cfg.hdr1 n
  · refine ((headerTestsMoveTheFrameMachine s (s.cfg.hdr2 ++ n) hrun harmed).2 h).trans (if_pos ?_)
    exact extract_high s.cfg.hdr2 n

/-! ### A collected byte (R202) -/

/-- The running checksum with byte `b` taken in: the first byte seeds it. -/
def checksumWith (b : Byte) (s : State) : Byte := if s.protoB.cnt = 0 then b else s.protoB.xor ^^^ b

/-- `s` when byte `b` has been stored at the count, taken into the checksum and counted. -/
def byteCollected (b : Byte) (s : State) : State :=
  { s with
    protoB := { s.protoB with
      buf := memSet (unlistedByte .bBuf) s.protoB.buf s.protoB.cnt b
      xor := checksumWith b s
      cnt := s.protoB.cnt + 1 } }

theorem collectByte_of_more {b : Byte} {s : State} (h : s.protoB.cnt + 1 < s.cfg.bCollectLen) :
    collectByte b s = .ok (byteCollected b s) :=
  collectByte_eq_ok.2 ⟨by omega, byteCollected b s, rfl, by rw [if_neg (by omega)]⟩

theorem collectByte_of_last {b : Byte} {s t : State} (h : s.protoB.cnt + 1 = s.cfg.bCollectLen)
    (complete : completeFrame (byteCollected b s) = .ok t) : collectByte b s = .ok t :=
  collectByte_eq_ok.2 ⟨by omega, byteCollected b s, rfl, by rwa [if_pos h]⟩

theorem frameStep_of_collect {s : State} (h : s.protoB.phase = .collect) (b : Byte) :
    frameStep b s = collectByte b s := by
  rw [frameStep, h]

/-- A byte before the frame's last is collected and nothing else happens. -/
theorem receiveFrameByte_of_more {b : Byte} {s : State} (harmed : s.protoB.armed = true)
    (hphase : s.protoB.phase = .collect) (more : s.protoB.cnt + 1 < s.cfg.bCollectLen) :
    receiveFrameByte b s = .ok (byteCollected b s) :=
  receiveFrameByte_of_frameStep harmed harmed
    ((frameStep_of_collect (s := disarmed s) hphase b).trans (collectByte_of_more more))

/-- What a collected byte leaves in `b_buf`: itself at the count, and every other byte as before. -/
theorem byteCollected_buf {b : Byte} {s : State}
    (hbuf : Memory.wf (unlistedByte .bBuf) s.cfg.bCollectLen s.protoB.buf = true) :
    memGet (unlistedByte .bBuf) (byteCollected b s).protoB.buf s.protoB.cnt = some b ∧
      ∀ i, i ≠ s.protoB.cnt →
        memGet (unlistedByte .bBuf) (byteCollected b s).protoB.buf i = memGet (unlistedByte .bBuf) s.protoB.buf i :=
  ⟨memGet_memSet_self hbuf _ _, fun _ hi => memGet_memSet_of_ne hi _ _⟩

/-- Settles O37: the byte is collected. -/
theorem collectedByteIsStoredAndXored : Obligations.CollectedByteIsStoredAndXored := by
  intro s b hrun harmed hphase more hbuf
  exact ⟨(byteCollected b s).protoB.buf, exec_bRx_of_ok hrun (receiveFrameByte_of_more harmed hphase more),
    byteCollected_buf hbuf⟩

/-! ### The checksum of a whole frame (R90, R203) -/

/-- The expected checksum, as the two low nibbles side by side. -/
theorem expectedChecksum_eq_append (h1 h2 : Byte) :
    expectedChecksum h1 h2 = h2.extractLsb' 0 4 ++ h1.extractLsb' 0 4 :=
  BitVec.eq_of_toNat_eq ((expectedChecksum_toNat h1 h2).trans (BitVec.toNat_append _ _).symm)

/-- A mismatch clears the frame state and does nothing else (R251). -/
theorem completeFrame_of_mismatch {s : State}
    (h : s.protoB.xor ≠ s.protoB.h2.extractLsb' 0 4 ++ s.protoB.h1.extractLsb' 0 4) :
    completeFrame s = .ok { s with protoB := { s.protoB with phase := .waitHeader1, cnt := 0, xor := 0#8 } } := by
  rw [← expectedChecksum_eq_append] at h
  exact completeFrame_eq_ok.2 ⟨_, if_neg h, rfl⟩

/-- Settles O38: the last byte is collected, then the mismatch clears the frame state. -/
theorem corruptedFrameIsDropped : Obligations.CorruptedFrameIsDropped := by
  intro s b hrun harmed hphase last hbuf mismatch
  refine ⟨(byteCollected b s).protoB.buf, exec_bRx_of_ok hrun ?_, byteCollected_buf hbuf⟩
  have dropped := completeFrame_of_mismatch (s := byteCollected b (disarmed s)) mismatch
  exact receiveFrameByte_of_frameStep harmed harmed
    ((frameStep_of_collect (s := disarmed s) hphase b).trans (collectByte_of_last last dropped))

/-! ### The angle of a sample (R204, R205) -/

theorem sampleAngle_exact {c : Config} (h : c.rnd = .exact) (old gap : Rat) (i : Nat) :
    sampleAngle c old gap i =
      BitVec.ofInt 16 ⌊mod360 (old + (i : Rat) * gap / (c.bSamplesPerFrame : Rat)) * 100⌋ := by
  simp only [sampleAngle, numAdd_exact h, numMul_exact h, numDiv_exact h]

theorem angleGap_exact {c : Config} (h : c.rnd = .exact) (old new : Rat) :
    angleGap c old new = if new > old then new - old else new + 360 - old := by
  simp only [angleGap, numAdd_exact h, numSub_exact h, gt_iff_lt]

/-- A hundred times an angle in `[0, 360)` has its floor in `0 .. 35999`. -/
theorem floor_mod360_mem (v : Rat) : 0 ≤ ⌊mod360 v * 100⌋ ∧ ⌊mod360 v * 100⌋ < 36000 := by
  obtain ⟨nonneg, below⟩ := mod360_mem v
  refine ⟨Int.floor_nonneg.2 (by linarith), Int.floor_lt.2 ?_⟩
  push_cast
  linarith

/-- Settles O41: the floor of a hundredfold angle is below 2^16, so its 16 bits are the whole number. -/
theorem sampleAngleFitsItsField : Obligations.SampleAngleFitsItsField := by
  intro c old gap i hexact
  rw [sampleAngle_exact hexact]
  generalize old + i * gap / c.bSamplesPerFrame = v
  obtain ⟨nonneg, below⟩ := floor_mod360_mem v
  have whole : ((BitVec.ofInt 16 ⌊mod360 v * 100⌋).toNat : Int) = ⌊mod360 v * 100⌋ := by
    rw [BitVec.toNat_ofInt]
    omega
  exact ⟨(mod360_mem v).1, (mod360_mem v).2, whole, by omega⟩

/-! ### The extraction of an accepted frame (R203 to R206) -/

theorem publishCheck_of_le {s : State} (h : s.protoB.samples ≤ s.cfg.bPublishThreshold) :
    publishCheck s = .ok s :=
  if_neg (not_lt.2 h)

/-- Past the threshold, with the entries to copy written, the whole scan is published (R206). -/
theorem publishCheck_of_lt {s : State} (h : s.cfg.bPublishThreshold < s.protoB.samples)
    (written : ∀ k, k < s.cfg.bPublishLen → k < s.cfg.bWorkCap ∧ (memFind s.protoB.work k).isSome) :
    ∃ scan,
      publishCheck s = .ok { s with
        protoB := { s.protoB with pub := scan, samples := 0 }
        out := { s.out with pub := s.out.pub ++ [.newScan] } } ∧
      ∀ k, k < s.cfg.bPublishLen → (memFind scan k).isSome ∧ memFind scan k = memFind s.protoB.work k := by
  obtain ⟨scan, hscan⟩ := scanEntries_ok (s := s) (n := s.cfg.bPublishLen) (k := 0)
    fun k _ hk => written k (by omega)
  refine ⟨scan, ?_, fun k hk => ?_⟩
  · rw [publishCheck, if_pos h, hscan, ok_bind]
    rfl
  · obtain ⟨-, v, copied, source⟩ := (scanEntries_spec hscan).1 k (Nat.zero_le k) (by omega)
    rw [copied, source]
    exact ⟨rfl, rfl⟩

/-- What R9 asks of the sizes Protocol B's buffers have. -/
theorem config_wf_sizes {c : Config} (h : c.wf = true) :
    c.bPayloadOffset + 2 + 2 * c.bSamplesPerFrame ≤ c.bCollectLen ∧
      c.bPublishThreshold + c.bSamplesPerFrame ≤ c.bWorkCap ∧ c.bPublishLen ≤ c.bPublishThreshold := by
  simp only [Config.wf, Bool.and_eq_true, decide_eq_true_eq] at h
  omega

/-- The bytes of `body` stand at the start of `b_buf`. -/
def BodyStored (body : List Byte) (s : State) : Prop :=
  ∀ k b, body[k]? = some b → memGet (unlistedByte .bBuf) s.protoB.buf k = some b

/-- The start angle the collected bytes `body` carry, without rounding (R91). -/
def bodyStart (body : List Byte) (c : Config) : Rat :=
  (((u16le (body.getD c.bPayloadOffset 0#8) (body.getD (c.bPayloadOffset + 1) 0#8)).toNat % 2 ^ c.bAngleBits : Nat) :
    Rat) / 64

/-- `s` when a frame with start angle `start` has left the working buffer at `m` (R204). -/
def frameSampled (m : Memory SamplePair) (start : Rat) (s : State) : State :=
  { s with
    protoB := { s.protoB with
      work := m
      prevStart := start
      samples := s.protoB.samples + s.cfg.bSamplesPerFrame } }

/-- Extraction up to the publication check: the samples of `body` are written behind the counter, and the start angle
and the counter move on (R204). -/
theorem extractFrame_eq_publishCheck {body : List Byte} {s : State} (hc : s.cfg.wf = true)
    (hexact : s.cfg.rnd = .exact) (hs : ScanSound s) (length : body.length = s.cfg.bCollectLen)
    (stored : BodyStored body s) :
    ∃ m,
      extractFrame s = publishCheck (frameSampled m (bodyStart body s.cfg) s) ∧
      (∀ i, i < s.cfg.bSamplesPerFrame → memFind m (s.protoB.samples + i) = some
        (sampleAngle s.cfg s.protoB.prevStart (angleGap s.cfg s.protoB.prevStart (bodyStart body s.cfg)) i,
          u16le (body.getD (s.cfg.bPayloadOffset + 2 + 2 * i) 0#8)
            (body.getD (s.cfg.bPayloadOffset + 3 + 2 * i) 0#8))) ∧
      ∀ j, (j < s.protoB.samples ∨ s.protoB.samples + s.cfg.bSamplesPerFrame ≤ j) →
        memFind m j = memFind s.protoB.work j := by
  obtain ⟨payload, room, -⟩ := config_wf_sizes hc
  have below := hs.below
  have byte : ∀ k, k < s.cfg.bCollectLen → memGet (some 0#8) s.protoB.buf k = some (body.getD k 0#8) := fun k hk => by
    refine stored k _ ?_
    rw [List.getD_eq_getElem _ _ (length ▸ hk)]
    exact List.getElem?_eq_getElem _
  have lo := readFrameByte_eq_ok.2 ⟨by omega, byte s.cfg.bPayloadOffset (by omega)⟩
  have hi := readFrameByte_eq_ok.2 ⟨by omega, byte (s.cfg.bPayloadOffset + 1) (by omega)⟩
  have start : startAngle s.cfg (u16le (body.getD s.cfg.bPayloadOffset 0#8)
      (body.getD (s.cfg.bPayloadOffset + 1) 0#8)) = bodyStart body s.cfg := numDiv_exact hexact _ _
  obtain ⟨m, samples, placed, others⟩ := writeSamples_ok s.protoB.prevStart
    (angleGap s.cfg s.protoB.prevStart (bodyStart body s.cfg)) (n := s.cfg.bSamplesPerFrame) (i := 0)
    (fun k => body.getD k 0#8) byte (by omega) (by omega)
  refine ⟨m, ?_, fun i hi => placed i (Nat.zero_le i) (by omega), fun j hj => others j (by omega)⟩
  rw [extractFrame, lo, ok_bind, hi, ok_bind]
  dsimp only
  rw [start, samples, ok_bind]
  rfl

/-- `t` is what an accepted frame with the collected bytes `body` leaves of `s`, the header bytes kept. -/
def FrameAccepted (s : State) (body : List Byte) (t : State) : Prop :=
  afterFrame s body t ∧ t.protoB.h1 = s.protoB.h1 ∧ t.protoB.h2 = s.protoB.h2

/-- An accepted frame with the collected bytes `body` is extracted and published as R203 to R206 say; the channel's
re-arm is the handler's. -/
theorem completeFrame_of_match {body : List Byte} {s : State} (hc : s.cfg.wf = true) (hexact : s.cfg.rnd = .exact)
    (hs : ScanSound s) (length : body.length = s.cfg.bCollectLen) (stored : BodyStored body s)
    (sum : s.protoB.xor = s.protoB.h2.extractLsb' 0 4 ++ s.protoB.h1.extractLsb' 0 4) :
    ∃ t, completeFrame s = .ok t ∧ FrameAccepted s body (rearm .protocolB t) := by
  obtain ⟨m, extracted, placed, others⟩ := extractFrame_eq_publishCheck hc hexact hs length stored
  simp only [sampleAngle_exact hexact, angleGap_exact hexact] at placed
  have accepted : checkFrame s = extractFrame s := if_pos (sum.trans (expectedChecksum_eq_append _ _).symm)
  rw [extracted] at accepted
  obtain below | past := le_or_gt (s.protoB.samples + s.cfg.bSamplesPerFrame) s.cfg.bPublishThreshold
  · rw [publishCheck_of_le (s := frameSampled m _ s) below] at accepted
    exact ⟨_, completeFrame_eq_ok.2 ⟨_, accepted, rfl⟩,
      ⟨stored, placed, others, rfl, rfl, rfl, rfl, rfl, fun _ => ⟨rfl, rfl, rfl⟩, fun past => absurd below past.not_ge⟩,
      rfl, rfl⟩
  · obtain ⟨-, room, publishLen⟩ := config_wf_sizes hc
    have written : ∀ k, k < s.cfg.bPublishLen → k < s.cfg.bWorkCap ∧ (memFind m k).isSome := fun k hk => by
      refine ⟨by omega, ?_⟩
      by_cases old : k < s.protoB.samples
      · rw [others k (.inl old)]
        exact hs.written k old
      · obtain ⟨i, rfl⟩ := Nat.exists_eq_add_of_le (not_lt.1 old)
        rw [placed i (by omega)]
        rfl
    obtain ⟨scan, published, copied⟩ := publishCheck_of_lt (s := frameSampled m (bodyStart body s.cfg) s) past written
    rw [published] at accepted
    exact ⟨_, completeFrame_eq_ok.2 ⟨_, accepted, rfl⟩,
      ⟨stored, placed, others, rfl, rfl, rfl, rfl, rfl, fun below => absurd below past.not_ge,
        fun _ => ⟨rfl, copied, rfl⟩⟩,
      rfl, rfl⟩

/-! ### The bytes of a frame (R202, R96) -/

/-- The frame machine has collected the first `b_cnt` bytes of `body`, the bytes of one frame, at an armed channel and
on a sound scan. -/
structure Collecting (body : List Byte) (s : State) : Prop where
  config : s.cfg.wf = true
  unrounded : s.cfg.rnd = .exact
  scan : ScanSound s
  armed : s.protoB.armed = true
  phase : s.protoB.phase = .collect
  length : body.length = s.cfg.bCollectLen
  stored : ∀ k c, k < s.protoB.cnt → body[k]? = some c → memGet (unlistedByte .bBuf) s.protoB.buf k = some c

namespace Collecting

variable {body : List Byte} {b : Byte} {s : State}

/-- The next byte of the frame joins the ones collected. -/
theorem stored_byteCollected (hs : Collecting body s) (hb : body[s.protoB.cnt]? = some b) (k : Nat) (c : Byte)
    (hk : k < s.protoB.cnt + 1) (hc : body[k]? = some c) :
    memGet (unlistedByte .bBuf) (byteCollected b s).protoB.buf k = some c := by
  obtain ⟨here, others⟩ := byteCollected_buf (b := b) hs.scan.buf
  obtain hk | rfl := Nat.lt_succ_iff_lt_or_eq.1 hk
  · exact (others k hk.ne).trans (hs.stored k c hk hc)
  · exact here.trans (hb.symm.trans hc)

theorem cnt_lt (hs : Collecting body s) (hb : body[s.protoB.cnt]? = some b) : s.protoB.cnt < s.cfg.bCollectLen := by
  rw [← hs.length]
  exact (List.getElem?_eq_some_iff.1 hb).1

theorem scan_byteCollected (hs : Collecting body s) (hb : body[s.protoB.cnt]? = some b) :
    ScanSound (byteCollected b s) :=
  have ⟨whole, below, buf, work, pub, written, published⟩ := hs.scan
  ⟨whole, below, memory_wf_memSet b buf (hs.cnt_lt hb), work, pub, written, published⟩

theorem next (hs : Collecting body s) (hb : body[s.protoB.cnt]? = some b) : Collecting body (byteCollected b s) :=
  ⟨hs.config, hs.unrounded, hs.scan_byteCollected hb, hs.armed, hs.phase, hs.length, hs.stored_byteCollected hb⟩

/-- The frame's last byte, where it leaves the expected checksum, completes the frame. -/
theorem receive_last (hs : Collecting body s) (hb : body[s.protoB.cnt]? = some b)
    (last : s.protoB.cnt + 1 = s.cfg.bCollectLen)
    (sum : checksumWith b s = s.protoB.h2.extractLsb' 0 4 ++ s.protoB.h1.extractLsb' 0 4) :
    ∃ t, receiveFrameByte b s = .ok t ∧ FrameAccepted s body t := by
  have stored : BodyStored body (byteCollected b s) := fun k c hc => by
    refine hs.stored_byteCollected hb k c ?_ hc
    have := (List.getElem?_eq_some_iff.1 hc).1
    have := hs.length
    omega
  obtain ⟨t, complete, accepted⟩ := completeFrame_of_match (s := byteCollected b (disarmed s)) hs.config hs.unrounded
    ((hs.scan_byteCollected hb).frameState _ _ _ _ _ false) hs.length stored sum
  refine ⟨rearm .protocolB t, ?_, accepted⟩
  rw [receiveFrameByte_eq_ok, if_pos hs.armed]
  exact ⟨t, (frameStep_of_collect (s := disarmed s) hs.phase b).trans (collectByte_of_last last complete), rfl⟩

/-- The checksum after the next byte is the XOR of the bytes so far; a count of 0 says there were none. -/
theorem checksumWith_eq_foldl {done : List Byte} (cnt : s.protoB.cnt = done.length)
    (sum : s.protoB.xor = done.foldl (· ^^^ ·) 0#8) : checksumWith b s = (done ++ [b]).foldl (· ^^^ ·) 0#8 := by
  rw [List.foldl_concat, ← sum, checksumWith]
  split
  · obtain rfl : done = [] := List.eq_nil_of_length_eq_zero (by omega)
    rw [sum, List.foldl_nil, BitVec.zero_xor]
  · rfl

/-- The rest of a frame, received byte by byte, completes it where the XOR of all its bytes is the expected checksum. -/
theorem receive_rest {done rest : List Byte} (hs : Collecting body s) (hbody : body = done ++ b :: rest)
    (cnt : s.protoB.cnt = done.length) (xor : s.protoB.xor = done.foldl (· ^^^ ·) 0#8)
    (sum : body.foldl (· ^^^ ·) 0#8 = s.protoB.h2.extractLsb' 0 4 ++ s.protoB.h1.extractLsb' 0 4) :
    ∃ t, receiveFrameBytes (b :: rest) s = .ok t ∧ FrameAccepted s body t := by
  have length := hs.length
  induction rest generalizing b done s with
  | nil =>
    have hb : body[s.protoB.cnt]? = some b := by simp [hbody, cnt]
    have last : s.protoB.cnt + 1 = s.cfg.bCollectLen := by simp [← length, hbody, cnt]
    obtain ⟨t, received, accepted⟩ := hs.receive_last hb last ((checksumWith_eq_foldl cnt xor).trans (hbody ▸ sum))
    exact ⟨t, by rw [receiveFrameBytes, received, ok_bind, receiveFrameBytes], accepted⟩
  | cons c rest ih =>
    have hb : body[s.protoB.cnt]? = some b := by simp [hbody, cnt]
    have more : s.protoB.cnt + 1 < s.cfg.bCollectLen := by simp [← length, hbody, cnt]
    obtain ⟨t, received, accepted⟩ := ih (b := c) (done := done ++ [b]) (hs.next hb) (by simp [hbody])
      (by simp [byteCollected, cnt]) (checksumWith_eq_foldl cnt xor) sum length
    exact ⟨t, by rw [receiveFrameBytes, receiveFrameByte_of_more hs.armed hs.phase more, ok_bind, received], accepted⟩

end Collecting

/-- A byte at Protocol B's channel leaves the machine running. -/
theorem receiveFrameByte_running {b : Byte} {s t : State} (hrun : running s) (h : receiveFrameByte b s = .ok t) :
    running t := by
  obtain ⟨_, _, rfl, -⟩ := receiveFrameByte_frame h
  exact hrun

/-- Two running operations with one result answer the same. -/
theorem attempts_congr_op {op op' : State → Except Fault State} {s t : State} (hs : running s) (ht : running t)
    (h : op s = op' t) : attempts op s = attempts op' t := by
  simp [attempts, hs, ht, h]

/-- Bytes received one after another are that many B_RX, halted or not. -/
theorem attempts_receiveFrameBytes (bs : List Byte) (s : State) :
    attempts (receiveFrameBytes bs) s = execAll (bs.map fun b : Byte => Instr.bRx b) s := by
  induction bs generalizing s with
  | nil => exact ite_self _
  | cons b bs ih =>
    rw [List.map_cons, execAll, show exec (.bRx b) s = attempts (receiveFrameByte b) s from rfl]
    by_cases hrun : running s
    · cases h : receiveFrameByte b s with
      | error f => rw [attempts_of_error hrun h, attempts_of_error hrun (by rw [receiveFrameBytes, h]; rfl)]
      | ok t =>
        rw [attempts_of_ok hrun h]
        exact (attempts_congr_op hrun (receiveFrameByte_running hrun h) (by rw [receiveFrameBytes, h, ok_bind])).trans
          (ih t)
    · have halted := Bool.eq_true_of_not_eq_false hrun
      rw [attempts_of_halted halted, attempts_of_halted halted]
      exact (attempts_of_halted halted).symm.trans (ih s)

/-- `s` when the header bytes with the checksum nibbles `lo` and `hi` have been kept and collection starts. -/
def collectionStarted (lo hi : BitVec 4) (s : State) : State :=
  { s with
    protoB := { s.protoB with
      h1 := headerByte s.cfg.hdr1 lo
      h2 := headerByte s.cfg.hdr2 hi
      phase := .collect
      cnt := 0
      xor := 0#8 } }

/-- From WAIT_HEADER1 the two header bytes of a frame are kept and collection starts. -/
theorem receiveFrameBytes_headers {s : State} (harmed : s.protoB.armed = true) (hphase : s.protoB.phase = .waitHeader1)
    (lo hi : BitVec 4) (body : List Byte) :
    receiveFrameBytes (headerByte s.cfg.hdr1 lo :: headerByte s.cfg.hdr2 hi :: body) s =
      receiveFrameBytes body (collectionStarted lo hi s) := by
  rw [receiveFrameBytes, receiveFrameByte_of_waitHeader1 harmed hphase, if_pos (highNibble_headerByte _ _), ok_bind,
    receiveFrameBytes, receiveFrameByte_of_waitHeader2 (by exact harmed) rfl, if_pos (highNibble_headerByte _ _),
    ok_bind]
  rfl

theorem scanSound_of_frameInv {s : State} (h : frameInv s) : ScanSound s :=
  have ⟨_, _, whole, below, buf, work, pub, written, published⟩ := h
  ⟨whole, below, buf, work, pub, written, published⟩

/-- Settles O39: a frame unit as its bytes, the frame's last byte, and the whole frame from WAIT_HEADER1. -/
theorem acceptedFrameIsExtractedAndPublished : Obligations.AcceptedFrameIsExtractedAndPublished := by
  refine ⟨fun s lo hi body => attempts_receiveFrameBytes _ s, ?_, ?_⟩
  · intro s b body hrun hc hexact hs harmed hphase last length stored hb sum
    have collecting : Collecting body s :=
      ⟨hc, hexact, scanSound_of_frameInv hs, harmed, hphase, length, stored⟩
    obtain ⟨t, received, accepted⟩ := collecting.receive_last hb last sum
    exact ⟨t, exec_bRx_of_ok hrun received, accepted⟩
  · intro s lo hi body hrun hc hexact hs harmed hphase length sum
    obtain ⟨b, rest, rfl⟩ : ∃ b rest, body = b :: rest :=
      List.exists_cons_of_ne_nil (List.ne_nil_of_length_pos (length ▸ config_wf_frame hc))
    have nibbles : hi ++ lo =
        (headerByte s.cfg.hdr2 hi).extractLsb' 0 4 ++ (headerByte s.cfg.hdr1 lo).extractLsb' 0 4 :=
      congrArg₂ (· ++ ·) (lowNibble_headerByte _ hi).symm (lowNibble_headerByte _ lo).symm
    have collecting : Collecting (b :: rest) (collectionStarted lo hi s) :=
      ⟨hc, hexact, (scanSound_of_frameInv hs).frameState _ _ _ _ _ _, harmed, rfl, length,
        fun k _ hk => absurd hk (Nat.not_lt_zero k)⟩
    obtain ⟨t, received, accepted⟩ := collecting.receive_rest (done := []) rfl rfl rfl (sum.trans nibbles)
    exact ⟨t, attempts_of_ok hrun ((receiveFrameBytes_headers harmed hphase lo hi _).trans received), accepted⟩

/-! ### The commands the block sends (R210, R211) -/

/-- An emission on `b_tx`, halted or not. -/
theorem runs_emitBytes (bytes : List Byte) (s : State) :
    runs (emitBytes bytes) s =
      if s.sys.halted = false then .next { s with out := { s.out with bTx := s.out.bTx ++ bytes } } else .next s :=
  runs_eq_ite (emitBytes bytes) s

/-- Operation code 0xD is split by `sel` (R81). -/
theorem decodeEvent_of_send (c : Config) {e : EventWord} (h : e.op = 0xD#4) :
    decodeEvent c e = if e.sel = 0#1 then .ok .bStart else .ok .bStop := by
  rw [decodeEvent, h]
  rfl

/-- Settles O42: the emission of either command, and the words that spell it. -/
theorem protocolBCommandsAreSentAsPrinted : Obligations.ProtocolBCommandsAreSentAsPrinted := by
  rintro _ _ rfl rfl
  refine ⟨fun s => ⟨?_, ?_⟩, fun c e => ⟨fun hop hsel => ?_, fun hop hsel => ?_, decodeTransmitted_start,
    decodeTransmitted_stop⟩⟩
  · rintro i (rfl | rfl) <;> exact runs_emitBytes txStartBytes s
  · rintro i (rfl | rfl) <;> exact runs_emitBytes txStopBytes s
  · exact (decodeEvent_of_send c hop).trans (if_pos hsel)
  · exact (decodeEvent_of_send c hop).trans (if_neg (by rw [hsel]; decide))

/-! ### The read of the published scan (R209, R65) -/

/-- Settles O43: inside the published scan a listed entry is the read's value, and an unlisted one the draw's (U6). -/
theorem publishedEntriesReadAsPublished : Obligations.PublishedEntriesReadAsPublished := by
  intro s k hk
  refine ⟨fun v listed draw => ?_, fun unlisted draw => ?_⟩
  · simp [readPub, hk, listed]
  · simp [readPub, hk, unlisted]

end Sys2Proof.Machine

/-! PROOFS. No sound state faults (spec/60_exceptions.md R257): the operations that use a buffer complete from a sound
ring and a sound frame state, whatever the bytes and the rounding (spec/93_implementation_defined.md U4, U5). -/

namespace Sys2Proof.Machine

/-! ### What can fault -/

/-- The operations an instruction that faults has come to: the four that use a buffer. -/
inductive FaultSource (s : State) (f : Fault) : Prop
  | fill {b : Byte} (h : fillByte b s = .error f)
  | poll {now : Nat} (h : pollRing now s = .error f)
  | assembly {now : Nat} {bs : List Byte} (h : assembleBytes now bs s = .error f)
  | receiver {bs : List Byte} (h : receiveFrameBytes bs s = .error f)

/-- A byte at the assembly that faults, as an event or as a stray byte. -/
theorem FaultSource.of_assembleByte {b : Byte} {now : Nat} {s : State} {f : Fault}
    (h : attempts (assembleByte b now) s = .fault f) : FaultSource s f :=
  .assembly ((assembleBytes_singleton b now s).trans (attempts_fault h).2)

/-- A byte on Protocol B's channel that faults, as an event or as a header unit. -/
theorem FaultSource.of_receiveFrameByte {b : Byte} {s : State} {f : Fault}
    (h : attempts (receiveFrameByte b) s = .fault f) : FaultSource s f :=
  .receiver ((receiveFrameBytes_singleton b s).trans (attempts_fault h).2)

/-- An instruction that faults is one that uses a buffer; every other one answers a next state in every state. -/
theorem exec_fault {i : Instr} {s : State} {f : Fault} (h : exec i s = .fault f) : FaultSource s f := by
  cases i with
  | aFill b => exact .fill (attempts_fault h).2
  | apoll now => exact .poll (attempts_fault h).2
  | aSync now => exact .of_assembleByte h
  | aPacket now p => exact .assembly (attempts_fault h).2
  | bRx b => exact .of_receiveFrameByte h
  | bHdr1 n => exact .of_receiveFrameByte h
  | bHdr2 n => exact .of_receiveFrameByte h
  | bFrame lo hi body => exact .receiver (attempts_fault h).2
  | _ => cases h

/-- A step that faults has come to one of those operations, with some words taken off `inbox`. -/
theorem step_fault {s : State} {f : Fault} (h : step s = .fault f) :
    ∃ inbox, FaultSource { s with inbox := inbox } f := by
  unfold step at h
  rcases fetch_cases s with ⟨-, e⟩ | ⟨_, _, inbox, -, -, e⟩ | ⟨_, _, inbox, e⟩ | ⟨_, e⟩ | ⟨_, _, _, -, -, e⟩ <;>
    rw [e] at h
  · cases h
  · exact ⟨inbox, exec_fault h⟩
  · exact ⟨inbox, .of_assembleByte h⟩
  · cases h
  · cases h

/-! ### Protocol A from a sound ring -/

/-- In a sound configuration and ring the assembly takes any bytes (R28, R35 item 8). -/
theorem ringInv_assembleBytes_ok {s : State} (hc : s.cfg.wf = true) (hs : ringInv s) (now : Nat) (bs : List Byte) :
    ∃ t, assembleBytes now bs s = .ok t := by
  obtain ⟨len, -⟩ := config_wf_ring hc
  obtain ⟨-, -, hidx, -⟩ := hs
  exact assembleBytes_ok now len fun _ => len ▸ hidx

/-- In a sound configuration and ring a poll completes: what it reads is written (U4). -/
theorem ringInv_pollRing_ok {s : State} (hc : s.cfg.wf = true) (hs : ringInv s) (now : Nat) :
    ∃ t, pollRing now s = .ok t := by
  obtain ⟨len, -⟩ := config_wf_ring hc
  obtain ⟨unread, -, -, poll⟩ := pollRing_of_ringInv now hs
  obtain ⟨-, -, hidx, -⟩ := hs
  rw [poll]
  refine assembleBytes_ok now (s := pollStart now s) len fun _ => ?_
  dsimp only [pollStart]
  split <;> omega

/-! ### Protocol B from a sound scan -/

/-- Where the entries below the counter are written, the publication check completes: what it copies is below the
threshold the counter has passed (R206). -/
theorem publishCheck_ok {s : State} (hc : s.cfg.wf = true)
    (written : ∀ k, k < s.protoB.samples → (memFind s.protoB.work k).isSome) : ∃ t, publishCheck s = .ok t := by
  obtain ⟨-, room, publishLen⟩ := config_wf_sizes hc
  obtain below | past := le_or_gt s.protoB.samples s.cfg.bPublishThreshold
  · exact ⟨s, publishCheck_of_le below⟩
  · obtain ⟨scan, published, -⟩ := publishCheck_of_lt past fun k hk => ⟨by omega, written k (by omega)⟩
    exact ⟨_, published⟩

/-- From a sound scan a frame's extraction completes, for every rounding: its reads stay inside the frame, its samples
inside the working buffer, and what it publishes is written (R204, U5). -/
theorem ScanSound.extractFrame_ok {s : State} (hc : s.cfg.wf = true) (hs : ScanSound s) :
    ∃ t, Machine.extractFrame s = .ok t := by
  obtain ⟨payload, room, -⟩ := config_wf_sizes hc
  have below := hs.below
  have byte : ∀ k, memGet (some 0#8) s.protoB.buf k = some ((memFind s.protoB.buf k).getD 0#8) := fun k => by
    unfold memGet
    cases memFind s.protoB.buf k <;> rfl
  have lo := readFrameByte_eq_ok.2 ⟨by omega, byte s.cfg.bPayloadOffset⟩
  have hi := readFrameByte_eq_ok.2 ⟨by omega, byte (s.cfg.bPayloadOffset + 1)⟩
  unfold Machine.extractFrame
  dsimp only
  rw [lo, ok_bind, hi, ok_bind]
  generalize startAngle s.cfg _ = start
  obtain ⟨m, samples, -, -⟩ := writeSamples_ok s.protoB.prevStart (angleGap s.cfg s.protoB.prevStart start)
    (n := s.cfg.bSamplesPerFrame) (i := 0) _ (fun k _ => byte k) (by omega) (by omega)
  obtain ⟨-, listed⟩ := writeSamples_work samples hs.work
  rw [samples, ok_bind]
  refine publishCheck_ok (s := frameSampled m start s) hc fun k hk => listed k ?_
  by_cases old : k < s.protoB.samples
  · exact .inl (hs.written k old)
  · exact .inr ⟨by omega, by dsimp only [frameSampled] at hk; omega⟩

/-- What B_RX needs in order to complete, and keeps: a configuration within its constraints, a sound scan, and while bytes
are collected a count inside the frame. -/
structure FrameReady (s : State) : Prop where
  config : s.cfg.wf = true
  scan : ScanSound s
  collecting : s.protoB.phase = .collect → s.protoB.cnt < s.cfg.bCollectLen

namespace FrameReady

variable {s : State}

theorem setArmed (hs : FrameReady s) (armed : Bool) :
    FrameReady { s with protoB := { s.protoB with armed := armed } } :=
  ⟨hs.config, hs.scan.frameState _ _ _ _ _ armed, hs.collecting⟩

/-- A whole frame completes, and the frame state is cleared (R203). -/
theorem of_completeFrame (hc : s.cfg.wf = true) (hs : ScanSound s) :
    ∃ t, completeFrame s = .ok t ∧ FrameReady t := by
  have checked : ∃ u, checkFrame s = .ok u := by
    unfold checkFrame
    split
    · exact hs.extractFrame_ok hc
    · exact ⟨_, rfl⟩
  obtain ⟨u, hu⟩ := checked
  have cfg : u.cfg = s.cfg := by obtain ⟨_, _, rfl, -⟩ := checkFrame_frame hu; rfl
  exact ⟨_, completeFrame_eq_ok.2 ⟨u, hu, rfl⟩, cfg ▸ hc, (hs.checkFrame hu).frameState _ _ _ _ _ _, nofun⟩

theorem scan_byteCollected (hs : FrameReady s) (hp : s.protoB.phase = .collect) (b : Byte) :
    ScanSound (byteCollected b s) :=
  have ⟨whole, below, buf, work, pub, written, published⟩ := hs.scan
  ⟨whole, below, memory_wf_memSet b buf (hs.collecting hp), work, pub, written, published⟩

/-- A collected byte is stored inside the frame, and the last one completes it (R202). -/
theorem collectByte (hs : FrameReady s) (hp : s.protoB.phase = .collect) (b : Byte) :
    ∃ t, collectByte b s = .ok t ∧ FrameReady t := by
  have scan := hs.scan_byteCollected hp b
  obtain more | last := Nat.lt_or_eq_of_le (Nat.succ_le_of_lt (hs.collecting hp))
  · exact ⟨_, collectByte_of_more more, hs.config, scan, fun _ => more⟩
  · obtain ⟨t, complete, ready⟩ := of_completeFrame (s := byteCollected b s) hs.config scan
    exact ⟨t, collectByte_of_last last complete, ready⟩

/-- A byte at the frame machine, in each of its three states (R202). -/
theorem frameStep (hs : FrameReady s) (b : Byte) : ∃ t, frameStep b s = .ok t ∧ FrameReady t := by
  cases hp : s.protoB.phase with
  | waitHeader1 =>
    refine ⟨_, frameStep_of_waitHeader1 hp b, ?_⟩
    split
    · exact ⟨hs.config, hs.scan.frameState _ _ _ _ _ _, nofun⟩
    · exact hs
  | waitHeader2 =>
    refine ⟨_, frameStep_of_waitHeader2 hp b, ?_⟩
    split
    · exact ⟨hs.config, hs.scan.frameState _ _ _ _ _ _, fun _ => config_wf_frame hs.config⟩
    · exact ⟨hs.config, hs.scan.frameState _ _ _ _ _ _, nofun⟩
  | collect =>
    rw [frameStep_of_collect hp]
    exact hs.collectByte hp b

theorem receiveFrameByte (hs : FrameReady s) (b : Byte) : ∃ t, receiveFrameByte b s = .ok t ∧ FrameReady t := by
  cases harmed : s.protoB.armed with
  | false => exact ⟨s, receiveFrameByte_of_unarmed b harmed, hs⟩
  | true =>
    obtain ⟨u, stepped, ready⟩ := (hs.setArmed false).frameStep b
    exact ⟨_, receiveFrameByte_eq_ok.2 ((if_pos harmed).mpr ⟨u, stepped, rfl⟩), ready.setArmed true⟩

theorem receiveFrameBytes (hs : FrameReady s) (bs : List Byte) : ∃ t, receiveFrameBytes bs s = .ok t := by
  induction bs generalizing s with
  | nil => exact ⟨s, rfl⟩
  | cons b bs ih =>
    obtain ⟨u, received, ready⟩ := hs.receiveFrameByte b
    obtain ⟨t, rest⟩ := ih ready
    exact ⟨t, bind_eq_ok.2 ⟨u, received, rest⟩⟩

end FrameReady

/-! ### The step -/

theorem frameReady_of_frameInv {s : State} (hc : s.cfg.wf = true) (hs : frameInv s) : FrameReady s :=
  ⟨hc, scanSound_of_frameInv hs, hs.1⟩

/-- From a sound ring and frame each of the operations that use a buffer completes. -/
theorem not_faultSource {s : State} {f : Fault} (hc : s.cfg.wf = true) (ring : ringInv s) (frame : frameInv s) :
    ¬ FaultSource s f := by
  have completes : ∀ {r : Except Fault State}, (∃ t, r = .ok t) → r ≠ .error f := by
    rintro _ ⟨t, rfl⟩
    nofun
  rintro (h | h | h | h)
  · exact completes ⟨_, fillByte_eq_ok.2 ⟨ring.1, rfl⟩⟩ h
  · exact completes (ringInv_pollRing_ok hc ring _) h
  · exact completes (ringInv_assembleBytes_ok hc ring _ _) h
  · exact completes ((frameReady_of_frameInv hc frame).receiveFrameBytes _) h

/-- Settles O60: a step that faults has come to an operation on a buffer, and each of those completes from a sound ring
and frame, which do not look at `inbox`. -/
theorem soundStatesNeverFault : Obligations.SoundStatesNeverFault := by
  intro s hc ring frame f h
  obtain ⟨inbox, source⟩ := step_fault h
  exact not_faultSource (s := { s with inbox := inbox }) hc ring frame source

end Sys2Proof.Machine

/-! PROOFS. The system operations (spec/47_system.md R230 to R234, spec/60_exceptions.md R256): RESET, the halted machine,
and the writers of the status registers; and that no step writes the configuration (spec/70_reset_and_hazards.md R282). -/

namespace Sys2Proof.Machine

/-! ### RESET and the halted machine -/

/-- Settles O1: the reset state's fields are the reset column. -/
theorem resetRestoresEveryRegister : Obligations.ResetRestoresEveryRegister := fun _ => rfl

/-- Every instruction but RESET is an operation behind the `halted` test (R234). -/
theorem exec_guarded {i : Instr} (hi : i ≠ .reset) (s : State) :
    (∃ op, exec i s = runs op s) ∨ ∃ op, exec i s = attempts op s := by
  cases i with
  | reset => exact absurd rfl hi
  | aFill b => exact .inr ⟨_, rfl⟩
  | apoll now => exact .inr ⟨_, rfl⟩
  | aSync now => exact .inr ⟨_, rfl⟩
  | aPacket now p => exact .inr ⟨_, rfl⟩
  | bRx b => exact .inr ⟨_, rfl⟩
  | bHdr1 n => exact .inr ⟨_, rfl⟩
  | bHdr2 n => exact .inr ⟨_, rfl⟩
  | bFrame lo hi body => exact .inr ⟨_, rfl⟩
  | _ => exact .inl ⟨_, rfl⟩

/-- Settles O2: behind the `halted` test nothing happens, and RESET has none. -/
theorem haltedMachineIsFrozen : Obligations.HaltedMachineIsFrozen := by
  refine ⟨fun i s halted hi => ?_, fun s => ⟨resetRegisters s, rfl, rfl⟩⟩
  rcases exec_guarded hi s with ⟨op, e⟩ | ⟨op, e⟩ <;> rw [e]
  · exact runs_of_halted halted
  · exact attempts_of_halted halted

/-! ### The writers of the status registers (R31) -/

/-- What instruction `i` can have done to `halted` and `imu_fault` when it took `s` to `t`. -/
inductive StatusEffect (s t : State) : Instr → Prop
  | kept {i : Instr} (h : t.sys = s.sys) : StatusEffect s t i
  | reset (h : t.sys = {}) : StatusEffect s t .reset
  | fatal (h : t.sys.imuFault = s.sys.imuFault) : StatusEffect s t .fatal
  /-- a report never clears `imu_fault` -/
  | imuStatus {ok : Bool} (halted : t.sys.halted = s.sys.halted)
      (imuFault : s.sys.imuFault = true → t.sys.imuFault = true) : StatusEffect s t (.imuStatus ok)

theorem StatusEffect.of_assembly {i : Instr} {s t : State} (h : AssemblyOnly s t) : StatusEffect s t i := by
  obtain ⟨_, _, rfl, -⟩ := h
  exact .kept rfl

theorem StatusEffect.of_frame {i : Instr} {s t : State} (h : FrameOnly s t) : StatusEffect s t i := by
  obtain ⟨_, _, rfl, -⟩ := h
  exact .kept rfl

theorem exec_sent_statusEffect {i : Instr} (hi : i = .bStart ∨ i = .bStop ∨ i = .txBStart ∨ i = .txBStop)
    {s t : State} (h : exec i s = .next t) : StatusEffect s t i := by
  obtain ⟨_, rfl⟩ := exec_sent_frame hi h
  exact .kept rfl

/-- A report of the sensor's initialisation: the first failure is recorded and reported, any other report changes nothing
(R233). -/
theorem reportImu_eq (ok : Bool) (s : State) :
    reportImu ok s =
      if ok = false ∧ s.sys.imuFault = false then
        { s with
          sys := { s.sys with imuFault := true }
          out := { s.out with status := s.out.status ++ [.imuInitFail] } }
      else s := by
  unfold reportImu
  cases ok <;> cases s.sys.imuFault <;> rfl

theorem exec_imuStatus_statusEffect {ok : Bool} {s t : State} (h : exec (.imuStatus ok) s = .next t) :
    StatusEffect s t (.imuStatus ok) := by
  rcases runs_cases (op := reportImu ok) h with ⟨-, rfl⟩ | ⟨-, rfl⟩
  · exact .kept rfl
  · rw [reportImu_eq]
    split
    · exact .imuStatus rfl fun _ => rfl
    · exact .kept rfl

/-- RESET, FATAL and IMU_STATUS are the only writers of the status registers (R31). -/
theorem exec_statusEffect {i : Instr} {s t : State} (h : exec i s = .next t) : StatusEffect s t i := by
  cases i with
  | reset => exact .reset (exec_reset_eq h ▸ rfl)
  | mtick now => obtain ⟨_, _, rfl⟩ := exec_mtick_frame h; exact .kept rfl
  | est encL encR => obtain ⟨_, _, rfl⟩ := exec_est_frame h; exact .kept rfl
  | drive => obtain ⟨_, _, rfl⟩ := exec_drive_frame h; exact .kept rfl
  | gyro gz => obtain ⟨_, _, _, _, _, rfl⟩ := exec_gyro_frame h; exact .kept rfl
  | apoll now => obtain ⟨_, _, _, rfl, -⟩ := exec_apoll_frame h; exact .kept rfl
  | notify => obtain ⟨_, _, rfl⟩ := exec_notify_frame h; exact .kept rfl
  | cmdRx b => obtain ⟨_, _, _, _, _, rfl⟩ := exec_cmdRx_frame h; exact .kept rfl
  | bRx b => exact .of_frame (exec_bRx_frame h)
  | aFill b => obtain ⟨_, _, _, rfl⟩ := exec_aFill_frame h; exact .kept rfl
  | setIntent d v => obtain ⟨_, rfl⟩ := exec_setIntent_frame h; exact .kept rfl
  | estop => obtain ⟨_, _, _, _, rfl⟩ := exec_estop_frame h; exact .kept rfl
  | arm ch => obtain ⟨_, _, rfl⟩ := exec_arm_frame h; exact .kept rfl
  | bStart => exact exec_sent_statusEffect (by simp) h
  | bStop => exact exec_sent_statusEffect (by simp) h
  | imuStatus ok => exact exec_imuStatus_statusEffect h
  | fatal => obtain ⟨_, _, rfl⟩ := exec_fatal_frame h; exact .fatal rfl
  | cmdStop => obtain ⟨_, _, _, rfl⟩ := exec_cmdStop_frame h; exact .kept rfl
  | cmdForward => obtain ⟨_, _, _, rfl⟩ := exec_cmdForward_frame h; exact .kept rfl
  | cmdBackward => obtain ⟨_, _, _, rfl⟩ := exec_cmdBackward_frame h; exact .kept rfl
  | cmdLeft => obtain ⟨_, _, _, _, _, rfl⟩ := exec_cmdLeft_frame h; exact .kept rfl
  | cmdRight => obtain ⟨_, _, _, _, _, rfl⟩ := exec_cmdRight_frame h; exact .kept rfl
  | cmdUturn => obtain ⟨_, _, _, _, _, rfl⟩ := exec_cmdUturn_frame h; exact .kept rfl
  | cmdIgnored b => obtain ⟨_, rfl⟩ := exec_cmdIgnored_frame h; exact .kept rfl
  | aSync now => exact .of_assembly (exec_aSync_frame h)
  | aPacket now p => exact .of_assembly (exec_aPacket_frame h)
  | bHdr1 n => exact .of_frame (exec_bHdr1_frame h)
  | bHdr2 n => exact .of_frame (exec_bHdr2_frame h)
  | bFrame lo hi body => exact .of_frame (exec_bFrame_frame h)
  | txBStart => exact exec_sent_statusEffect (by simp) h
  | txBStop => exact exec_sent_statusEffect (by simp) h

/-- Settles O3: FATAL's equation, and of the writers of the status registers FATAL alone can have set `halted`. -/
theorem fatalAloneHalts : Obligations.FatalAloneHalts := by
  refine ⟨fun s hrun => runs_of_running hrun, fun i s t hrun h halted => ?_⟩
  have still_running : t.sys.halted = s.sys.halted → i = .fatal := fun e => by simp [e, hrun] at halted
  cases exec_statusEffect h with
  | kept kept => exact still_running (kept ▸ rfl)
  | reset cleared => simp [cleared] at halted
  | fatal => rfl
  | imuStatus unchanged => exact still_running unchanged

/-- Settles O4: the report's equation, and of the writers of the status registers RESET alone can have cleared
`imu_fault`. -/
theorem imuFailureIsReportedOnce : Obligations.ImuFailureIsReportedOnce := by
  refine ⟨fun s ok => ?_, fun i s t hi h failed => ?_, fun c e hop => ?_⟩
  · rw [ite_and, ← apply_ite Host.Outcome.next, ← reportImu_eq]
    exact runs_eq_ite (reportImu ok) s
  · cases exec_statusEffect h with
    | kept kept => rw [kept, failed]
    | reset => exact absurd rfl hi
    | fatal kept => rw [kept, failed]
    | imuStatus _ sticky => exact sticky failed
  · rw [decode, decodeEvent, hop]
    rfl

/-! ### The configuration -/

/-- Settles O47: neither what an instruction does nor a stray byte writes the configuration, and nothing else happens in a
step but the taking of a word. -/
theorem configurationNeverChanges : Obligations.ConfigurationNeverChanges := fun s _ h =>
  step_keeps (P := fun u => u.cfg = s.cfg) (fun _ _ kept => kept)
    (fun _ _ _ _ kept effect => (cfg_of_effect effect).trans kept)
    (fun _ _ _ _ _ kept assembled => (cfg_of_assembleBytes assembled).trans kept) rfl h

end Sys2Proof.Machine

/-! PROOFS. The two faults of Protocol A's ring (spec/93_implementation_defined.md U4): a poll stops at the first unwritten
entry it comes to, a fill at a cursor outside the buffer. -/

namespace Sys2Proof.Machine

/-- A read of an unwritten entry of the ring faults with that entry. -/
theorem readRing_of_unwritten {s : State} {i : Nat} (hi : i < s.cfg.aBufSize)
    (unwritten : memFind s.protoA.buf i = none) : readRing s i = .error (.unwrittenEntry .aBuf i) := by
  simp [readRing, readEntry, hi, unwritten]

/-- A write outside the ring faults with that entry. -/
theorem writeRing_of_outside {s : State} {i : Nat} (b : Byte) (hi : s.cfg.aBufSize ≤ i) :
    writeRing i b s = .error (.noSuchEntry .aBuf i) := by
  simp [writeRing, writeEntry, not_lt.2 hi]

theorem error_bind {ε α β : Type} (e : ε) (f : α → Except ε β) : (Except.error e >>= f) = .error e := rfl

theorem fillByte_of_outside {s : State} (b : Byte) (hwr : s.cfg.aBufSize ≤ s.protoA.wr) :
    fillByte b s = .error (.noSuchEntry .aBuf s.protoA.wr) := by
  unfold fillByte
  rw [writeRing_of_outside b hwr, error_bind]

/-- The overrun check of a completed fill cycle faults where entry 0 is unwritten (R186). -/
theorem overrunCheck_of_unwritten {s : State} (hc : s.protoA.cycle = true) (h0 : 0 < s.cfg.aBufSize)
    (unwritten : memFind s.protoA.buf 0 = none) : overrunCheck s = .error (.unwrittenEntry .aBuf 0) := by
  have read := readRing_of_unwritten (s := { s with protoA := { s.protoA with cycle := false } }) h0 unwritten
  unfold overrunCheck
  dsimp only
  rw [if_pos hc, read, error_bind]

/-- A walk is a walk of its first entries followed by a walk of the rest (R182). -/
theorem walkRing_add (now n m : Nat) (s : State) : walkRing now (n + m) s = walkRing now n s >>= walkRing now m := by
  induction n generalizing s with
  | zero => rw [Nat.zero_add]; rfl
  | succ n ih =>
    rw [Nat.succ_add, walkRing, walkRing]
    cases readRing s s.protoA.rd with
    | error f => rfl
    | ok b =>
      simp only [ok_bind]
      cases assembleByte b now { s with protoA := { s.protoA with rd := (s.protoA.rd + 1) % s.cfg.aBufSize } } with
      | error f => rfl
      | ok u => exact ih u

/-- The walk over written entries completes where the assembly's index is in its range, or the walk is empty. -/
theorem walkRing_of_written {now k : Nat} {s : State} (hrd : s.protoA.rd < s.cfg.aBufSize)
    (taken : k = 0 ∨ s.cfg.aPktLen = 5 ∧ (s.protoA.inpkt = true → s.protoA.idx < 5))
    (written : ∀ j, j < k → (memFind s.protoA.buf ((s.protoA.rd + j) % s.cfg.aBufSize)).isSome) :
    ∃ t, walkRing now k s = .ok t := by
  rcases taken with rfl | ⟨len, hidx⟩
  · exact ⟨s, rfl⟩
  · have length : (ringBytes s k).length = k := by simp [ringBytes]
    have walk := walkRing_eq_assembleBytes now hrd (ringBytes_getElem? written)
    rw [length] at walk
    rw [walk]
    exact assembleBytes_ok now (s := readFrom _ s) len hidx

/-- A walk that comes to an unwritten entry, the entries before it having been taken, faults with that entry. -/
theorem walkRing_of_unwritten {now n k : Nat} {s : State} (hrd : s.protoA.rd < s.cfg.aBufSize) (hk : k < n)
    (taken : k = 0 ∨ s.cfg.aPktLen = 5 ∧ (s.protoA.inpkt = true → s.protoA.idx < 5))
    (written : ∀ j, j < k → (memFind s.protoA.buf ((s.protoA.rd + j) % s.cfg.aBufSize)).isSome)
    (unwritten : memFind s.protoA.buf ((s.protoA.rd + k) % s.cfg.aBufSize) = none) :
    walkRing now n s = .error (.unwrittenEntry .aBuf ((s.protoA.rd + k) % s.cfg.aBufSize)) := by
  obtain ⟨m, rfl⟩ := Nat.exists_eq_add_of_lt hk
  obtain ⟨t, walked⟩ := walkRing_of_written (now := now) hrd taken written
  obtain ⟨pa, readings, rfl, hbuf, -, arrived, -⟩ := walkRing_frame walked
  have cursor : pa.rd = (s.protoA.rd + k) % s.cfg.aBufSize := by
    rw [arrived]
    dsimp only
    split
    · subst k
      exact (Nat.mod_eq_of_lt hrd).symm
    · rfl
  rw [Nat.add_assoc, walkRing_add, walked, ok_bind, walkRing, ← cursor,
    readRing_of_unwritten (cursor ▸ Nat.mod_lt _ (Nat.zero_lt_of_lt hrd)) ?_, error_bind]
  dsimp only
  rw [cursor, hbuf]
  exact unwritten

/-- A poll whose checks pass and whose walk comes to an unwritten entry faults with that entry: the checks move neither
the read cursor nor an entry, and keep the assembly's index in its range. -/
theorem pollRing_of_unwritten {now k : Nat} {s : State} (hrd : s.protoA.rd < s.cfg.aBufSize)
    (entry0 : s.protoA.cycle = true → (memFind s.protoA.buf 0).isSome)
    (hk : k < subMod (afterOverrunCheck s).protoA.wr s.protoA.rd s.cfg.aBufSize)
    (taken : k = 0 ∨ s.cfg.aPktLen = 5 ∧ (s.protoA.inpkt = true → s.protoA.idx < 5))
    (written : ∀ j, j < k → (memFind s.protoA.buf ((s.protoA.rd + j) % s.cfg.aBufSize)).isSome)
    (unwritten : memFind s.protoA.buf ((s.protoA.rd + k) % s.cfg.aBufSize) = none) :
    pollRing now s = .error (.unwrittenEntry .aBuf ((s.protoA.rd + k) % s.cfg.aBufSize)) := by
  unfold pollRing
  rw [overrunCheck_eq fun hc => ⟨Nat.zero_lt_of_lt hrd, entry0 hc⟩, ok_bind, stallCheck_eq_update]
  refine walkRing_of_unwritten (s := { afterOverrunCheck s with
    protoA := { (afterOverrunCheck s).protoA with
      inpkt := s.protoA.inpkt && !packetStalled now s
      idx := if packetStalled now s then 0 else s.protoA.idx } }) hrd hk ?_ written unwritten
  refine taken.imp_right fun ⟨len, hidx⟩ => ⟨len, fun hin => ?_⟩
  obtain ⟨inside, -⟩ := Bool.and_eq_true_iff.1 hin
  dsimp only
  split
  · exact Nat.zero_lt_succ 4
  · exact hidx inside

/-- Settles O34: the overrun check's read, the walk's read, and the fill's write. -/
theorem ringMisuseFaultsByName : Obligations.RingMisuseFaultsByName := by
  simp only [Obligations.RingMisuseFaultsByName, unlistedByte_aBuf, memGet_none, ← Option.isSome_iff_ne_none]
  refine ⟨fun s now hrun hc h0 unwritten => ?_, fun s now wr k hrun hrd entry0 hwr hk taken written unwritten => ?_,
    fun s b hrun hwr => attempts_of_error hrun (fillByte_of_outside b hwr)⟩
  · have poll : pollRing now s = .error (.unwrittenEntry .aBuf 0) := by
      unfold pollRing
      rw [overrunCheck_of_unwritten hc h0 unwritten, error_bind]
    exact attempts_of_error hrun poll
  · have target : wr = (afterOverrunCheck s).protoA.wr := by simpa [afterOverrunCheck, overran] using hwr
    have within : k < subMod (afterOverrunCheck s).protoA.wr s.protoA.rd s.cfg.aBufSize := by
      rw [← target, ← Int.ofNat_lt, subMod_cast _ _ (Nat.zero_lt_of_lt hrd)]
      exact hk
    exact attempts_of_error hrun (pollRing_of_unwritten hrd entry0 within taken written unwritten)

end Sys2Proof.Machine

/-! PROOFS. The decoders and the motion half (spec/47_system.md R237): an operation of the motion half writes nothing of a
decoder, and a decoder's operations neither read nor write the motion half. -/

namespace Sys2Proof.Machine

/-! ### The motion half beside the decoders -/

/-- Both decoders, the status registers and the decoders' output streams are as before. -/
def DecodersKept (s t : State) : Prop :=
  t.protoA = s.protoA ∧ t.protoB = s.protoB ∧ t.sys = s.sys ∧
    t.out.range = s.out.range ∧ t.out.pub = s.out.pub ∧ t.out.status = s.out.status ∧ t.out.bTx = s.out.bTx

/-- The motion half and the telemetry stream are none of the decoders'. -/
theorem decodersKept_of_motionHalf (s : State) (motion : Motion) (pid : PerWheel PidState) (wheel : PerWheel WheelSpeed)
    (turn : Turn) (cmd : CommandRegs) (act : Actuators) (tlm : List Telemetry) :
    DecodersKept s { s with
      motion := motion, pid := pid, wheel := wheel, turn := turn, cmd := cmd, act := act
      out := { s.out with tlm := tlm } } :=
  ⟨rfl, rfl, rfl, rfl, rfl, rfl, rfl⟩

/-- An operation that cannot stop completes, with whatever holds of each state it answers. -/
theorem runs_completes {op : State → State} {s : State} {P : State → Prop} (h : ∀ t, runs op s = .next t → P t) :
    ∃ t, runs op s = .next t ∧ P t :=
  ⟨_, rfl, h _ rfl⟩

/-- Settles O45: each of the seven is an operation that cannot stop, and writes components of the motion half and the
telemetry stream at most. -/
theorem motionLeavesTheDecodersAlone : Obligations.MotionLeavesTheDecodersAlone := by
  intro i s hi
  suffices keeps : ∃ t, exec i s = .next t ∧ DecodersKept s t from keeps
  have kept := decodersKept_of_motionHalf s
  rcases hi with ⟨now, rfl⟩ | ⟨l, r, rfl⟩ | rfl | ⟨gz, rfl⟩ | ⟨b, rfl⟩ | ⟨d, v, rfl⟩ | rfl <;>
    refine runs_completes fun t h => ?_
  · obtain ⟨_, _, rfl⟩ := exec_mtick_frame h; exact kept ..
  · obtain ⟨_, _, rfl⟩ := exec_est_frame h; exact kept ..
  · obtain ⟨_, _, rfl⟩ := exec_drive_frame h; exact kept ..
  · obtain ⟨_, _, _, _, _, rfl⟩ := exec_gyro_frame h; exact kept ..
  · obtain ⟨_, _, _, _, _, rfl⟩ := exec_cmdRx_frame h; exact kept ..
  · obtain ⟨_, rfl⟩ := exec_setIntent_frame h; exact kept ..
  · obtain ⟨_, _, _, _, rfl⟩ := exec_estop_frame h; exact kept ..

/-! ### The decoders beside the motion half -/

/-- An operation that completes does so with any other motion half in the place of the state's, which it hands on as it
is. -/
def MotionBlind (op : State → Except Fault State) : Prop :=
  ∀ s t m, op s = .ok t → op (withMotionHalf s m) = .ok (withMotionHalf t m)

/-- Protocol A's fill (R180). -/
theorem fillByte_motionBlind (b : Byte) : MotionBlind (fillByte b) := fun _ _ _ h => by
  obtain ⟨hwr, rfl⟩ := fillByte_eq_ok.1 h
  exact fillByte_eq_ok.2 ⟨hwr, rfl⟩

theorem decodePacket_withMotionHalf (p : APacket) (s m : State) :
    decodePacket p (withMotionHalf s m) = withMotionHalf (decodePacket p s) m := by
  change (if packetValid s.cfg p && angleMoved s.cfg (packetAngle s.cfg p) s.protoA.lastAngle then _ else _) = _
  unfold decodePacket
  dsimp only
  split <;> rfl

theorem takePacketByte_motionBlind (b : Byte) (now : Nat) : MotionBlind (takePacketByte b now) := by
  intro s t m h
  obtain ⟨_, stored, -⟩ := bind_eq_ok.1 h
  obtain ⟨hi, -⟩ := writePacketByte_eq_ok.1 stored
  obtain rfl := Except.ok.inj ((takePacketByte_of_lt b now hi).symm.trans h)
  refine (takePacketByte_of_lt b now (s := withMotionHalf s m) hi).trans (congrArg Except.ok ?_)
  change (if s.protoA.idx + 1 = s.cfg.aPktLen then _ else _) = _
  split
  · exact decodePacket_withMotionHalf _ { s with
      protoA := { s.protoA with
        pkt := s.protoA.pkt.set s.protoA.idx b hi, inpkt := false, idx := 0, lastTime := now } } m
  · rfl

/-- A byte at the assembly, hunting and inside a packet (R184). -/
theorem assembleByte_motionBlind (b : Byte) (now : Nat) : MotionBlind (assembleByte b now) := by
  intro s t m h
  cases hin : s.protoA.inpkt with
  | true =>
    rw [assembleByte_of_inpkt hin] at h
    exact (assembleByte_of_inpkt (s := withMotionHalf s m) hin b now).trans (takePacketByte_motionBlind b now s t m h)
  | false =>
    by_cases hb : b = s.cfg.aSync
    · subst hb
      obtain rfl := Except.ok.inj ((assembleByte_sync hin now).symm.trans h)
      exact assembleByte_sync (s := withMotionHalf s m) hin now
    · obtain rfl := Except.ok.inj ((assembleByte_of_ne_sync hin hb now).symm.trans h)
      exact assembleByte_of_ne_sync (s := withMotionHalf s m) hin hb now

theorem walkRing_motionBlind (now n : Nat) : MotionBlind (walkRing now n) := by
  induction n with
  | zero =>
    intro s t m h
    cases h
    rfl
  | succ n ih =>
    intro s t m h
    obtain ⟨b, read, h⟩ := bind_eq_ok.1 h
    obtain ⟨u, assembled, h⟩ := bind_eq_ok.1 h
    exact bind_eq_ok.2 ⟨b, read, bind_eq_ok.2 ⟨_, assembleByte_motionBlind b now _ u m assembled, ih u t m h⟩⟩

theorem overrunCheck_motionBlind : MotionBlind overrunCheck := by
  intro s t m h
  rcases overrunCheck_cases h with ⟨hc, rfl⟩ | ⟨hc, b, h0, hb, rfl⟩
  · exact overrunCheck_of_no_cycle (s := withMotionHalf t m) hc
  · refine (overrunCheck_of_cycle (s := withMotionHalf s m) hc h0 hb).trans (congrArg Except.ok ?_)
    change (if b = s.cfg.aSync then _ else _) = _
    split <;> rfl

theorem stallCheck_withMotionHalf (now : Nat) (s m : State) :
    stallCheck now (withMotionHalf s m) = withMotionHalf (stallCheck now s) m := by
  rw [stallCheck_eq_update, stallCheck_eq_update]
  rfl

/-- Protocol A's poll (R181). -/
theorem pollRing_motionBlind (now : Nat) : MotionBlind (pollRing now) := by
  intro s t m h
  obtain ⟨u, checked, walked⟩ := bind_eq_ok.1 h
  refine bind_eq_ok.2 ⟨_, overrunCheck_motionBlind s u m checked, ?_⟩
  dsimp only
  rw [stallCheck_withMotionHalf]
  exact walkRing_motionBlind now _ _ t m walked

theorem writeSamples_motionBlind (old gap : Rat) (n i : Nat) : MotionBlind (writeSamples old gap n i) := by
  induction n generalizing i with
  | zero =>
    intro s t m h
    cases h
    rfl
  | succ n ih =>
    intro s t m h
    obtain ⟨u, sample, rest⟩ := bind_eq_ok.1 h
    obtain ⟨lo, readLo, sample⟩ := bind_eq_ok.1 sample
    obtain ⟨hi, readHi, written⟩ := bind_eq_ok.1 sample
    obtain ⟨room, rfl⟩ := writeWork_eq_ok.1 written
    have sample' : writeSample old gap i (withMotionHalf s m) = .ok _ :=
      bind_eq_ok.2 ⟨lo, readLo, bind_eq_ok.2 ⟨hi, readHi, writeWork_eq_ok.2 ⟨room, rfl⟩⟩⟩
    exact bind_eq_ok.2 ⟨_, sample', ih (i + 1) _ t m rest⟩

theorem scanEntries_withMotionHalf (s m : State) (n k : Nat) :
    scanEntries (withMotionHalf s m) n k = scanEntries s n k := by
  induction n generalizing k with
  | zero => rfl
  | succ n ih =>
    rw [scanEntries, scanEntries, ih]
    rfl

theorem publishCheck_motionBlind : MotionBlind publishCheck := by
  intro s t m h
  rcases publishCheck_cases h with ⟨past, scan, copied, rfl⟩ | ⟨below, rfl⟩
  · refine (if_pos (show (withMotionHalf s m).cfg.bPublishThreshold < _ from past)).trans ?_
    exact bind_eq_ok.2 ⟨scan, (scanEntries_withMotionHalf s m _ 0).trans copied, rfl⟩
  · exact publishCheck_of_le (s := withMotionHalf t m) below

theorem extractFrame_motionBlind : MotionBlind extractFrame := by
  intro s t m h
  obtain ⟨lo, hi, work, readLo, readHi, sampled, checked⟩ := extractFrame_cases h
  exact bind_eq_ok.2 ⟨lo, readLo, bind_eq_ok.2 ⟨hi, readHi, bind_eq_ok.2 ⟨_,
    writeSamples_motionBlind _ _ _ 0 s _ m sampled, publishCheck_motionBlind _ t m checked⟩⟩⟩

theorem checkFrame_motionBlind : MotionBlind checkFrame := by
  intro s t m h
  rcases checkFrame_cases h with ⟨sum, extracted⟩ | ⟨mismatch, rfl⟩
  · exact (if_pos sum).trans (extractFrame_motionBlind s t m extracted)
  · exact if_neg mismatch

theorem completeFrame_motionBlind : MotionBlind completeFrame := by
  intro s t m h
  obtain ⟨u, checked, rfl⟩ := completeFrame_eq_ok.1 h
  exact completeFrame_eq_ok.2 ⟨_, checkFrame_motionBlind s u m checked, rfl⟩

theorem collectByte_motionBlind (b : Byte) : MotionBlind (collectByte b) := by
  intro s t m h
  obtain ⟨hcnt, u, rfl, h⟩ := collectByte_eq_ok.1 h
  refine collectByte_eq_ok.2 ⟨hcnt, _, rfl, ?_⟩
  change if s.protoB.cnt + 1 = s.cfg.bCollectLen then _ else _
  split at h
  · rw [if_pos ‹_›]
    exact completeFrame_motionBlind _ t m h
  · rw [if_neg ‹_›, h]
    rfl

/-- A byte at the frame machine, in each of its three states (R202). -/
theorem frameStep_motionBlind (b : Byte) : MotionBlind (frameStep b) := by
  intro s t m h
  cases hp : s.protoB.phase with
  | waitHeader1 =>
    obtain rfl := Except.ok.inj ((frameStep_of_waitHeader1 hp b).symm.trans h)
    refine (frameStep_of_waitHeader1 (s := withMotionHalf s m) hp b).trans (congrArg Except.ok ?_)
    change (if highNibble b = s.cfg.hdr1 then _ else _) = _
    split <;> rfl
  | waitHeader2 =>
    obtain rfl := Except.ok.inj ((frameStep_of_waitHeader2 hp b).symm.trans h)
    refine (frameStep_of_waitHeader2 (s := withMotionHalf s m) hp b).trans (congrArg Except.ok ?_)
    change (if highNibble b = s.cfg.hdr2 then _ else _) = _
    split <;> rfl
  | collect =>
    rw [frameStep_of_collect hp] at h
    exact (frameStep_of_collect (s := withMotionHalf s m) hp b).trans (collectByte_motionBlind b s t m h)

/-- Protocol B's received byte, at an armed and at an unarmed channel (R201). -/
theorem receiveFrameByte_motionBlind (b : Byte) : MotionBlind (receiveFrameByte b) := by
  intro s t m h
  have h := receiveFrameByte_eq_ok.1 h
  refine receiveFrameByte_eq_ok.2 ?_
  change if s.protoB.armed = true then _ else _
  split at h
  · rw [if_pos ‹_›]
    obtain ⟨u, stepped, rfl⟩ := h
    exact ⟨_, frameStep_motionBlind b _ u m stepped, rfl⟩
  · rw [if_neg ‹_›, h]

/-- Behind the `halted` test, which is none of the motion half's. -/
theorem attempts_withMotionHalf {op : State → Except Fault State} (hop : MotionBlind op) {s t : State} (m : State)
    (h : attempts op s = .next t) : attempts op (withMotionHalf s m) = .next (withMotionHalf t m) := by
  rcases attempts_cases h with ⟨halted, rfl⟩ | ⟨hrun, done⟩
  · exact attempts_of_halted (s := withMotionHalf t m) halted
  · exact attempts_of_ok (s := withMotionHalf s m) hrun (hop s t m done)

/-- Settles O44: the three operations are blind to the motion half, and their frames do not reach it. -/
theorem decodersIgnoreTheMotionHalf : Obligations.DecodersIgnoreTheMotionHalf := by
  rintro i s m t (⟨b, rfl⟩ | ⟨now, rfl⟩ | ⟨b, rfl⟩) h
  · refine ⟨attempts_withMotionHalf (fillByte_motionBlind b) m h, ?_⟩
    obtain ⟨_, _, _, rfl⟩ := exec_aFill_frame h
    rfl
  · refine ⟨attempts_withMotionHalf (pollRing_motionBlind now) m h, ?_⟩
    obtain ⟨_, _, _, rfl, -⟩ := exec_apoll_frame h
    rfl
  · refine ⟨attempts_withMotionHalf (receiveFrameByte_motionBlind b) m h, ?_⟩
    obtain ⟨_, _, rfl, -⟩ := exec_bRx_frame h
    rfl

end Sys2Proof.Machine
